-- ==== Sys2Proof/Word.lean ====
section
/-!
DEFINITION. The word types of the block (spec 00_scope.md R10, R11).

Every operand, result and state field of the block is a whole 32-bit word (20_memory.md R63); there is no
byte-addressed storage and therefore no byte type here.
-/

namespace Sys2Proof

/-- A 32-bit word, bit 0 least significant (R10). -/
abbrev Word := BitVec 32

/-- An IEEE-754 binary32 value held as its 32-bit pattern (R11, R16). -/
abbrev F32 := Word

/-- An Audio Block: `BLOCK` samples in ascending sample index (R11, R88). The invariant
`Machine.StateOk` says that a stored block has exactly `BLOCK` of them. -/
abbrev Block := List F32

end Sys2Proof
end

