-- ==== Sys2Proof/Config.lean ====
section
/-!
DEFINITION. What an implementation fixes when the block is built (spec 00_scope.md R5, R6), and the values the spec
leaves open (93_implementation_defined.md U2, U3, U5, U17) as constants without a body.

`N_OSC`, `N_ENV`, `N_MIX`, `N_CH` and `N_SRC[m]` are the lengths of the lists below. `RAMP_LEN` is derived
(`Machine.rampLen`). The function-valued fields `SINE`, `fmul`, `fadd` of R6 cannot stand in plain data: a
configuration says for each whether it is the spec's reference function or the implementation's own (log entry 2).
-/

namespace Sys2Proof

/-- Which function an implementation uses for a numerics parameter: the reference of R17, R18, R113, or one of its
own that meets the properties those rules require. -/
inductive Impl where
  | reference
  | own
deriving DecidableEq, Repr

/-- `CH_MODE[c]`: the two operating modes of a channel (R190). -/
inductive ChMode where
  | cell
  | rdv
deriving DecidableEq, Repr

/-- One mixer: `OWN_MIX[m]` and `MIX_GAIN_INIT[m]`, whose length is `N_SRC[m]` (R6). -/
structure MixerCfg where
  owner : Nat
  gainInit : List F32
deriving DecidableEq, Repr

/-- One channel: `CH_MODE[c]`, `CH_PROD[c]`, `CH_CONS[c]` (R6). -/
structure ChannelCfg where
  mode : ChMode
  prod : Nat
  cons : Nat
deriving DecidableEq, Repr

/-- The configuration record of R6. -/
structure Config where
  /-- `SAMPLE_RATE`, in hertz -/
  sampleRate : Nat
  /-- `BLOCK`, samples in one Audio Block -/
  block : Nat
  /-- `RAMP_TIME_MS` -/
  rampTimeMs : Nat
  /-- `F_LIMIT` is the positive rational `fLimitNum / fLimitDen`, in hertz -/
  fLimitNum : Nat
  fLimitDen : Nat
  /-- `OWN_OSC`; its length is `N_OSC` -/
  ownOsc : List Nat
  /-- `OWN_ENV`; its length is `N_ENV` -/
  ownEnv : List Nat
  /-- the mixers; the length is `N_MIX` -/
  mixers : List MixerCfg
  /-- the channels; the length is `N_CH` -/
  channels : List ChannelCfg
  /-- `N_PORT` -/
  nPort : Nat
  /-- `SINE` (R113) -/
  sineImpl : Impl
  /-- `fmul` (R17) -/
  fmulImpl : Impl
  /-- `fadd` (R17) -/
  faddImpl : Impl
  /-- `fdiv_u` strictly inside the ramp (R18) -/
  fdivImpl : Impl
deriving DecidableEq, Repr

/-! ### Free values: constants without a body -/

/-- An implementation's own `SINE`, before the properties (a) and (b) of R113 are imposed (log entry 3). -/
opaque Config.ownSine : Word → F32

/-- For an implementation's own `fmul`: whether the inexact product of these operands is taken to the bracketing value
of larger magnitude (R17 (c), log entry 2). -/
opaque Config.ownFmulUp : F32 → F32 → Bool

/-- The same for an implementation's own `fadd` (R17 (c), log entry 2). -/
opaque Config.ownFaddUp : F32 → F32 → Bool

/-- The same for an implementation's own `fdiv_u` (R18, log entry 2). -/
opaque Config.ownFdivUp : Nat → Nat → Bool

/-- The pattern drawn for the `k`-th NaN result, before it is forced to be a quiet NaN (R17 (b), U3, log entry 4). -/
opaque Config.freeNaN : Nat → F32

/-- The choice between enabled ports at the `k`-th step (R66, U17, log entry 5). -/
opaque Config.arbiter : Nat → Nat

/-! ### The spec's example configurations (R9) -/

/-- `CFG-A` of R9. -/
def Config.cfgA : Config where
  sampleRate := 44100
  block := 16
  rampTimeMs := 10
  fLimitNum := 22050
  fLimitDen := 1
  ownOsc := [0, 0]
  ownEnv := [0]
  mixers := [{ owner := 0, gainInit := [0#32, 0#32] }]
  channels := [{ mode := .cell, prod := 0, cons := 0 }]
  nPort := 1
  sineImpl := .reference
  fmulImpl := .reference
  faddImpl := .reference
  fdivImpl := .reference

/-- `CFG-T` of R9. -/
def Config.cfgT : Config where
  sampleRate := 4000
  block := 4
  rampTimeMs := 1
  fLimitNum := 2000
  fLimitDen := 1
  ownOsc := [0, 0]
  ownEnv := [0]
  mixers := [{ owner := 0, gainInit := [0#32, 0#32] }]
  channels := [{ mode := .cell, prod := 0, cons := 0 }, { mode := .rdv, prod := 0, cons := 1 }]
  nPort := 2
  sineImpl := .reference
  fmulImpl := .reference
  faddImpl := .reference
  fdivImpl := .reference

end Sys2Proof
end

