-- ==== Sys2Proof/Machine/State.lean ====
section
/-!
DEFINITION. The state of the block (spec 10_state.md R20), the word streams of its ports (20_memory.md R62,
10_state.md R32), the reasons a step can stop, and the state after reset (10_state.md R33).
-/

namespace Sys2Proof.Machine

/-- `ST[e]`, the envelope stage (R25). -/
inductive Stage where
  | idle
  | attacking
  | sustaining
  | releasing
deriving DecidableEq, Repr

/-- One oscillator: `POS[o]` and `INC[o]` (R23). -/
structure OscState where
  pos : Word
  inc : Word
deriving DecidableEq, Repr

/-- One envelope: `ST[e]` and `EPOS[e]` (R25). -/
structure EnvState where
  stage : Stage
  epos : Word
deriving DecidableEq, Repr

/-- One channel: `SLOT[c]`, `POPEN[c]`, `COPEN[c]` (R28). -/
structure ChanState where
  slot : Option Block
  popen : Bool
  copen : Bool
deriving DecidableEq, Repr

/-- The seven faults of the block (60_exceptions.md R231). They are not stops of the model: taking one is a next state
(`Machine.takeFault`, R240). -/
inductive FaultCode where
  | illegalCmd
  | badInstance
  | mixIndex
  | cellEmptyRead
  | cellOverwrite
  | owner
  | channelMisuse
deriving DecidableEq, Repr

/-- THE STATE OF THE BLOCK: that of R20 with the port streams beside it. It holds no configuration: R5 makes that an
argument of the step function (`stepWith`). The last three fields are the model's own (log entries 4, 5, 11). -/
structure BlockState where
  /-- the words sent to each port and not yet taken by the block, head first (R32 (a), R62, R86) -/
  cmdIn : List (List Word)
  /-- the words the block has sent on each port, oldest first (R62, R87) -/
  respOut : List (List Word)
  /-- `POS`, `INC` -/
  oscs : List OscState
  /-- `ST`, `EPOS` -/
  envs : List EnvState
  /-- `GAIN[m][i]` -/
  gains : List (List F32)
  /-- `SLOT`, `POPEN`, `COPEN` -/
  chans : List ChanState
  /-- `FAULT`, 0 when no fault has happened (R30) -/
  fault : BitVec 8
  /-- `FPORT` (R30) -/
  fport : BitVec 8
  /-- `FCMD` (R30) -/
  fcmd : Word
  /-- the port whose command is being executed, the `port` of R13 (log entry 11) -/
  port : Nat
  /-- how many steps have chosen a port; it indexes the free choice `Config.arbiter` (log entry 5) -/
  arbTurn : Nat
  /-- how many NaN patterns have been drawn; it indexes the free value `Config.freeNaN` (log entry 4) -/
  nanDraws : Nat
deriving DecidableEq, Repr

/-- What the host's one-argument step is given: the two arguments of `stepWith`, the state of a block and beside it the
configuration record the block was built with (R5, R6, log entry 1). -/
structure State extends BlockState where
  /-- the argument `cfg` of the step function (R5); `step` hands it on and no next state has another -/
  cfg : Config
deriving DecidableEq, Repr

/-- A block's state together with the configuration the block was built with. -/
def BlockState.under (c : Config) (b : BlockState) : State := { b with cfg := c }

/-- Situations to which the spec gives NO step ("stuck": 93_implementation_defined.md U14, U15). All are safe: the
model stops where the block waits for its agents, and shows no behaviour of its own (log entry 7). -/
inductive Fault where
  /-- Raised by `HCH.PUSH` and `HCH.POP` on an `RDV` channel while their hold condition is not met (R193, R195, R272).
  The step function never chooses such a port while another one is enabled. -/
  | held
  /-- Raised by a command that passes every check but whose payload words have not all arrived (R86). -/
  | payloadIncomplete
  /-- Raised when the port named has no word waiting (R86). -/
  | noCommand
  /-- Raised by `step` when no port has an enabled head command: the block waits for its agents (R66, R275). -/
  | noEnabledPort
deriving DecidableEq, Repr

/-- Reasons the model gives no meaning. -/
inductive Refusal where
  /-- Raised by an arm of `exec` whose instruction has no meaning yet; none is left in this model. Safe. -/
  | notModelled (mnemonic : String)
  /-- Raised by `step` when `CONFIG_OK` is false: such a block has no reset state and executes no command
  (70_reset_and_hazards.md R262, U16). Safe. -/
  | configInvalid
deriving DecidableEq, Repr

/-- The state after reset of a block with configuration `c` (R33, R260): silent oscillators, idle envelopes, gains at
`MIX_GAIN_INIT`, empty channels with both sides connected, no fault, no pending word. -/
def BlockState.resetWith (c : Config) : BlockState where
  cmdIn := List.replicate c.nPort []
  respOut := List.replicate c.nPort []
  oscs := c.ownOsc.map fun _ => { pos := 0#32, inc := 0#32 }
  envs := c.ownEnv.map fun _ => { stage := .idle, epos := 0#32 }
  gains := c.mixers.map fun m => m.gainInit
  chans := c.channels.map fun _ => { slot := none, popen := true, copen := true }
  fault := 0#8
  fport := 0#8
  fcmd := 0#32
  port := 0
  arbTurn := 0
  nanDraws := 0

/-- The same beside its configuration. -/
def State.resetWith (c : Config) : State := (BlockState.resetWith c).under c

/-- The machine right after reset. The spec fixes every field as a function of the configuration; the configuration
taken here is the spec's example `CFG-T` of R9 (DESIGN CHOICE, log entry 1). -/
def State.reset : State := State.resetWith Config.cfgT

end Sys2Proof.Machine
end

