-- ==== Sys2Proof/Machine/Float.lean ====
section
/-!
DEFINITION. Binary32 arithmetic: the multiplier, the adder and the envelope quotient (spec 00_scope.md R16 to R18).

Every computation is exact on natural numbers first and is narrowed once, by `roundMag`. A magnitude is held as an
integer multiple of `2^-150`; `2^-149` is the smallest subnormal. An inexact result lies between two neighbouring
binary32 values; the reference picks the nearest, ties to even, and an implementation's own function picks either one
(R17 (c), R18, log entry 2).
-/

namespace Sys2Proof.Machine

/-- Sign bit, bit 31 (R11). -/
def f32Neg (x : F32) : Bool := decide (2 ^ 31 ≤ x.toNat)
/-- Exponent field, bits 30:23 (R11). -/
def f32Exp (x : F32) : Nat := x.toNat / 2 ^ 23 % 2 ^ 8
/-- Fraction field, bits 22:0 (R11). -/
def f32Frac (x : F32) : Nat := x.toNat % 2 ^ 23

def f32IsFinite (x : F32) : Bool := decide (f32Exp x ≠ 255)
def f32IsNaN (x : F32) : Bool := decide (f32Exp x = 255) && decide (f32Frac x ≠ 0)
def f32IsInf (x : F32) : Bool := decide (f32Exp x = 255) && decide (f32Frac x = 0)

/-- `|real(x)| * 2^150` for a finite `x`; subnormals are kept (R17). -/
def f32Mag (x : F32) : Nat :=
  if f32Exp x = 0 then f32Frac x * 2 else (2 ^ 23 + f32Frac x) * 2 ^ f32Exp x

/-- `real(x) * 2^150` for a finite `x` (R11). -/
def f32Val (x : F32) : Int := if f32Neg x then -(f32Mag x : Int) else f32Mag x

/-- The pattern of a sign and a magnitude pattern (bits 30:0). -/
def f32Pack (neg : Bool) (mag : Nat) : F32 := BitVec.ofNat 32 (mag + if neg then 2 ^ 31 else 0)

/-- The magnitude pattern of infinity. -/
def infMag : Nat := 0x7F800000

/-- For the positive rational `num / den`: the magnitude pattern of the largest binary32 value not above it (exponents
taken as unbounded above), and the remainder and divisor that say where between it and the next one the rational lies. -/
def bracket (num den : Nat) : Nat × Nat × Nat :=
  let shift := Nat.log2 (num * 2 ^ 149 / den) - 23
  let d := den * 2 ^ shift
  (num * 2 ^ 149 / d + shift * 2 ^ 23, num * 2 ^ 149 % d, d)

/-- Whether the next magnitude pattern is taken. Never for an exact result (R17 (a)); the reference rounds to nearest,
ties to even; an own function decides by `ownUp` (R17 (c)). -/
def roundsUp (impl : Impl) (ownUp : Bool) (low rem d : Nat) : Bool :=
  if rem = 0 then false
  else match impl with
    | .reference => decide (d < 2 * rem) || (decide (2 * rem = d) && decide (low % 2 = 1))
    | .own => ownUp

/-- Narrow the rational `num / den` to a binary32 magnitude pattern. A rounded value above the largest finite one is
infinity (R17 (c), log entry 10). -/
def roundMag (impl : Impl) (ownUp : Bool) (num den : Nat) : Nat :=
  let (low, rem, d) := bracket num den
  min (if roundsUp impl ownUp low rem d then low + 1 else low) infMag

/-- The `k`-th NaN result: some quiet NaN, the exponent all ones and fraction bit 22 set (R17 (b), U3). -/
def nanResult (k : Nat) : F32 × Nat := (Config.freeNaN k ||| 0x7FC00000#32, k + 1)

/-- `fmul(a, b)` (R17). `k` counts the NaN patterns drawn so far; the count after the operation is returned. -/
def fmul (c : Config) (k : Nat) (a b : F32) : F32 × Nat :=
  if f32IsNaN a || f32IsNaN b then nanResult k
  else if f32IsInf a || f32IsInf b then
    -- (b) infinity * 0 is invalid; (d) otherwise the infinity with the sign of the product
    if (f32IsFinite a && decide (f32Mag a = 0)) || (f32IsFinite b && decide (f32Mag b = 0)) then nanResult k
    else (f32Pack (f32Neg a != f32Neg b) infMag, k)
  else
    (f32Pack (f32Neg a != f32Neg b)
      (roundMag c.fmulImpl (Config.ownFmulUp a b) (f32Mag a * f32Mag b) (2 ^ 300)), k)

/-- `fadd(a, b)` (R17), with the count of NaN draws as in `fmul`. -/
def fadd (c : Config) (k : Nat) (a b : F32) : F32 × Nat :=
  if f32IsNaN a || f32IsNaN b then nanResult k
  else if f32IsInf a then
    -- (b) infinity - infinity is invalid; (d) otherwise the infinite operand
    if f32IsInf b && (f32Neg a != f32Neg b) then nanResult k else (a, k)
  else if f32IsInf b then (b, k)
  else
    let sum := f32Val a + f32Val b
    if sum = 0 then (f32Pack (f32Neg a && f32Neg b) 0, k)
    else
      (f32Pack (decide (sum < 0))
        (roundMag c.faddImpl (Config.ownFaddUp a b) sum.natAbs (2 ^ 150)), k)

/-- `fdiv_u(p, r)`, the envelope gain (R18): exact `+0.0` at `p = 0` and exact `1.0` at `p = r`. -/
def fdivU (c : Config) (p r : Nat) : F32 :=
  f32Pack false (roundMag c.fdivImpl (Config.ownFdivUp p r) p r)

end Sys2Proof.Machine
end

