-- ==== Sys2Proof/Machine/Flags.lean ====
section
/-!
DEFINITION. What stands in the place of flags. The block has no arithmetic flags and no command writes one
(spec 10_state.md R31); what a program observes instead are status words (30_encoding.md R87), the stage code
(41_envelope.md R147), the channel status word (43_handoff.md R198) and the fault record (44_system.md R221).
-/

namespace Sys2Proof.Machine

/-- The code of a fault (60_exceptions.md R231). -/
def FaultCode.code : FaultCode → Nat
  | .illegalCmd => 1
  | .badInstance => 2
  | .mixIndex => 3
  | .cellEmptyRead => 4
  | .cellOverwrite => 5
  | .owner => 6
  | .channelMisuse => 7

/-- The outcomes a response reports (R87). -/
inductive Status where
  | ok
  | eos
  | disconnected
  | fault (c : FaultCode)
  | halted
deriving DecidableEq, Repr

/-- The status word: its code in bits 7:0, zero above (R87). -/
def Status.word : Status → Word
  | .ok => 0x00#32
  | .eos => 0x01#32
  | .disconnected => 0x02#32
  | .fault c => BitVec.ofNat 32 (0x80 + c.code)
  | .halted => 0xFF#32

/-- The stage code of `ENV.RDST` (R25, R147). -/
def stageCode : Stage → Word
  | .idle => 0#32
  | .attacking => 1#32
  | .sustaining => 2#32
  | .releasing => 3#32

/-- One bit of a status word. -/
def bitAt (b : Bool) (i : Nat) : Nat := if b then 2 ^ i else 0

/-- The channel status word of `HCH.RDST`: FULL, POPEN, COPEN, mode in bits 0 to 3 (R198). -/
def channelWord (mode : ChMode) (ch : ChanState) : Word :=
  BitVec.ofNat 32
    (bitAt ch.slot.isSome 0 + bitAt ch.popen 1 + bitAt ch.copen 2 + bitAt (decide (mode = .rdv)) 3)

/-- The first data word of `SYS.RDFLT`: `FAULT` in bits 7:0, `FPORT` in bits 15:8 (R221). -/
def faultWord (s : State) : Word := BitVec.ofNat 32 (s.fault.toNat + s.fport.toNat * 2 ^ 8)

/-- The block is halted while `FAULT` is not 0 (R241). -/
def halted (s : State) : Bool := decide (s.fault ≠ 0#8)

end Sys2Proof.Machine
end

