-- ==== Sys2Proof/Syntax.lean ====
section
/-!
DEFINITION. The 21 commands of the block (spec 30_encoding.md R90), one constructor per row of the opcode table.

A constructor carries what the command WORD carries: the instance index `INST` and, for the two commands that
have one, the mixer input index `IDX`. Data operands are payload words that follow the command word on the port
(R97); how many there are depends on the configuration (R85), so they are read by the machine, not by the decoder.
-/

namespace Sys2Proof

/-- A command of R90. Arguments `o`, `e`, `m`, `c` are the instance index `INST` of an oscillator, envelope,
mixer or channel (R83), `i` is the mixer input index `IDX` (R84); both are plain indices. -/
inductive Instr where
  | oscSetf   (o : Nat)     -- OSC.SETF o, f
  | oscNext   (o : Nat)     -- OSC.NEXT o
  | oscRender (o : Nat)     -- OSC.RENDER o
  | oscRdst   (o : Nat)     -- OSC.RDST o
  | envNon    (e : Nat)     -- ENV.NON e
  | envNoff   (e : Nat)     -- ENV.NOFF e
  | envProc   (e : Nat)     -- ENV.PROC e, x
  | envProcb  (e : Nat)     -- ENV.PROCB e, blk
  | envRdst   (e : Nat)     -- ENV.RDST e
  | mixSetlvl (m i : Nat)   -- MIX.SETLVL m, i, g
  | mixMix1   (m : Nat)     -- MIX.MIX1 m, x0, ...
  | mixRender (m : Nat)     -- MIX.RENDER m, blk0, ...
  | mixRdlvl  (m i : Nat)   -- MIX.RDLVL m, i
  | hchPush   (c : Nat)     -- HCH.PUSH c, blk
  | hchPop    (c : Nat)     -- HCH.POP c
  | hchClosep (c : Nat)     -- HCH.CLOSEP c
  | hchClosec (c : Nat)     -- HCH.CLOSEC c
  | hchRdst   (c : Nat)     -- HCH.RDST c
  | sysNop                  -- SYS.NOP
  | sysRdflt                -- SYS.RDFLT
  | sysRdcfg                -- SYS.RDCFG
deriving DecidableEq, Repr

/-- The mnemonic of R90. -/
def Instr.mnemonic : Instr → String
  | .oscSetf _ => "OSC.SETF"
  | .oscNext _ => "OSC.NEXT"
  | .oscRender _ => "OSC.RENDER"
  | .oscRdst _ => "OSC.RDST"
  | .envNon _ => "ENV.NON"
  | .envNoff _ => "ENV.NOFF"
  | .envProc _ => "ENV.PROC"
  | .envProcb _ => "ENV.PROCB"
  | .envRdst _ => "ENV.RDST"
  | .mixSetlvl _ _ => "MIX.SETLVL"
  | .mixMix1 _ => "MIX.MIX1"
  | .mixRender _ => "MIX.RENDER"
  | .mixRdlvl _ _ => "MIX.RDLVL"
  | .hchPush _ => "HCH.PUSH"
  | .hchPop _ => "HCH.POP"
  | .hchClosep _ => "HCH.CLOSEP"
  | .hchClosec _ => "HCH.CLOSEC"
  | .hchRdst _ => "HCH.RDST"
  | .sysNop => "SYS.NOP"
  | .sysRdflt => "SYS.RDFLT"
  | .sysRdcfg => "SYS.RDCFG"

end Sys2Proof
end

