-- ==== Sys2Proof/WellFormed.lean ====
section
/-!
DEFINITION. Which terms of `Instr` a command word can spell: `INST` and `IDX` are unsigned 8-bit fields
(spec 30_encoding.md R83, R84). Whether the named instance EXISTS depends on the configuration and is not part of
decoding (R92).
-/

namespace Sys2Proof

/-- Every index of the command fits its 8-bit field (R83, R84). -/
def Instr.wellFormed : Instr → Bool
  | .oscSetf o | .oscNext o | .oscRender o | .oscRdst o => decide (o < 256)
  | .envNon e | .envNoff e | .envProc e | .envProcb e | .envRdst e => decide (e < 256)
  | .mixSetlvl m i => decide (m < 256) && decide (i < 256)
  | .mixMix1 m => decide (m < 256)
  | .mixRender m => decide (m < 256)
  | .mixRdlvl m i => decide (m < 256) && decide (i < 256)
  | .hchPush c | .hchPop c | .hchClosep c | .hchClosec c | .hchRdst c => decide (c < 256)
  | .sysNop | .sysRdflt | .sysRdcfg => true

end Sys2Proof
end

