-- ==== Sys2Proof/Decode.lean ====
section
/-!
DEFINITION. The command word (spec 30_encoding.md R80 to R84), the decoder (R90, R91), the encoder (R90) and the
opcode table itself as mask and match rows (R90).
-/

namespace Sys2Proof

/-- Why a word is illegal (R91, R232): the machine faults `ILLEGAL_CMD` on each of them. -/
inductive DecodeReject where
  /-- `RSV` is not zero -/
  | rsvNonzero
  /-- `IDX` is not zero in a command that has no index operand -/
  | idxNonzero
  /-- `INST` is not zero in a `SYS` command -/
  | instNonzero
  /-- `OP` is not listed for its `UNIT` -/
  | unlistedOp
  /-- `UNIT` is 0x4 to 0xE -/
  | reservedUnit
deriving DecidableEq, Repr

/-- `w[hi:lo]` as an unsigned integer (R10). -/
def cmdField (w : Word) (hi lo : Nat) : Nat := w.toNat / 2 ^ lo % 2 ^ (hi + 1 - lo)

/-- `UNIT`, bits 31:28 (R80). -/
def fieldUnit (w : Word) : Nat := cmdField w 31 28
/-- `OP`, bits 27:24 (R80). -/
def fieldOp (w : Word) : Nat := cmdField w 27 24
/-- `INST`, bits 23:16 (R80). -/
def fieldInst (w : Word) : Nat := cmdField w 23 16
/-- `IDX`, bits 15:8 (R80). -/
def fieldIdx (w : Word) : Nat := cmdField w 15 8
/-- `RSV`, bits 7:0 (R80). -/
def fieldRsv (w : Word) : Nat := cmdField w 7 0

/-- A command without an index operand: `IDX` must be zero (R84). -/
def withoutIdx (w : Word) (i : Instr) : Except DecodeReject Instr :=
  if fieldIdx w = 0 then .ok i else .error .idxNonzero

/-- A `SYS` command: `INST` and `IDX` must be zero (R83, R84). -/
def withoutInst (w : Word) (i : Instr) : Except DecodeReject Instr :=
  if fieldInst w = 0 then withoutIdx w i else .error .instNonzero

/-- The `OSC` operations (R90). -/
def decodeOsc (w : Word) : Except DecodeReject Instr :=
  match fieldOp w with
  | 0 => withoutIdx w (.oscSetf (fieldInst w))
  | 1 => withoutIdx w (.oscNext (fieldInst w))
  | 2 => withoutIdx w (.oscRender (fieldInst w))
  | 3 => withoutIdx w (.oscRdst (fieldInst w))
  | _ => .error .unlistedOp

/-- The `ENV` operations (R90). -/
def decodeEnv (w : Word) : Except DecodeReject Instr :=
  match fieldOp w with
  | 0 => withoutIdx w (.envNon (fieldInst w))
  | 1 => withoutIdx w (.envNoff (fieldInst w))
  | 2 => withoutIdx w (.envProc (fieldInst w))
  | 3 => withoutIdx w (.envProcb (fieldInst w))
  | 4 => withoutIdx w (.envRdst (fieldInst w))
  | _ => .error .unlistedOp

/-- The `MIX` operations (R90); two of them use `IDX` (R84). -/
def decodeMix (w : Word) : Except DecodeReject Instr :=
  match fieldOp w with
  | 0 => .ok (.mixSetlvl (fieldInst w) (fieldIdx w))
  | 1 => withoutIdx w (.mixMix1 (fieldInst w))
  | 2 => withoutIdx w (.mixRender (fieldInst w))
  | 3 => .ok (.mixRdlvl (fieldInst w) (fieldIdx w))
  | _ => .error .unlistedOp

/-- The `HCH` operations (R90). -/
def decodeHch (w : Word) : Except DecodeReject Instr :=
  match fieldOp w with
  | 0 => withoutIdx w (.hchPush (fieldInst w))
  | 1 => withoutIdx w (.hchPop (fieldInst w))
  | 2 => withoutIdx w (.hchClosep (fieldInst w))
  | 3 => withoutIdx w (.hchClosec (fieldInst w))
  | 4 => withoutIdx w (.hchRdst (fieldInst w))
  | _ => .error .unlistedOp

/-- The `SYS` operations (R90). -/
def decodeSys (w : Word) : Except DecodeReject Instr :=
  match fieldOp w with
  | 0 => withoutInst w .sysNop
  | 1 => withoutInst w .sysRdflt
  | 2 => withoutInst w .sysRdcfg
  | _ => .error .unlistedOp

/-- The decoder: total, each word is exactly one command or is rejected by name (R81, R90, R91). -/
def decode (w : Word) : Except DecodeReject Instr :=
  if fieldRsv w ≠ 0 then .error .rsvNonzero
  else match fieldUnit w with
    | 0x0 => decodeOsc w
    | 0x1 => decodeEnv w
    | 0x2 => decodeMix w
    | 0x3 => decodeHch w
    | 0xF => decodeSys w
    | _ => .error .reservedUnit

/-- `UNIT ## OP ## INST ## IDX ## RSV` with `RSV` zero (R80). -/
def cmdWord (unit op inst idx : Nat) : Word :=
  BitVec.ofNat 32 (unit * 2 ^ 28 + op * 2 ^ 24 + inst * 2 ^ 16 + idx * 2 ^ 8)

/-- The command word of an instruction (R90). -/
def encode : Instr → Word
  | .oscSetf o => cmdWord 0x0 0 o 0
  | .oscNext o => cmdWord 0x0 1 o 0
  | .oscRender o => cmdWord 0x0 2 o 0
  | .oscRdst o => cmdWord 0x0 3 o 0
  | .envNon e => cmdWord 0x1 0 e 0
  | .envNoff e => cmdWord 0x1 1 e 0
  | .envProc e => cmdWord 0x1 2 e 0
  | .envProcb e => cmdWord 0x1 3 e 0
  | .envRdst e => cmdWord 0x1 4 e 0
  | .mixSetlvl m i => cmdWord 0x2 0 m i
  | .mixMix1 m => cmdWord 0x2 1 m 0
  | .mixRender m => cmdWord 0x2 2 m 0
  | .mixRdlvl m i => cmdWord 0x2 3 m i
  | .hchPush c => cmdWord 0x3 0 c 0
  | .hchPop c => cmdWord 0x3 1 c 0
  | .hchClosep c => cmdWord 0x3 2 c 0
  | .hchClosec c => cmdWord 0x3 3 c 0
  | .hchRdst c => cmdWord 0x3 4 c 0
  | .sysNop => cmdWord 0xF 0 0 0
  | .sysRdflt => cmdWord 0xF 1 0 0
  | .sysRdcfg => cmdWord 0xF 2 0 0

/-- The instruction an opcode-table word stands for. The command word is one 32-bit word, so the bits of `w` above
bit 31 are payload and play no part in decoding (R80, R85); a row shorter than one word is none of the block's. -/
def decodeTableWord (nbits w : Nat) : Option Instr :=
  if nbits < 32 then none
  else match decode (BitVec.ofNat 32 w) with
    | .ok i => some i
    | .error _ => none

/-- One row of the opcode map (R90): `mask` selects the bits that must equal `pattern`. -/
structure OpcodeRow where
  mnemonic : String
  pattern : Word
  mask : Word
deriving DecidableEq, Repr

/-- The opcode map of R90 as the spec prints it. -/
def opcodeRows : List OpcodeRow :=
  [ ⟨"OSC.SETF",   0x00000000#32, 0xFF00FFFF#32⟩,
    ⟨"OSC.NEXT",   0x01000000#32, 0xFF00FFFF#32⟩,
    ⟨"OSC.RENDER", 0x02000000#32, 0xFF00FFFF#32⟩,
    ⟨"OSC.RDST",   0x03000000#32, 0xFF00FFFF#32⟩,
    ⟨"ENV.NON",    0x10000000#32, 0xFF00FFFF#32⟩,
    ⟨"ENV.NOFF",   0x11000000#32, 0xFF00FFFF#32⟩,
    ⟨"ENV.PROC",   0x12000000#32, 0xFF00FFFF#32⟩,
    ⟨"ENV.PROCB",  0x13000000#32, 0xFF00FFFF#32⟩,
    ⟨"ENV.RDST",   0x14000000#32, 0xFF00FFFF#32⟩,
    ⟨"MIX.SETLVL", 0x20000000#32, 0xFF0000FF#32⟩,
    ⟨"MIX.MIX1",   0x21000000#32, 0xFF00FFFF#32⟩,
    ⟨"MIX.RENDER", 0x22000000#32, 0xFF00FFFF#32⟩,
    ⟨"MIX.RDLVL",  0x23000000#32, 0xFF0000FF#32⟩,
    ⟨"HCH.PUSH",   0x30000000#32, 0xFF00FFFF#32⟩,
    ⟨"HCH.POP",    0x31000000#32, 0xFF00FFFF#32⟩,
    ⟨"HCH.CLOSEP", 0x32000000#32, 0xFF00FFFF#32⟩,
    ⟨"HCH.CLOSEC", 0x33000000#32, 0xFF00FFFF#32⟩,
    ⟨"HCH.RDST",   0x34000000#32, 0xFF00FFFF#32⟩,
    ⟨"SYS.NOP",    0xF0000000#32, 0xFFFFFFFF#32⟩,
    ⟨"SYS.RDFLT",  0xF1000000#32, 0xFFFFFFFF#32⟩,
    ⟨"SYS.RDCFG",  0xF2000000#32, 0xFFFFFFFF#32⟩ ]

/-- `cmd & mask = match` (R90). -/
def OpcodeRow.accepts (r : OpcodeRow) (w : Word) : Bool := (w &&& r.mask) == r.pattern

end Sys2Proof
end

