-- ==== Sys2Proof/Machine/Operands.lean ====
section
/-!
DEFINITION. Derived configuration values and `CONFIG_OK` (spec 00_scope.md R6, R7), payload and response lengths
(30_encoding.md R85) and the assembly of operands from payload words (R86, R88, R89, R97).
-/

namespace Sys2Proof.Machine

/-- `N_OSC` -/
def nOsc (c : Config) : Nat := c.ownOsc.length
/-- `N_ENV` -/
def nEnv (c : Config) : Nat := c.ownEnv.length
/-- `N_MIX` -/
def nMix (c : Config) : Nat := c.mixers.length
/-- `N_CH` -/
def nCh (c : Config) : Nat := c.channels.length

/-- `N_SRC[m]`; 0 for a mixer that does not exist. -/
def nSrc (c : Config) (m : Nat) : Nat :=
  match c.mixers[m]? with
  | some x => x.gainInit.length
  | none => 0

/-- `RAMP_LEN = floor(RAMP_TIME_MS * SAMPLE_RATE / 1000)` (R6, R19 (d)). -/
def rampLen (c : Config) : Nat := c.rampTimeMs * c.sampleRate / 1000

/-- One mixer's fields are inside their legal ranges (R6). -/
def mixerOk (c : Config) (m : MixerCfg) : Bool :=
  decide (m.owner < c.nPort) && decide (1 ≤ m.gainInit.length) && decide (m.gainInit.length ≤ 256)

/-- One channel's fields are inside their legal ranges, and a cell has one port on both sides (R6, R7). -/
def channelOk (c : Config) (ch : ChannelCfg) : Bool :=
  decide (ch.prod < c.nPort) && decide (ch.cons < c.nPort) &&
    match ch.mode with
    | .cell => decide (ch.prod = ch.cons)
    | .rdv => true

/-- `CONFIG_OK(cfg)` (R7). The properties R7 asks of `SINE`, `fmul` and `fadd` hold by construction. -/
def configOk (c : Config) : Bool :=
  decide
    (1 ≤ c.sampleRate ∧ c.sampleRate < 2 ^ 32 ∧
      1 ≤ c.block ∧ c.block ≤ 65535 ∧
      c.rampTimeMs < 2 ^ 32 ∧
      1 ≤ rampLen c ∧ rampLen c < 2 ^ 32 ∧
      0 < c.fLimitNum ∧ 0 < c.fLimitDen ∧ 2 * c.fLimitNum ≤ c.sampleRate * c.fLimitDen ∧
      nOsc c ≤ 255 ∧ nEnv c ≤ 255 ∧ nMix c ≤ 255 ∧ nCh c ≤ 255 ∧
      1 ≤ nOsc c + nEnv c + nMix c + nCh c ∧
      1 ≤ c.nPort ∧ c.nPort ≤ 256 ∧
      (c.ownOsc.all fun p => decide (p < c.nPort)) = true ∧
      (c.ownEnv.all fun p => decide (p < c.nPort)) = true ∧
      c.mixers.all (mixerOk c) = true ∧ c.channels.all (channelOk c) = true)

/-- `plen(cmd)`: how many payload words follow the command word (R85). -/
def plen (c : Config) : Instr → Nat
  | .oscSetf _ => 1
  | .oscNext _ => 0
  | .oscRender _ => 0
  | .oscRdst _ => 0
  | .envNon _ => 0
  | .envNoff _ => 0
  | .envProc _ => 1
  | .envProcb _ => c.block
  | .envRdst _ => 0
  | .mixSetlvl _ _ => 1
  | .mixMix1 m => nSrc c m
  | .mixRender m => nSrc c m * c.block
  | .mixRdlvl _ _ => 0
  | .hchPush _ => c.block
  | .hchPop _ => 0
  | .hchClosep _ => 0
  | .hchClosec _ => 0
  | .hchRdst _ => 0
  | .sysNop => 0
  | .sysRdflt => 0
  | .sysRdcfg => 0

/-- `rlen(cmd)`: how many data words follow the status word `OK` (R85). -/
def rlen (c : Config) : Instr → Nat
  | .oscSetf _ => 0
  | .oscNext _ => 1
  | .oscRender _ => c.block
  | .oscRdst _ => 2
  | .envNon _ => 0
  | .envNoff _ => 0
  | .envProc _ => 1
  | .envProcb _ => c.block
  | .envRdst _ => 3
  | .mixSetlvl _ _ => 0
  | .mixMix1 _ => 1
  | .mixRender _ => c.block
  | .mixRdlvl _ _ => 1
  | .hchPush _ => 0
  | .hchPop _ => c.block
  | .hchClosep _ => 0
  | .hchClosec _ => 0
  | .hchRdst _ => 1
  | .sysNop => 0
  | .sysRdflt => 2
  | .sysRdcfg => 5

/-- `SILENCE`: the block whose every element is `+0.0` (R11). -/
def silence (c : Config) : Block := List.replicate c.block 0#32

/-- `Payload(k)` of a command whose payload is `ws` (R13, R86). -/
def payloadAt (ws : List Word) (k : Nat) : Word := ws.getD k 0#32

/-- Lane `k` of the payload of `MIX.RENDER`: sample `k` of each of `n` sources, `Payload(i * BLOCK + k)` (R89, R175). -/
def lane (ws : List Word) (n block k : Nat) : List F32 :=
  (List.range n).map fun i => payloadAt ws (i * block + k)

end Sys2Proof.Machine
end

