-- ==== Sys2Proof/Machine/Ops.lean ====
section
/-!
DEFINITION. The named operations every command is built from: the port streams (spec 20_memory.md R62, 30_encoding.md
R86, R87), the unit state accessors (10_state.md R20), taking a fault, the refusal of a halted block
(60_exceptions.md R240, R241), the order of the checks (R242), and reset as an event (70_reset_and_hazards.md R260).

There is no return from a fault (R244): `resetEvent` is the only way out of a halt.
-/

namespace Sys2Proof.Machine

/-- The outcome of one command. -/
abbrev Result := Host.Outcome State Fault Refusal

/-- Change the form of a next state; stops stay as they are. -/
def mapNext {σ τ : Type} (f : σ → τ) : Host.Outcome σ Fault Refusal → Host.Outcome τ Fault Refusal
  | .next s => .next (f s)
  | .fault r => .fault r
  | .refused r => .refused r

/-! ### Port streams -/

/-- The words waiting on port `p` (R86). -/
def pending (s : State) (p : Nat) : List Word := s.cmdIn.getD p []

/-- The words that follow the command word on the port being served (R86). -/
def payloadWords (s : State) : List Word := (pending s s.port).drop 1

/-- Take `n` words from the stream of the port being served (R86). -/
def consume (n : Nat) (s : State) : State :=
  { s with cmdIn := s.cmdIn.set s.port ((pending s s.port).drop n) }

/-- Send a response on the port being served (R87). -/
def respond (ws : List Word) (s : State) : State :=
  { s with respOut := s.respOut.set s.port (s.respOut.getD s.port [] ++ ws) }

/-! ### Unit state -/

def osc (s : State) (o : Nat) : OscState := s.oscs.getD o { pos := 0#32, inc := 0#32 }
def setOsc (o : Nat) (v : OscState) (s : State) : State := { s with oscs := s.oscs.set o v }
def env (s : State) (e : Nat) : EnvState := s.envs.getD e { stage := .idle, epos := 0#32 }
def setEnv (e : Nat) (v : EnvState) (s : State) : State := { s with envs := s.envs.set e v }
/-- The gain registers of mixer `m`. -/
def gainsOf (s : State) (m : Nat) : List F32 := s.gains.getD m []
/-- `GAIN[m][i]` -/
def gain (s : State) (m i : Nat) : F32 := (gainsOf s m).getD i 0#32
/-- `GAIN[m][i] <- g` -/
def setGain (m i : Nat) (g : F32) (s : State) : State :=
  { s with gains := s.gains.set m ((gainsOf s m).set i g) }
def chan (s : State) (c : Nat) : ChanState := s.chans.getD c { slot := none, popen := true, copen := true }
def setChan (c : Nat) (v : ChanState) (s : State) : State := { s with chans := s.chans.set c v }
/-- `CH_MODE[c]`; a channel that does not exist is never asked for (R233). -/
def chMode (c : Config) (ch : Nat) : ChMode :=
  match c.channels[ch]? with
  | some x => x.mode
  | none => .cell
/-- Record that NaN patterns have been drawn up to `k` (R17 (b), log entry 4). -/
def setDraws (k : Nat) (s : State) : State := { s with nanDraws := k }

/-! ### Existence and ownership -/

/-- `INST` is below the configured count of its unit kind (R83, R233). -/
def instanceExists (c : Config) : Instr → Bool
  | .oscSetf o => decide (o < nOsc c)
  | .oscNext o => decide (o < nOsc c)
  | .oscRender o => decide (o < nOsc c)
  | .oscRdst o => decide (o < nOsc c)
  | .envNon e => decide (e < nEnv c)
  | .envNoff e => decide (e < nEnv c)
  | .envProc e => decide (e < nEnv c)
  | .envProcb e => decide (e < nEnv c)
  | .envRdst e => decide (e < nEnv c)
  | .mixSetlvl m _ => decide (m < nMix c)
  | .mixMix1 m => decide (m < nMix c)
  | .mixRender m => decide (m < nMix c)
  | .mixRdlvl m _ => decide (m < nMix c)
  | .hchPush ch => decide (ch < nCh c)
  | .hchPop ch => decide (ch < nCh c)
  | .hchClosep ch => decide (ch < nCh c)
  | .hchClosec ch => decide (ch < nCh c)
  | .hchRdst ch => decide (ch < nCh c)
  | .sysNop => true
  | .sysRdflt => true
  | .sysRdcfg => true

def ownsOsc (c : Config) (o port : Nat) : Bool := decide (c.ownOsc[o]? = some port)
def ownsEnv (c : Config) (e port : Nat) : Bool := decide (c.ownEnv[e]? = some port)
def ownsMix (c : Config) (m port : Nat) : Bool := decide (c.mixers[m]?.map (·.owner) = some port)
def isProducer (c : Config) (ch port : Nat) : Bool := decide (c.channels[ch]?.map (·.prod) = some port)
def isConsumer (c : Config) (ch port : Nat) : Bool := decide (c.channels[ch]?.map (·.cons) = some port)

/-- The port owns the instance the command names (R8, R236); `SYS` commands have no owner. -/
def portOwns (c : Config) (port : Nat) : Instr → Bool
  | .oscSetf o => ownsOsc c o port
  | .oscNext o => ownsOsc c o port
  | .oscRender o => ownsOsc c o port
  | .oscRdst o => ownsOsc c o port
  | .envNon e => ownsEnv c e port
  | .envNoff e => ownsEnv c e port
  | .envProc e => ownsEnv c e port
  | .envProcb e => ownsEnv c e port
  | .envRdst e => ownsEnv c e port
  | .mixSetlvl m _ => ownsMix c m port
  | .mixMix1 m => ownsMix c m port
  | .mixRender m => ownsMix c m port
  | .mixRdlvl m _ => ownsMix c m port
  | .hchPush ch => isProducer c ch port
  | .hchPop ch => isConsumer c ch port
  | .hchClosep ch => isProducer c ch port
  | .hchClosec ch => isConsumer c ch port
  | .hchRdst ch => isProducer c ch port || isConsumer c ch port
  | .sysNop => true
  | .sysRdflt => true
  | .sysRdcfg => true

/-! ### Faults and halt -/

/-- TAKING A FAULT (R240): the record is written, the status word `0x80 + code` is sent, the one command word is
consumed and nothing else changes. There is no vector, no mode change and nothing saved for a handler. -/
def takeFault (code : FaultCode) (cmd : Word) (s : State) : State :=
  respond [(Status.fault code).word]
    (consume 1 { s with fault := BitVec.ofNat 8 code.code, fport := BitVec.ofNat 8 s.port, fcmd := cmd })

/-- A halted block answers a word with `HALTED` and consumes that one word (R241). -/
def refuseHalted (s : State) : State := respond [Status.halted.word] (consume 1 s)

/-- Reset as an event (R260): every field takes its reset value, every pending word and every command in progress is
discarded. The configuration is its argument (R5). Responses already sent have left the block, and the two counters of
free draws go on, so that later draws are fresh. No step takes it: a run contains no reset (U19, log entry 9). -/
def resetBlock (c : Config) (b : BlockState) : BlockState :=
  { BlockState.resetWith c with respOut := b.respOut, arbTurn := b.arbTurn, nanDraws := b.nanDraws }

/-- The same on a block beside its configuration, which stays (R5, R260). -/
def resetEvent (s : State) : State := (resetBlock s.cfg s.toBlockState).under s.cfg

/-! ### One command -/

/-- Checks (1), (3) and (4) of R242 before a command's own part: halted, instance, owner. Check (2) is the decoder's. -/
def checked (i : Instr) (s : State) (run : Result) : Result :=
  if halted s then .next (refuseHalted s)
  else if instanceExists s.cfg i = false then .next (takeFault .badInstance (encode i) s)
  else if portOwns s.cfg s.port i = false then .next (takeFault .owner (encode i) s)
  else run

/-- Execution, check (7) of R242: the command has a step only when its `plen` payload words are there (R86); `run` is
given exactly those words. -/
def withPayload (i : Instr) (s : State) (run : List Word → State) : Result :=
  if (payloadWords s).length < plen s.cfg i then .fault .payloadIncomplete
  else .next (run ((payloadWords s).take (plen s.cfg i)))

/-- A completed command: its words leave the port's stream, then its response is sent (R86, R87). -/
def complete (i : Instr) (st : Status) (data : List Word) (s : State) : State :=
  respond (st.word :: data) (consume (1 + plen s.cfg i) s)

end Sys2Proof.Machine
end

