-- ==== Sys2Proof/Machine/Envelope.lean ====
section
/-!
DEFINITION. The Envelope commands (spec 41_envelope.md).
-/

namespace Sys2Proof.Machine

/-- `ENV_STEP` (R144), with `r = RAMP_LEN`: the stage changes in the step in which the position reaches its end, and
the position saturates at both ends (R19 (c)). -/
def envStep (r : Nat) (v : EnvState) : EnvState :=
  match v.stage with
  | .idle => v
  | .sustaining => v
  | .attacking =>
    let p := min (v.epos.toNat + 1) r
    { stage := if p = r then .sustaining else .attacking, epos := BitVec.ofNat 32 p }
  | .releasing =>
    let p := v.epos.toNat - 1
    { stage := if p = 0 then .idle else .releasing, epos := BitVec.ofNat 32 p }

/-- The gain at the current position (R141). -/
def envGain (c : Config) (v : EnvState) : F32 := fdivU c v.epos.toNat (rampLen c)

/-- One sample: advance the state, then multiply by the gain at the NEW position (R145). -/
def envProc (c : Config) (k : Nat) (x : F32) (v : EnvState) : (F32 × Nat) × EnvState :=
  let v1 := envStep (rampLen c) v
  (fmul c k x (envGain c v1), v1)

/-- Samples in order (R146). -/
def envProcs (c : Config) : Nat → List F32 → EnvState → (List F32 × Nat) × EnvState
  | k, [], v => (([], k), v)
  | k, x :: xs, v =>
    let ((y, k1), v1) := envProc c k x v
    let ((ys, k2), v2) := envProcs c k1 xs v1
    ((y :: ys, k2), v2)

/-- The note-on event (R142): the position is reset only from `Idle`. -/
def envNoteOn (v : EnvState) : EnvState :=
  { stage := .attacking, epos := if v.stage = .idle then 0#32 else v.epos }

/-- The note-off event (R143): the position is not changed. -/
def envNoteOff (v : EnvState) : EnvState := { v with stage := .releasing }

/-- `ENV.NON e` (R142). -/
def execEnvNon (e : Nat) (s : State) : Result :=
  checked (.envNon e) s <| withPayload (.envNon e) s fun _ =>
    complete (.envNon e) .ok [] (setEnv e (envNoteOn (env s e)) s)

/-- `ENV.NOFF e` (R143). -/
def execEnvNoff (e : Nat) (s : State) : Result :=
  checked (.envNoff e) s <| withPayload (.envNoff e) s fun _ =>
    complete (.envNoff e) .ok [] (setEnv e (envNoteOff (env s e)) s)

/-- `ENV.PROC e, x` (R145). -/
def execEnvProc (e : Nat) (s : State) : Result :=
  checked (.envProc e) s <| withPayload (.envProc e) s fun ws =>
    let ((y, k), v) := envProc s.cfg s.nanDraws (payloadAt ws 0) (env s e)
    complete (.envProc e) .ok [y] (setDraws k (setEnv e v s))

/-- `ENV.PROCB e, blk` (R146). -/
def execEnvProcb (e : Nat) (s : State) : Result :=
  checked (.envProcb e) s <| withPayload (.envProcb e) s fun ws =>
    let ((ys, k), v) := envProcs s.cfg s.nanDraws ws (env s e)
    complete (.envProcb e) .ok ys (setDraws k (setEnv e v s))

/-- `ENV.RDST e` (R147). -/
def execEnvRdst (e : Nat) (s : State) : Result :=
  checked (.envRdst e) s <| withPayload (.envRdst e) s fun _ =>
    complete (.envRdst e) .ok
      [stageCode (env s e).stage, (env s e).epos, BitVec.ofNat 32 (rampLen s.cfg)] s

end Sys2Proof.Machine
end

