-- ==== Sys2Proof/Machine/Handoff.lean ====
section
/-!
DEFINITION. The Handoff Channel commands (spec 43_handoff.md) in both modes.
-/

namespace Sys2Proof.Machine

/-- A push holds while the slot is full and the consumer open (R193, R272). -/
def pushHolds (ch : ChanState) : Bool := ch.slot.isSome && ch.copen

/-- A pop holds while the slot is empty and the producer open (R195, R272). -/
def popHolds (ch : ChanState) : Bool := ch.slot.isNone && ch.popen

/-- Store a block in the slot and answer `OK` (R191, R192, R193). -/
def storeBlock (c : Nat) (blk : Block) (s : State) : State :=
  complete (.hchPush c) .ok [] (setChan c { chan s c with slot := some blk } s)

/-- Empty the slot and answer with the block that was in it (R191, R194, R195). -/
def deliverBlock (c : Nat) (blk : Block) (s : State) : State :=
  complete (.hchPop c) .ok blk (setChan c { chan s c with slot := none } s)

/-- `HCH.PUSH` on a cell: a full cell faults (R192). -/
def pushCell (c : Nat) (s : State) : Result :=
  if (chan s c).slot.isSome then .next (takeFault .cellOverwrite (encode (.hchPush c)) s)
  else withPayload (.hchPush c) s fun ws => storeBlock c ws s

/-- `HCH.PUSH` on a rendezvous channel: fault after the producer's own close, hold while full, then drop the block if
the consumer has gone, else store it (R193). -/
def pushRdv (c : Nat) (s : State) : Result :=
  if (chan s c).popen = false then .next (takeFault .channelMisuse (encode (.hchPush c)) s)
  else if pushHolds (chan s c) then .fault .held
  else withPayload (.hchPush c) s fun ws =>
    if (chan s c).copen then storeBlock c ws s
    else complete (.hchPush c) .disconnected [] s

/-- `HCH.POP` on a cell: an empty cell faults (R194). -/
def popCell (c : Nat) (s : State) : Result :=
  match (chan s c).slot with
  | none => .next (takeFault .cellEmptyRead (encode (.hchPop c)) s)
  | some blk => withPayload (.hchPop c) s fun _ => deliverBlock c blk s

/-- `HCH.POP` on a rendezvous channel: fault after the consumer's own close, hold while empty with the producer open,
then deliver the block in the slot, or answer `EOS` with a block of silence (R195). -/
def popRdv (c : Nat) (s : State) : Result :=
  if (chan s c).copen = false then .next (takeFault .channelMisuse (encode (.hchPop c)) s)
  else if popHolds (chan s c) then .fault .held
  else withPayload (.hchPop c) s fun _ =>
    match (chan s c).slot with
    | some blk => deliverBlock c blk s
    | none => complete (.hchPop c) .eos (silence s.cfg) s

/-- `HCH.PUSH c, blk` (R192, R193). -/
def execHchPush (c : Nat) (s : State) : Result :=
  checked (.hchPush c) s <|
    match chMode s.cfg c with
    | .cell => pushCell c s
    | .rdv => pushRdv c s

/-- `HCH.POP c` (R194, R195). -/
def execHchPop (c : Nat) (s : State) : Result :=
  checked (.hchPop c) s <|
    match chMode s.cfg c with
    | .cell => popCell c s
    | .rdv => popRdv c s

/-- Disconnecting is a fault on a cell (R196, R197, R237). -/
def rdvOnly (i : Instr) (c : Nat) (s : State) (run : Result) : Result :=
  match chMode s.cfg c with
  | .cell => .next (takeFault .channelMisuse (encode i) s)
  | .rdv => run

/-- `HCH.CLOSEP c` (R196). -/
def execHchClosep (c : Nat) (s : State) : Result :=
  checked (.hchClosep c) s <| rdvOnly (.hchClosep c) c s <| withPayload (.hchClosep c) s fun _ =>
    complete (.hchClosep c) .ok [] (setChan c { chan s c with popen := false } s)

/-- `HCH.CLOSEC c` (R197). -/
def execHchClosec (c : Nat) (s : State) : Result :=
  checked (.hchClosec c) s <| rdvOnly (.hchClosec c) c s <| withPayload (.hchClosec c) s fun _ =>
    complete (.hchClosec c) .ok [] (setChan c { chan s c with copen := false } s)

/-- `HCH.RDST c` (R198). -/
def execHchRdst (c : Nat) (s : State) : Result :=
  checked (.hchRdst c) s <| withPayload (.hchRdst c) s fun _ =>
    complete (.hchRdst c) .ok [channelWord (chMode s.cfg c) (chan s c)] s

end Sys2Proof.Machine
end

