-- ==== Sys2Proof/Machine/Mixer.lean ====
section
/-!
DEFINITION. The Mixer commands (spec 42_mixer.md).
-/

namespace Sys2Proof.Machine

/-- `MIXSUM` from a running sum `acc` on (R172): pairs of sample and gain in ascending source index, each product
rounded before it is added, each partial sum rounded (R173). -/
def mixFrom (c : Config) : Nat → F32 → List (F32 × F32) → F32 × Nat
  | k, acc, [] => (acc, k)
  | k, acc, (x, g) :: rest =>
    let (p, k1) := fmul c k x g
    let (sum, k2) := fadd c k1 acc p
    mixFrom c k2 sum rest

/-- `MIXSUM(m, x)`: the running sum starts at `+0.0` (R172). -/
def mixSum (c : Config) (k : Nat) (gains xs : List F32) : F32 × Nat := mixFrom c k 0#32 (xs.zip gains)

/-- One output sample per listed lane of a `MIX.RENDER` payload (R175). -/
def mixLanes (c : Config) (gains ws : List F32) (n : Nat) : Nat → List Nat → List F32 × Nat
  | k, [] => ([], k)
  | k, l :: rest =>
    let (y, k1) := mixSum c k gains (lane ws n c.block l)
    let (ys, k2) := mixLanes c gains ws n k1 rest
    (y :: ys, k2)

/-- `MIX_INDEX`: `IDX >= N_SRC[m]` (R234), check (5) of R242 for the two commands that use `IDX`. -/
def mixIndexChecked (i : Instr) (m idx : Nat) (s : State) (run : Result) : Result :=
  if nSrc s.cfg m ≤ idx then .next (takeFault .mixIndex (encode i) s) else run

/-- `MIX.SETLVL m, i, g` (R171). -/
def execMixSetlvl (m i : Nat) (s : State) : Result :=
  checked (.mixSetlvl m i) s <| mixIndexChecked (.mixSetlvl m i) m i s <|
    withPayload (.mixSetlvl m i) s fun ws =>
      complete (.mixSetlvl m i) .ok [] (setGain m i (payloadAt ws 0) s)

/-- `MIX.MIX1 m, x0, ..., x(n-1)` (R174). -/
def execMixMix1 (m : Nat) (s : State) : Result :=
  checked (.mixMix1 m) s <| withPayload (.mixMix1 m) s fun ws =>
    let (y, k) := mixSum s.cfg s.nanDraws (gainsOf s m) ws
    complete (.mixMix1 m) .ok [y] (setDraws k s)

/-- `MIX.RENDER m, blk0, ..., blk(n-1)` (R175). -/
def execMixRender (m : Nat) (s : State) : Result :=
  checked (.mixRender m) s <| withPayload (.mixRender m) s fun ws =>
    let (ys, k) := mixLanes s.cfg (gainsOf s m) ws (nSrc s.cfg m) s.nanDraws (List.range s.cfg.block)
    complete (.mixRender m) .ok ys (setDraws k s)

/-- `MIX.RDLVL m, i` (R176). -/
def execMixRdlvl (m i : Nat) (s : State) : Result :=
  checked (.mixRdlvl m i) s <| mixIndexChecked (.mixRdlvl m i) m i s <|
    withPayload (.mixRdlvl m i) s fun _ =>
      complete (.mixRdlvl m i) .ok [gain s m i] s

end Sys2Proof.Machine
end

