-- ==== Sys2Proof/Machine/Sine.lean ====
section
/-!
DEFINITION. The waveform function `SINE` (spec 40_oscillator.md R113).

The reference is the binary32 value nearest to the real `sin(2π p / 2^32)`. It is computed here on 160-bit fixed-point
integers: the phase is folded into the first quarter wave, the power series of the sine is summed there, and the sum
is narrowed once, by `roundMag` (log entry 3). Whatever the implementation, `SINE(0) = +0.0` and no sample has a
magnitude above 1.0: the properties (a) and (b) of R113 are imposed on the result.
-/

namespace Sys2Proof.Machine

/-- `π * 2^192`, rounded down. -/
def piFixed : Nat := 0x3243F6A8885A308D313198A2E03707344A4093822299F31D0

/-- The tail of the power series of the sine from the term `t = x^k / k!` on, alternating, with `x2 = x^2`; 160
fractional bits. Each term is smaller than the one before it for the arguments used, at most `π / 2`. -/
def sineSeries (x2 : Nat) : Nat → Nat → Nat → Nat
  | 0, _, _ => 0
  | fuel + 1, k, t => t - sineSeries x2 fuel (k + 2) (t * x2 / 2 ^ 160 / ((k + 1) * (k + 2)))

/-- `sin(2π r / 2^32) * 2^160` for a phase `r` in the first quarter wave, `0 <= r <= 2^30`. -/
def quarterSine (r : Nat) : Nat :=
  let x := r * piFixed / 2 ^ 63
  sineSeries (x * x / 2 ^ 160) 24 1 x

/-- The magnitude pattern of the reference sine at phase `p`: the half wave is folded at its peak. -/
def sineRefMag (p : Nat) : Nat :=
  let half := p % 2 ^ 31
  let r := if 2 ^ 30 < half then 2 ^ 31 - half else half
  roundMag .reference false (quarterSine r) (2 ^ 160)

/-- The reference `SINE` of R113: an exactly zero real result is `+0.0`. -/
def sineRef (p : Word) : F32 :=
  let mag := sineRefMag p.toNat
  f32Pack (decide (2 ^ 31 < p.toNat)) mag

/-- Keep a sample within the magnitude 1.0 (pattern `0x3F800000`): R113 (b). A sample that already is stays as it is. -/
def clampUnit (x : F32) : F32 := f32Pack (f32Neg x) (min (x.toNat % 2 ^ 31) 0x3F800000)

/-- `SINE(p)` of R113. -/
def sine (c : Config) (p : Word) : F32 :=
  if p = 0#32 then 0#32
  else match c.sineImpl with
    | .reference => clampUnit (sineRef p)
    | .own => clampUnit (Config.ownSine p)

end Sys2Proof.Machine
end

