-- ==== Sys2Proof/Machine/Oscillator.lean ====
section
/-!
DEFINITION. The Oscillator commands (spec 40_oscillator.md).
-/

namespace Sys2Proof.Machine

/-- `VALID(f)`: not a NaN, finite, positive, below `F_LIMIT` (R112), on exact values. -/
def freqValid (c : Config) (f : F32) : Bool :=
  f32IsFinite f && decide (0 < f32Val f) &&
    decide (f32Val f * (c.fLimitDen : Int) < (c.fLimitNum : Int) * 2 ^ 150)

/-- `INCR(f) = floor(real(f) * 2^32 / SAMPLE_RATE)` for a positive finite `f`, exact (R111). -/
def freqIncr (c : Config) (f : F32) : Nat := f32Mag f * 2 ^ 32 / (2 ^ 150 * c.sampleRate)

/-- `NEWINC(f)` (R112). -/
def newInc (c : Config) (f : F32) : Nat := if freqValid c f then freqIncr c f else 0

/-- The effect of `OSC.SETF` on an oscillator: a zero increment silences it and resets the phase, any other one leaves
the phase as it is (R112, R114). -/
def oscSetFreq (c : Config) (f : F32) (v : OscState) : OscState :=
  if newInc c f = 0 then { pos := 0#32, inc := 0#32 }
  else { v with inc := BitVec.ofNat 32 (newInc c f) }

/-- One sample: emit at the current phase, then advance it with a 32-bit wrap (R110, R115). -/
def oscNext (c : Config) (v : OscState) : F32 × OscState := (sine c v.pos, { v with pos := v.pos + v.inc })

/-- `n` samples in order (R116). -/
def oscRender (c : Config) : Nat → OscState → List F32 × OscState
  | 0, v => ([], v)
  | n + 1, v =>
    let (x, v1) := oscNext c v
    let (xs, v2) := oscRender c n v1
    (x :: xs, v2)

/-- `OSC.SETF o, f` (R114). -/
def execOscSetf (o : Nat) (s : State) : Result :=
  checked (.oscSetf o) s <| withPayload (.oscSetf o) s fun ws =>
    complete (.oscSetf o) .ok [] (setOsc o (oscSetFreq s.cfg (payloadAt ws 0) (osc s o)) s)

/-- `OSC.NEXT o` (R115). -/
def execOscNext (o : Nat) (s : State) : Result :=
  checked (.oscNext o) s <| withPayload (.oscNext o) s fun _ =>
    let (x, v) := oscNext s.cfg (osc s o)
    complete (.oscNext o) .ok [x] (setOsc o v s)

/-- `OSC.RENDER o` (R116). -/
def execOscRender (o : Nat) (s : State) : Result :=
  checked (.oscRender o) s <| withPayload (.oscRender o) s fun _ =>
    let (xs, v) := oscRender s.cfg s.cfg.block (osc s o)
    complete (.oscRender o) .ok xs (setOsc o v s)

/-- `OSC.RDST o` (R117). -/
def execOscRdst (o : Nat) (s : State) : Result :=
  checked (.oscRdst o) s <| withPayload (.oscRdst o) s fun _ =>
    complete (.oscRdst o) .ok [(osc s o).pos, (osc s o).inc] s

end Sys2Proof.Machine
end

