-- ==== Sys2Proof/Machine/System.lean ====
section
/-!
DEFINITION. The block-level commands (spec 44_system.md).
-/

namespace Sys2Proof.Machine

/-- `SYS.NOP` (R220). -/
def execSysNop (s : State) : Result :=
  checked .sysNop s <| withPayload .sysNop s fun _ => complete .sysNop .ok [] s

/-- `SYS.RDFLT` (R221): the one command that executes while the block is halted (R241). -/
def execSysRdflt (s : State) : Result :=
  withPayload .sysRdflt s fun _ => complete .sysRdflt .ok [faultWord s, s.fcmd] s

/-- `N_CH ## N_MIX ## N_ENV ## N_OSC`, 8 bits each (R222). -/
def countsWord (c : Config) : Word :=
  BitVec.ofNat 32 (nCh c * 2 ^ 24 + nMix c * 2 ^ 16 + nEnv c * 2 ^ 8 + nOsc c)

/-- `SYS.RDCFG` (R222). -/
def execSysRdcfg (s : State) : Result :=
  checked .sysRdcfg s <| withPayload .sysRdcfg s fun _ =>
    complete .sysRdcfg .ok
      [BitVec.ofNat 32 s.cfg.sampleRate, BitVec.ofNat 32 s.cfg.block, BitVec.ofNat 32 s.cfg.rampTimeMs,
        BitVec.ofNat 32 (rampLen s.cfg), countsWord s.cfg] s

end Sys2Proof.Machine
end

