-- ==== Sys2Proof/Machine/Dispatch.lean ====
section
/-! DEFINITION. One arm per command of spec 30_encoding.md R90. -/

namespace Sys2Proof.Machine

/-- The meaning of one command, executed on the port `s.port` whose pending words begin with its command word. -/
def exec (i : Instr) (s : State) : Host.Outcome State Fault Refusal :=
  match i with
  | .oscSetf o => Sys2Proof.Machine.execOscSetf o s
  | .oscNext o => Sys2Proof.Machine.execOscNext o s
  | .oscRender o => Sys2Proof.Machine.execOscRender o s
  | .oscRdst o => Sys2Proof.Machine.execOscRdst o s
  | .envNon e => Sys2Proof.Machine.execEnvNon e s
  | .envNoff e => Sys2Proof.Machine.execEnvNoff e s
  | .envProc e => Sys2Proof.Machine.execEnvProc e s
  | .envProcb e => Sys2Proof.Machine.execEnvProcb e s
  | .envRdst e => Sys2Proof.Machine.execEnvRdst e s
  | .mixSetlvl m k => Sys2Proof.Machine.execMixSetlvl m k s
  | .mixMix1 m => Sys2Proof.Machine.execMixMix1 m s
  | .mixRender m => Sys2Proof.Machine.execMixRender m s
  | .mixRdlvl m k => Sys2Proof.Machine.execMixRdlvl m k s
  | .hchPush c => Sys2Proof.Machine.execHchPush c s
  | .hchPop c => Sys2Proof.Machine.execHchPop c s
  | .hchClosep c => Sys2Proof.Machine.execHchClosep c s
  | .hchClosec c => Sys2Proof.Machine.execHchClosec c s
  | .hchRdst c => Sys2Proof.Machine.execHchRdst c s
  | .sysNop => Sys2Proof.Machine.execSysNop s
  | .sysRdflt => Sys2Proof.Machine.execSysRdflt s
  | .sysRdcfg => Sys2Proof.Machine.execSysRdcfg s

end Sys2Proof.Machine
end

