-- ==== Sys2Proof/Machine/Ports.lean ====
section
/-!
DEFINITION. Serving the ports (spec 20_memory.md R66, R67, 30_encoding.md R86): the step of one port, which ports have
one, the free choice between them, and placing an instruction where the next step takes its command word.
-/

namespace Sys2Proof.Machine

/-- The state in which port `p` is served. -/
def serve (p : Nat) (s : State) : State := { s with port := p }

/-- Check (2) of R242 failed: a word that is no command. A halted block refuses it like any other word, which is
check (1) (R232, R241). -/
def rejectWord (w : Word) (s : State) : State :=
  if halted s then refuseHalted s else takeFault .illegalCmd w s

/-- The step of port `p` (R86): look at the head word, decode it, execute the command. -/
def portStep (p : Nat) (s : State) : Result :=
  match pending s p with
  | [] => .fault .noCommand
  | w :: _ =>
    match decode w with
    | .error _ => .next (rejectWord w (serve p s))
    | .ok i => exec i (serve p s)

/-- Port `p` has an enabled head command: its step exists. A held command and one whose payload has not all arrived
have none (R66, R86, R272). -/
def enabled (s : State) (p : Nat) : Bool :=
  match portStep p s with
  | .next _ => true
  | .fault _ => false
  | .refused _ => false

/-- The ports with an enabled head command. -/
def enabledPorts (s : State) : List Nat := (List.range s.cfg.nPort).filter (enabled s)

/-- The port the next step serves: any enabled one (R66, U17). Where there are several the choice is the free value
`Config.arbiter` of this step (log entry 5). -/
def chosenPort (s : State) : Option Nat :=
  match enabledPorts s with
  | [] => none
  | [p] => some p
  | p :: q :: ps => (p :: q :: ps)[Config.arbiter s.arbTurn % (ps.length + 2)]?

/-- Count one use of the arbiter. -/
def tick (s : State) : State := { s with arbTurn := s.arbTurn + 1 }

/-- THE STEP FUNCTION OF THE BLOCK, the configuration an argument and no part of the state (00_scope.md R5): the chosen
port's head command, atomically (R65, R66); no meaning for an invalid configuration (70_reset_and_hazards.md R262). -/
def stepWith (c : Config) (b : BlockState) : Host.Outcome BlockState Fault Refusal :=
  if configOk c then
    match chosenPort (b.under c) with
    | none => .fault .noEnabledPort
    | some p => mapNext State.toBlockState (portStep p (tick (b.under c)))
  else .refused .configInvalid

/-- The word at position `j` of an instruction whose bits are `w`, counted from the least significant bit. -/
def wordAt (w j : Nat) : Word := BitVec.ofNat 32 (w / 2 ^ (32 * j))

/-- How many words an instruction needs on its port: those the table gives bits, and at least the command word and its
`plen` payload words. -/
def fetchLength (c : Config) (nbits w : Nat) : Nat :=
  max (nbits / 32)
    (match decode (wordAt w 0) with
     | .ok i => 1 + plen c i
     | .error _ => 1)

/-- The words of an instruction as they stand on a port, first word at the head (R86). -/
def fetchWords (c : Config) (nbits w : Nat) : List Word :=
  (List.range (fetchLength c nbits w)).map fun j => wordAt (w % 2 ^ nbits) j

/-- Place an instruction as the only pending words of the block, on the port `s.port`. -/
def placeWords (ws : List Word) (s : State) : State :=
  { s with cmdIn := (s.cmdIn.map fun _ => []).set s.port ws }

end Sys2Proof.Machine
end

