-- ==== Sys2Proof/Machine/Step.lean ====
section
/-! DEFINITION. The step function, and placing an instruction where it takes its next command word. -/

namespace Sys2Proof.Machine

/-- One step of the block (spec 20_memory.md R66) in the host's form, with one argument: `stepWith` of the configuration
and the block's state, the configuration handed on as it is (00_scope.md R5, log entry 1). -/
def step (s : State) : Host.Outcome State Fault Refusal :=
  mapNext (BlockState.under s.cfg) (stepWith s.cfg s.toBlockState)

/-- The machine built with configuration `c` (00_scope.md R5: the configuration is threaded through construction, and
several blocks can coexist): its states hold no configuration. -/
def builtWith (c : Config) : Host.Core :=
  { State := BlockState, Fault := Fault, Refusal := Refusal, step := stepWith c, reset := BlockState.resetWith c }

/-- `s` with the instruction whose bits are `w` as the only words pending in the block, on the port `s.port`, so that
the very next step executes it. The other ports' words are taken away because the choice between two enabled ports is
free (R66); payload words beyond `nbits` are zero (log entry 12). -/
def State.withFetchWord (s : State) (nbits w : Nat) : State := placeWords (fetchWords s.cfg nbits w) s

end Sys2Proof.Machine
end

