-- ==== Sys2Proof/Safety.lean ====
section
/-!
DEFINITION. The terms claims are stated in: the state invariant, ends of runs, the exact values of binary32 patterns,
and the shape of a command that is ready on its port.
-/

namespace Sys2Proof.Machine

/-! ### The invariant of the block -/

/-- R24 (a), (b): a zero increment goes with phase zero, and an increment is below `2^31`. -/
abbrev OscOk (v : OscState) : Prop := (v.inc = 0#32 → v.pos = 0#32) ∧ v.inc.toNat < 2 ^ 31

/-- R26 (a), (b), (c), with `r = RAMP_LEN`. -/
abbrev EnvOk (r : Nat) (v : EnvState) : Prop :=
  v.epos.toNat ≤ r ∧ (v.stage = .idle → v.epos.toNat = 0) ∧ (v.stage = .sustaining → v.epos.toNat = r)

/-- A stored block has `BLOCK` samples (R11, R28). -/
def ChanOk (block : Nat) (ch : ChanState) : Prop := ∀ b, ch.slot = some b → b.length = block

/-- What holds after reset and after every step: the configuration is valid (R7), every group of state has the size the
configuration gives it (R20, R27), the invariants R24, R26 and R28 hold, and the fault record is one that R30, R231
and R240 allow. -/
structure StateOk (s : State) : Prop where
  config : configOk s.cfg = true
  cmdIn_length : s.cmdIn.length = s.cfg.nPort
  respOut_length : s.respOut.length = s.cfg.nPort
  oscs_length : s.oscs.length = nOsc s.cfg
  envs_length : s.envs.length = nEnv s.cfg
  gains_lengths : s.gains.map List.length = s.cfg.mixers.map fun m => m.gainInit.length
  chans_length : s.chans.length = nCh s.cfg
  oscs_ok : ∀ v ∈ s.oscs, OscOk v
  envs_ok : ∀ v ∈ s.envs, EnvOk (rampLen s.cfg) v
  chans_ok : ∀ ch ∈ s.chans, ChanOk s.cfg.block ch
  cells_open : ∀ (c : Nat) (ch : ChanState), s.chans[c]? = some ch → chMode s.cfg c = .cell →
    ch.popen = true ∧ ch.copen = true
  port_lt : s.port < s.cfg.nPort
  fport_lt : s.fport.toNat < s.cfg.nPort
  fault_le : s.fault.toNat ≤ 7
  record_zero : s.fault = 0#8 → s.fport = 0#8 ∧ s.fcmd = 0#32

/-! ### Runs -/

/-- No fault has happened. A state with `FAULT != 0` has gone wrong (R241). -/
def Unfaulted (s : State) : Prop := s.fault = 0#8

/-- The end of a run: every port has executed every command sent to it and no fault has happened (R275). -/
def RunEnded (s : State) : Prop := s.fault = 0#8 ∧ ∀ p < s.cfg.nPort, pending s p = []

/-- The states the block can come to by its steps, the choice between enabled ports being free (R66). -/
inductive Reaches : State → State → Prop where
  | refl (s : State) : Reaches s s
  | tail (s t u : State) : Reaches s t → step t = .next u → Reaches s u

/-! ### Exact values -/

/-- `real(x)` of a finite binary32 pattern, from its fields: sign bit 31, exponent bits 30:23, fraction bits 22:0
(R11, 93_implementation_defined.md GK3). -/
def realOf (x : F32) : ℚ :=
  (if x.getLsbD 31 then -1 else 1) *
    (if (x.extractLsb' 23 8).toNat = 0 then ((x.extractLsb' 0 23).toNat : ℚ) * (2 : ℚ) ^ (-149 : ℤ)
     else (2 ^ 23 + (x.extractLsb' 0 23).toNat : ℚ) * (2 : ℚ) ^ ((x.extractLsb' 23 8).toNat - 150 : ℤ))

/-- The exponent field is not all ones: neither an infinity nor a NaN. -/
abbrev FiniteF32 (x : F32) : Prop := x.extractLsb' 23 8 ≠ 0xFF#8

/-- A NaN: exponent all ones, fraction not zero. -/
abbrev IsNaNF32 (x : F32) : Prop := x.extractLsb' 23 8 = 0xFF#8 ∧ x.extractLsb' 0 23 ≠ 0#23

/-- An infinity: exponent all ones, fraction zero. -/
abbrev IsInfF32 (x : F32) : Prop := x.extractLsb' 23 8 = 0xFF#8 ∧ x.extractLsb' 0 23 = 0#23

/-- A quiet NaN: exponent all ones and fraction bit 22 set, any other bits (R17 (b), U3). -/
abbrev QuietNaN (x : F32) : Prop := x &&& 0x7FC00000#32 = 0x7FC00000#32

/-- `+0.0` or `-0.0`. -/
abbrev IsZeroF32 (x : F32) : Prop := x = 0x00000000#32 ∨ x = 0x80000000#32

/-- `F_LIMIT` as a rational (R6). -/
def fLimit (c : Config) : ℚ := (c.fLimitNum : ℚ) / (c.fLimitDen : ℚ)

/-! ### A command on its port -/

/-- On the port being served the words `cmd`, then `payload`, then `rest` are waiting, and `out` has been sent so far
(R62, R86). -/
abbrev AtHead (s : State) (cmd : Word) (payload rest out : List Word) : Prop :=
  s.cmdIn[s.port]? = some (cmd :: (payload ++ rest)) ∧ s.respOut[s.port]? = some out

/-- The state after the words before `rest` were taken and a response was sent, so that `out` is what has been sent in
all; nothing else differs from `s` (R86, R87). -/
def answered (s : State) (rest out : List Word) : State :=
  { s with cmdIn := s.cmdIn.set s.port rest, respOut := s.respOut.set s.port out }

/-- The state after the command word `cmd` raised the fault with number `code`: the record is written, the status word
`0x80 + code` is sent, one word is taken, nothing else differs from `s` (R240). -/
def faulted (s : State) (code : Nat) (cmd : Word) (rest out : List Word) : State :=
  { answered s rest (out ++ [BitVec.ofNat 32 (0x80 + code)]) with
    fault := BitVec.ofNat 8 code, fport := BitVec.ofNat 8 s.port, fcmd := cmd }

/-- Samples processed one after the other by an envelope (R145, R146): the state advances first, then the sample is
multiplied by the gain at the new position. The arguments are the NaN draw count and the envelope before, the inputs,
the outputs, the NaN draw count and the envelope after. -/
inductive EnvRun (c : Config) : Nat → EnvState → List F32 → List F32 → Nat → EnvState → Prop where
  | nil (k : Nat) (v : EnvState) : EnvRun c k v [] [] k v
  | cons (k k1 k2 : Nat) (v v2 : EnvState) (x y : F32) (xs ys : List F32) :
      fmul c k x (fdivU c (envStep (rampLen c) v).epos.toNat (rampLen c)) = (y, k1) →
      EnvRun c k1 (envStep (rampLen c) v) xs ys k2 v2 →
      EnvRun c k v (x :: xs) (y :: ys) k2 v2

end Sys2Proof.Machine
end

