-- ==== Sys2Proof/Certificates/Slice0/Obligations.lean ====
section
/-!
DEFINITION. The statements for the provers, about the block of spec/ as modelled in Sys2Proof/Machine.

A result statement says where the command completes and gives the WHOLE next state: `answered s rest out'` is `s` with
the command's words taken from its port and the response added, and every field not named after `with` is that of `s`.
So each of them is its own frame: no other oscillator, envelope, gain, channel, port stream or record field changes.
-/

open Sys2Proof Sys2Proof.Machine

/-! ### Encoding -/

/-- Decoding the command word of any command whose indices fit their fields gives that command back (30_encoding.md
R80, R83, R84, R90). -/
def Obligations.DecodeOfEncodeIsTheCommand : Prop :=
  ∀ i : Instr, i.wellFormed = true → decode (encode i) = .ok i

/-- A word that decodes is the command word of what it decodes to: no two words are the same command and no bit of a
word is dropped (30_encoding.md R90, R93). -/
def Obligations.EncodeOfDecodeIsTheWord : Prop :=
  ∀ (w : Word) (i : Instr), decode w = .ok i → i.wellFormed = true ∧ encode i = w

/-- The decoder is the opcode map: a word that decodes is accepted by exactly one row, its own, and a rejected word by
no row (30_encoding.md R90). -/
def Obligations.DecoderAgreesWithOpcodeMap : Prop :=
  ∀ w : Word,
    (∀ i, decode w = .ok i →
      (opcodeRows.filter fun r => r.accepts w).map (fun r => r.mnemonic) = [i.mnemonic]) ∧
    (∀ e, decode w = .error e → (opcodeRows.filter fun r => r.accepts w) = [])

/-- Which words are illegal, in the words of 30_encoding.md R91: a reserved unit, an operation not listed for its unit,
a non-zero reserved field, a non-zero index where none is used, a non-zero instance in a `SYS` command. -/
def Obligations.IllegalWordsAreThoseOfTheSpec : Prop :=
  ∀ (w : Word) (unit op inst idx rsv : Nat),
    unit = (w.extractLsb' 28 4).toNat → op = (w.extractLsb' 24 4).toNat → inst = (w.extractLsb' 16 8).toNat →
    idx = (w.extractLsb' 8 8).toNat → rsv = (w.extractLsb' 0 8).toNat →
    ((∃ e, decode w = .error e) ↔
      (0x4 ≤ unit ∧ unit ≤ 0xE) ∨
      (unit = 0x0 ∧ 4 ≤ op) ∨ (unit = 0x1 ∧ 5 ≤ op) ∨ (unit = 0x2 ∧ 4 ≤ op) ∨ (unit = 0x3 ∧ 5 ≤ op) ∨
      (unit = 0xF ∧ 3 ≤ op) ∨
      rsv ≠ 0 ∨
      (idx ≠ 0 ∧ ¬(unit = 0x2 ∧ (op = 0 ∨ op = 3))) ∨
      (unit = 0xF ∧ inst ≠ 0))

/-- Words the spec writes out decode to the commands it gives for them (30_encoding.md R95, 95_test_vectors.md VD1 to
VD18). A sanity statement. -/
def Obligations.SpecWordsDecode : Prop :=
  decode 0x00010000#32 = .ok (.oscSetf 1) ∧ decode 0x14000000#32 = .ok (.envRdst 0) ∧
  decode 0x20000100#32 = .ok (.mixSetlvl 0 1) ∧ decode 0x2000FF00#32 = .ok (.mixSetlvl 0 255) ∧
  decode 0x31010000#32 = .ok (.hchPop 1) ∧ decode 0xF1000000#32 = .ok .sysRdflt ∧
  decode 0x21000100#32 = .error .idxNonzero ∧ decode 0x40000000#32 = .error .reservedUnit

/-! ### Steps of ports and of the block -/

/-- A STEP RUNS THE DECODED INSTRUCTION. If the port the block chooses has a command word at its head, the step is the
meaning of that command, executed on that port; around it the step only counts its choice (`arbTurn`, the model's own
counter, log entry 5). The words are taken by the command itself. -/
def Obligations.StepRunsTheDecodedCommand : Prop :=
  ∀ (s : State) (p : Nat) (w : Word) (ws : List Word) (i : Instr),
    configOk s.cfg = true → chosenPort s = some p → s.cmdIn[p]? = some (w :: ws) → decode w = .ok i →
    step s = exec i { s with port := p, arbTurn := s.arbTurn + 1 }

/-- The step is that of some port whose head command is enabled, whichever the choice (20_memory.md R66). Which enabled
port it is rests on no rule: it is a free value of the model (log entry 5). The configuration is an argument of the
step function (00_scope.md R5): `step` is `stepWith` of the configuration and of the block's state, which holds none,
and no command changes it. -/
def Obligations.StepServesAnEnabledPort : Prop :=
  (∀ s t : State, step s = .next t →
    ∃ (p : Nat) (u : State), p < s.cfg.nPort ∧ enabled s p = true ∧ portStep p s = .next u ∧
      t = { u with arbTurn := s.arbTurn + 1 }) ∧
  (∀ (c : Config) (b : BlockState) (t : State),
    step (b.under c) = .next t ↔ ∃ b' : BlockState, stepWith c b = .next b' ∧ t = b'.under c) ∧
  (∀ (i : Instr) (s t : State), exec i s = .next t → t.cfg = s.cfg)

/-- The three ways a step can end: no meaning exactly for an invalid configuration (R262); otherwise a next state
exactly when some port has an enabled head command, and otherwise the block has no step (R66, R272, U14, U15). -/
def Obligations.StepStopsOnlyWithoutAnEnabledPort : Prop :=
  ∀ s : State,
    (configOk s.cfg = false → step s = .refused .configInvalid) ∧
    (configOk s.cfg = true → ∀ p, p < s.cfg.nPort → enabled s p = true → ∃ t, step s = .next t) ∧
    (configOk s.cfg = true → (∀ p, p < s.cfg.nPort → enabled s p = false) → step s = .fault .noEnabledPort)

/-- An illegal command word faults `ILLEGAL_CMD` (code 1): decided from the word alone, no payload is consumed
(60_exceptions.md R232, R240). -/
def Obligations.IllegalWordFaults : Prop :=
  ∀ (s : State) (p : Nat) (w : Word) (rest out : List Word) (e : DecodeReject),
    s.fault = 0#8 → s.cmdIn[p]? = some (w :: rest) → s.respOut[p]? = some out → decode w = .error e →
    portStep p s = .next (faulted { s with port := p } 1 w rest out)

/-- A halted block answers every word but `0xF1000000` with `HALTED`, consumes that word only, and changes no state
(60_exceptions.md R241). -/
def Obligations.HaltedBlockRefusesEveryWord : Prop :=
  ∀ (s : State) (p : Nat) (w : Word) (rest out : List Word),
    s.fault ≠ 0#8 → s.cmdIn[p]? = some (w :: rest) → s.respOut[p]? = some out → w ≠ 0xF1000000#32 →
    portStep p s = .next (answered { s with port := p } rest (out ++ [0xFF#32]))

/-- Once a fault is recorded no step changes the record or any unit state (10_state.md R30, 60_exceptions.md R241). -/
def Obligations.HaltIsPermanent : Prop :=
  ∀ s t : State, s.fault ≠ 0#8 → step s = .next t →
    t.fault = s.fault ∧ t.fport = s.fport ∧ t.fcmd = s.fcmd ∧
    t.oscs = s.oscs ∧ t.envs = s.envs ∧ t.gains = s.gains ∧ t.chans = s.chans

/-- A command is held in two cases only: a push on a rendezvous channel with the slot full and the consumer open, a pop
on one with the slot empty and the producer open; and in those two cases it has no step (70_reset_and_hazards.md R272).
The channel modes are those of `CH_MODE` in the configuration. The other wait is for the payload (30_encoding.md R86):
a command has it only while fewer words than `plen` stand behind its command word, and every command with a payload
that passes its checks has no step until all of its payload words are there, neither completing nor faulting. -/
def Obligations.OnlyPushAndPopHold : Prop :=
  (∀ (i : Instr) (s : State), exec i s = .fault .held →
    ∃ (c : Nat) (cc : ChannelCfg), s.cfg.channels[c]? = some cc ∧ cc.mode = .rdv ∧ s.fault = 0#8 ∧
      ((i = .hchPush c ∧ (chan s c).slot ≠ none ∧ (chan s c).copen = true) ∨
       (i = .hchPop c ∧ (chan s c).slot = none ∧ (chan s c).popen = true))) ∧
  (∀ (s : State) (c : Nat) (cc : ChannelCfg) (ch : ChanState) (b : Block),
    s.fault = 0#8 → s.cfg.channels[c]? = some cc → cc.mode = .rdv → s.chans[c]? = some ch →
    (cc.prod = s.port → ch.slot = some b → ch.popen = true → ch.copen = true →
      exec (.hchPush c) s = .fault .held) ∧
    (cc.cons = s.port → ch.slot = none → ch.popen = true → ch.copen = true →
      exec (.hchPop c) s = .fault .held)) ∧
  (∀ (i : Instr) (s : State) (cmd : Word) (ws : List Word), exec i s = .fault .payloadIncomplete →
    s.cmdIn[s.port]? = some (cmd :: ws) → s.fault = 0#8 ∧ ws.length < plen s.cfg i) ∧
  (∀ (s : State) (n k : Nat) (mc : MixerCfg) (cc : ChannelCfg) (ch : ChanState) (cmd : Word) (ws : List Word),
    s.fault = 0#8 → s.cmdIn[s.port]? = some (cmd :: ws) →
    (s.cfg.ownOsc[n]? = some s.port → ws.length < 1 → exec (.oscSetf n) s = .fault .payloadIncomplete) ∧
    (s.cfg.ownEnv[n]? = some s.port → ws.length < 1 → exec (.envProc n) s = .fault .payloadIncomplete) ∧
    (s.cfg.ownEnv[n]? = some s.port → ws.length < s.cfg.block →
      exec (.envProcb n) s = .fault .payloadIncomplete) ∧
    (s.cfg.mixers[n]? = some mc → mc.owner = s.port → k < mc.gainInit.length → ws.length < 1 →
      exec (.mixSetlvl n k) s = .fault .payloadIncomplete) ∧
    (s.cfg.mixers[n]? = some mc → mc.owner = s.port → ws.length < mc.gainInit.length →
      exec (.mixMix1 n) s = .fault .payloadIncomplete) ∧
    (s.cfg.mixers[n]? = some mc → mc.owner = s.port → ws.length < mc.gainInit.length * s.cfg.block →
      exec (.mixRender n) s = .fault .payloadIncomplete) ∧
    (s.cfg.channels[n]? = some cc → cc.prod = s.port → s.chans[n]? = some ch → ws.length < s.cfg.block →
      ((cc.mode = .cell ∧ ch.slot = none) ∨
        (cc.mode = .rdv ∧ ch.popen = true ∧ (ch.slot = none ∨ ch.copen = false))) →
      exec (.hchPush n) s = .fault .payloadIncomplete))

/-! ### Faults -/

/-- Faults are precise: if a command of an unhalted block leaves a fault recorded, then the whole effect is the record,
its one response word and the one command word taken (60_exceptions.md R231, R240). -/
def Obligations.FaultChangesOnlyTheRecord : Prop :=
  ∀ (i : Instr) (s t : State) (rest out : List Word),
    s.fault = 0#8 → AtHead s (encode i) [] rest out → exec i s = .next t → t.fault ≠ 0#8 →
    ∃ code, 1 ≤ code ∧ code ≤ 7 ∧ t = faulted s code (encode i) rest out

/-- `BAD_INSTANCE` (code 2): raised by every `OSC`, `ENV`, `MIX`, `HCH` command whose `INST` is at or above the
configured count of its unit kind (60_exceptions.md R233), whatever port it arrives on (R242). -/
def Obligations.MissingInstanceFaults : Prop :=
  ∀ (s : State) (n : Nat) (i : Instr) (rest out : List Word),
    s.fault = 0#8 → AtHead s (encode i) [] rest out →
    (i ∈ [Instr.oscSetf n, .oscNext n, .oscRender n, .oscRdst n] → s.cfg.ownOsc.length ≤ n →
      exec i s = .next (faulted s 2 (encode i) rest out)) ∧
    (i ∈ [Instr.envNon n, .envNoff n, .envProc n, .envProcb n, .envRdst n] → s.cfg.ownEnv.length ≤ n →
      exec i s = .next (faulted s 2 (encode i) rest out)) ∧
    ((i ∈ [Instr.mixMix1 n, .mixRender n] ∨ ∃ k, i ∈ [Instr.mixSetlvl n k, .mixRdlvl n k]) →
      s.cfg.mixers.length ≤ n → exec i s = .next (faulted s 2 (encode i) rest out)) ∧
    (i ∈ [Instr.hchPush n, .hchPop n, .hchClosep n, .hchClosec n, .hchRdst n] → s.cfg.channels.length ≤ n →
      exec i s = .next (faulted s 2 (encode i) rest out))

/-- `OWNER` (code 6): raised by a command for an existing instance on a port that does not own it: the owner of a
channel is its producer port for PUSH and CLOSEP, its consumer port for POP and CLOSEC, either for RDST
(60_exceptions.md R236). It comes before every check of the command's own (R242). -/
def Obligations.ForeignPortFaults : Prop :=
  ∀ (s : State) (n own : Nat) (mc : MixerCfg) (cc : ChannelCfg) (i : Instr) (rest out : List Word),
    s.fault = 0#8 → AtHead s (encode i) [] rest out →
    (i ∈ [Instr.oscSetf n, .oscNext n, .oscRender n, .oscRdst n] → s.cfg.ownOsc[n]? = some own → own ≠ s.port →
      exec i s = .next (faulted s 6 (encode i) rest out)) ∧
    (i ∈ [Instr.envNon n, .envNoff n, .envProc n, .envProcb n, .envRdst n] → s.cfg.ownEnv[n]? = some own →
      own ≠ s.port → exec i s = .next (faulted s 6 (encode i) rest out)) ∧
    ((i ∈ [Instr.mixMix1 n, .mixRender n] ∨ ∃ k, i ∈ [Instr.mixSetlvl n k, .mixRdlvl n k]) →
      s.cfg.mixers[n]? = some mc → mc.owner ≠ s.port → exec i s = .next (faulted s 6 (encode i) rest out)) ∧
    (i ∈ [Instr.hchPush n, .hchClosep n] → s.cfg.channels[n]? = some cc → cc.prod ≠ s.port →
      exec i s = .next (faulted s 6 (encode i) rest out)) ∧
    (i ∈ [Instr.hchPop n, .hchClosec n] → s.cfg.channels[n]? = some cc → cc.cons ≠ s.port →
      exec i s = .next (faulted s 6 (encode i) rest out)) ∧
    (i = Instr.hchRdst n → s.cfg.channels[n]? = some cc → cc.prod ≠ s.port → cc.cons ≠ s.port →
      exec i s = .next (faulted s 6 (encode i) rest out))

/-- `MIX_INDEX` (code 3): raised by SETLVL and RDLVL when the index is at or above `N_SRC[m]`; no gain changes
(60_exceptions.md R234). -/
def Obligations.MixerIndexFaults : Prop :=
  ∀ (s : State) (m k : Nat) (mc : MixerCfg) (i : Instr) (rest out : List Word),
    s.fault = 0#8 → AtHead s (encode i) [] rest out → i ∈ [Instr.mixSetlvl m k, .mixRdlvl m k] →
    s.cfg.mixers[m]? = some mc → mc.owner = s.port → mc.gainInit.length ≤ k →
    exec i s = .next (faulted s 3 (encode i) rest out)

/-- `CELL_EMPTY_READ` (code 4) and `CELL_OVERWRITE` (code 5): a pop of an empty cell, a push on a full one; the slot is
unchanged (60_exceptions.md R235). -/
def Obligations.CellMisuseFaults : Prop :=
  ∀ (s : State) (c : Nat) (cc : ChannelCfg) (ch : ChanState) (rest out : List Word),
    s.fault = 0#8 → s.cfg.channels[c]? = some cc → cc.mode = .cell → s.chans[c]? = some ch →
    (AtHead s (encode (.hchPop c)) [] rest out → cc.cons = s.port → ch.slot = none →
      exec (.hchPop c) s = .next (faulted s 4 (encode (.hchPop c)) rest out)) ∧
    (AtHead s (encode (.hchPush c)) [] rest out → cc.prod = s.port → ch.slot ≠ none →
      exec (.hchPush c) s = .next (faulted s 5 (encode (.hchPush c)) rest out))

/-- `CHANNEL_MISUSE` (code 7): a disconnect on a cell, a push on a rendezvous channel after the producer's own close, a
pop after the consumer's own close (60_exceptions.md R237). -/
def Obligations.ChannelMisuseFaults : Prop :=
  ∀ (s : State) (c : Nat) (cc : ChannelCfg) (ch : ChanState) (i : Instr) (rest out : List Word),
    s.fault = 0#8 → AtHead s (encode i) [] rest out → s.cfg.channels[c]? = some cc → s.chans[c]? = some ch →
    (i = .hchClosep c → cc.mode = .cell → cc.prod = s.port →
      exec i s = .next (faulted s 7 (encode i) rest out)) ∧
    (i = .hchClosec c → cc.mode = .cell → cc.cons = s.port →
      exec i s = .next (faulted s 7 (encode i) rest out)) ∧
    (i = .hchPush c → cc.mode = .rdv → cc.prod = s.port → ch.popen = false →
      exec i s = .next (faulted s 7 (encode i) rest out)) ∧
    (i = .hchPop c → cc.mode = .rdv → cc.cons = s.port → ch.copen = false →
      exec i s = .next (faulted s 7 (encode i) rest out))

/-! ### Oscillator -/

/-- `OSC.SETF` with its whole effect (40_oscillator.md R114), the increment and the validity test on exact rationals: a
frequency that is finite, positive, below `F_LIMIT` and has a non-zero increment sets the increment and leaves the phase
alone; every other pattern, NaNs and infinities among them, silences the oscillator and resets its phase. -/
def Obligations.OscSetfResult : Prop :=
  ∀ (s : State) (o : Nat) (v : OscState) (f : F32) (rest out : List Word),
    s.fault = 0#8 → configOk s.cfg = true → s.cfg.ownOsc[o]? = some s.port → s.oscs[o]? = some v →
    AtHead s (encode (.oscSetf o)) [f] rest out →
    ((FiniteF32 f ∧ 0 < realOf f ∧ realOf f < fLimit s.cfg ∧ 1 ≤ realOf f * 2 ^ 32 / s.cfg.sampleRate) →
      ∃ n : Nat, (n : ℤ) = ⌊realOf f * 2 ^ 32 / s.cfg.sampleRate⌋ ∧ n < 2 ^ 31 ∧
        exec (.oscSetf o) s = .next { answered s rest (out ++ [0x00#32]) with
          oscs := s.oscs.set o { pos := v.pos, inc := BitVec.ofNat 32 n } }) ∧
    (¬(FiniteF32 f ∧ 0 < realOf f ∧ realOf f < fLimit s.cfg ∧ 1 ≤ realOf f * 2 ^ 32 / s.cfg.sampleRate) →
      exec (.oscSetf o) s = .next { answered s rest (out ++ [0x00#32]) with
        oscs := s.oscs.set o { pos := 0#32, inc := 0#32 } })

/-- `OSC.NEXT` emits at the current phase, then advances it modulo `2^32` (40_oscillator.md R115). -/
def Obligations.OscNextResult : Prop :=
  ∀ (s : State) (o : Nat) (v : OscState) (rest out : List Word),
    s.fault = 0#8 → s.cfg.ownOsc[o]? = some s.port → s.oscs[o]? = some v →
    AtHead s (encode (.oscNext o)) [] rest out →
    exec (.oscNext o) s = .next { answered s rest (out ++ [0x00#32, sine s.cfg v.pos]) with
      oscs := s.oscs.set o { pos := BitVec.ofNat 32 ((v.pos.toNat + v.inc.toNat) % 2 ^ 32), inc := v.inc } }

/-- `OSC.RENDER` in the closed form of 40_oscillator.md R116: sample `k` is `SINE(P + k * I)` and the phase ends at
`P + BLOCK * I`, modulo `2^32`. -/
def Obligations.OscRenderResult : Prop :=
  ∀ (s : State) (o : Nat) (v : OscState) (rest out : List Word),
    s.fault = 0#8 → s.cfg.ownOsc[o]? = some s.port → s.oscs[o]? = some v →
    AtHead s (encode (.oscRender o)) [] rest out →
    exec (.oscRender o) s = .next
      { answered s rest (out ++ 0x00#32 :: (List.range s.cfg.block).map fun k =>
          sine s.cfg (BitVec.ofNat 32 ((v.pos.toNat + k * v.inc.toNat) % 2 ^ 32))) with
        oscs := s.oscs.set o
          { pos := BitVec.ofNat 32 ((v.pos.toNat + s.cfg.block * v.inc.toNat) % 2 ^ 32), inc := v.inc } }

/-- `OSC.RDST` answers the phase and the increment and changes no state (40_oscillator.md R117). -/
def Obligations.OscRdstResult : Prop :=
  ∀ (s : State) (o : Nat) (v : OscState) (rest out : List Word),
    s.fault = 0#8 → s.cfg.ownOsc[o]? = some s.port → s.oscs[o]? = some v →
    AtHead s (encode (.oscRdst o)) [] rest out →
    exec (.oscRdst o) s = .next (answered s rest (out ++ [0x00#32, v.pos, v.inc]))

/-- `INCR(f)` is the exact rational floor, and it is below `2^31` for a frequency below half the sample rate
(40_oscillator.md R111). -/
def Obligations.IncrementIsTheExactFloor : Prop :=
  ∀ (c : Config) (f : F32), 1 ≤ c.sampleRate → FiniteF32 f → 0 < realOf f →
    (freqIncr c f : ℤ) = ⌊realOf f * 2 ^ 32 / c.sampleRate⌋ ∧
    (realOf f < (c.sampleRate : ℚ) / 2 → freqIncr c f < 2 ^ 31)

/-- `VALID`, `NEWINC` and the silence path (40_oscillator.md R112), the comparisons on exact values. -/
def Obligations.FrequencyValidity : Prop :=
  ∀ (c : Config) (f : F32) (v : OscState), 0 < c.fLimitDen →
    (freqValid c f = true ↔ ¬IsNaNF32 f ∧ FiniteF32 f ∧ 0 < realOf f ∧ realOf f < fLimit c) ∧
    (freqValid c f = true → newInc c f = freqIncr c f) ∧
    (freqValid c f = false → newInc c f = 0) ∧
    (newInc c f = 0 → oscSetFreq c f v = { pos := 0#32, inc := 0#32 })

/-- The required properties of `SINE` (40_oscillator.md R113 (a), (b)), for the reference and for any other
implementation: exactly `+0.0` at phase 0, and at every phase finite with magnitude at most 1. -/
def Obligations.SineMeetsItsRequiredProperties : Prop :=
  ∀ c : Config, sine c 0#32 = 0x00000000#32 ∧
    ∀ p : Word, FiniteF32 (sine c p) ∧ -1 ≤ realOf (sine c p) ∧ realOf (sine c p) ≤ 1

/-- The facts about the reference sine (40_oscillator.md R113): the patterns at an eighth, a quarter, a half and three
quarters of the cycle, and that it is odd: `SINE_ref(2^32 - p) = -SINE_ref(p)` as reals. -/
def Obligations.ReferenceSineFacts : Prop :=
  ∀ c : Config, c.sineImpl = .reference →
    sine c 0#32 = 0x00000000#32 ∧ sine c 0x20000000#32 = 0x3F3504F3#32 ∧ sine c 0x40000000#32 = 0x3F800000#32 ∧
    sine c 0x80000000#32 = 0x00000000#32 ∧ sine c 0xC0000000#32 = 0xBF800000#32 ∧
    ∀ p : Word, p ≠ 0#32 → realOf (sine c (-p)) = -realOf (sine c p)

/-- Exact repetition (40_oscillator.md R118): with increment `I > 0` the phase comes back after
`2^32 / gcd(I, 2^32)` samples, so every block of that many samples is followed by the same one. -/
def Obligations.OscillatorOutputRepeats : Prop :=
  ∀ (c : Config) (v : OscState) (n : Nat), v.inc ≠ 0#32 → n = 2 ^ 32 / Nat.gcd v.inc.toNat (2 ^ 32) →
    (oscRender c n v).2 = v ∧ (oscRender c (2 * n) v).1 = (oscRender c n v).1 ++ (oscRender c n v).1

/-! ### Envelope -/

/-- `ENV.NON` and `ENV.NOFF` in every stage (41_envelope.md R142, R143): note-on sets `Attacking` and resets the
position only from `Idle`; note-off sets `Releasing` and leaves the position. -/
def Obligations.EnvNoteEventResults : Prop :=
  ∀ (s : State) (e : Nat) (v : EnvState) (rest out : List Word),
    s.fault = 0#8 → s.cfg.ownEnv[e]? = some s.port → s.envs[e]? = some v →
    (AtHead s (encode (.envNon e)) [] rest out → v.stage = .idle →
      exec (.envNon e) s = .next { answered s rest (out ++ [0x00#32]) with
        envs := s.envs.set e { stage := .attacking, epos := 0#32 } }) ∧
    (AtHead s (encode (.envNon e)) [] rest out → v.stage ≠ .idle →
      exec (.envNon e) s = .next { answered s rest (out ++ [0x00#32]) with
        envs := s.envs.set e { stage := .attacking, epos := v.epos } }) ∧
    (AtHead s (encode (.envNoff e)) [] rest out →
      exec (.envNoff e) s = .next { answered s rest (out ++ [0x00#32]) with
        envs := s.envs.set e { stage := .releasing, epos := v.epos } })

/-- `ENV_STEP` in every stage, with `r = RAMP_LEN` and positions up to `r` (41_envelope.md R144). -/
def Obligations.EnvelopeStepTable : Prop :=
  ∀ (r p : Nat), 1 ≤ r → r < 2 ^ 32 → p ≤ r →
    envStep r { stage := .idle, epos := BitVec.ofNat 32 p } = { stage := .idle, epos := BitVec.ofNat 32 p } ∧
    envStep r { stage := .sustaining, epos := BitVec.ofNat 32 p } =
      { stage := .sustaining, epos := BitVec.ofNat 32 p } ∧
    envStep r { stage := .attacking, epos := BitVec.ofNat 32 p } =
      (if min (p + 1) r = r then { stage := .sustaining, epos := BitVec.ofNat 32 r }
       else { stage := .attacking, epos := BitVec.ofNat 32 (p + 1) }) ∧
    envStep r { stage := .releasing, epos := BitVec.ofNat 32 p } =
      (if p ≤ 1 then { stage := .idle, epos := 0#32 }
       else { stage := .releasing, epos := BitVec.ofNat 32 (p - 1) })

/-- `ENV.PROC`: the state advances first, the sample is multiplied by the gain at the NEW position (41_envelope.md
R145). The draw count `k` is the model's own field (log entry 4); it changes only where the product is a NaN. -/
def Obligations.EnvProcResult : Prop :=
  ∀ (s : State) (e : Nat) (v w : EnvState) (x y : F32) (k : Nat) (rest out : List Word),
    s.fault = 0#8 → s.cfg.ownEnv[e]? = some s.port → s.envs[e]? = some v →
    AtHead s (encode (.envProc e)) [x] rest out →
    w = envStep (rampLen s.cfg) v → (y, k) = fmul s.cfg s.nanDraws x (fdivU s.cfg w.epos.toNat (rampLen s.cfg)) →
    exec (.envProc e) s = .next { answered s rest (out ++ [0x00#32, y]) with
      envs := s.envs.set e w, nanDraws := k }

/-- `ENV.PROCB` is `BLOCK` samples processed in order (41_envelope.md R146). -/
def Obligations.EnvProcbResult : Prop :=
  ∀ (s : State) (e : Nat) (v : EnvState) (xs : List F32) (rest out : List Word),
    s.fault = 0#8 → s.cfg.ownEnv[e]? = some s.port → s.envs[e]? = some v → xs.length = s.cfg.block →
    AtHead s (encode (.envProcb e)) xs rest out →
    ∃ (ys : List F32) (k : Nat) (w : EnvState), EnvRun s.cfg s.nanDraws v xs ys k w ∧ ys.length = s.cfg.block ∧
      exec (.envProcb e) s = .next { answered s rest (out ++ 0x00#32 :: ys) with
        envs := s.envs.set e w, nanDraws := k }

/-- `ENV.RDST` answers the stage code, the position and the ramp length and changes no state (41_envelope.md R147). -/
def Obligations.EnvRdstResult : Prop :=
  ∀ (s : State) (e : Nat) (v : EnvState) (code : Word) (rest out : List Word),
    s.fault = 0#8 → s.cfg.ownEnv[e]? = some s.port → s.envs[e]? = some v →
    AtHead s (encode (.envRdst e)) [] rest out →
    (v.stage, code) ∈ [(Stage.idle, 0#32), (.attacking, 1#32), (.sustaining, 2#32), (.releasing, 3#32)] →
    exec (.envRdst e) s = .next (answered s rest (out ++ [0x00#32, code, v.epos,
      BitVec.ofNat 32 (s.cfg.rampTimeMs * s.cfg.sampleRate / 1000)]))

/-- Full attack and release (41_envelope.md R148 (a)): after note-on from `Idle` and `k <= R` samples the position is
`k`, and exactly at `k = R` the stage is `Sustaining`; after note-off and `k <= R` further samples the position is
`R - k`, and exactly at `k = R` the stage is `Idle`. -/
def Obligations.FullAttackAndRelease : Prop :=
  ∀ (r k : Nat) (v a b : EnvState), 1 ≤ r → r < 2 ^ 32 → k ≤ r → EnvOk r v → v.stage = .idle →
    a = (envStep r)^[k] (envNoteOn v) → b = (envStep r)^[k] (envNoteOff ((envStep r)^[r] (envNoteOn v))) →
    a.epos.toNat = k ∧ (a.stage = .sustaining ↔ k = r) ∧ (k < r → a.stage = .attacking) ∧
    b.epos.toNat = r - k ∧ (b.stage = .idle ↔ k = r) ∧ (k < r → b.stage = .releasing)

/-- The gain is exactly `+0.0` at position 0 and exactly `1.0` at the end of the ramp, in every implementation
(00_scope.md R18). -/
def Obligations.EnvelopeGainEndsAreExact : Prop :=
  ∀ (c : Config) (r : Nat), 1 ≤ r → fdivU c 0 r = 0x00000000#32 ∧ fdivU c r r = 0x3F800000#32

/-! ### Mixer -/

/-- `MIX.SETLVL` replaces exactly one gain, by any pattern (42_mixer.md R171). -/
def Obligations.MixSetlvlResult : Prop :=
  ∀ (s : State) (m i : Nat) (mc : MixerCfg) (gs : List F32) (g : F32) (rest out : List Word),
    s.fault = 0#8 → s.cfg.mixers[m]? = some mc → mc.owner = s.port → i < mc.gainInit.length →
    s.gains[m]? = some gs → AtHead s (encode (.mixSetlvl m i)) [g] rest out →
    exec (.mixSetlvl m i) s = .next { answered s rest (out ++ [0x00#32]) with
      gains := s.gains.set m (gs.set i g) }

/-- `MIX.MIX1` answers the sum of the products in ascending source index from `+0.0`, each product and each partial
sum rounded (42_mixer.md R172, R173, R174). No state is written but the model's draw count (log entry 4). -/
def Obligations.MixMix1Result : Prop :=
  ∀ (s : State) (m : Nat) (mc : MixerCfg) (gs xs : List F32) (y : F32) (k : Nat) (rest out : List Word),
    s.fault = 0#8 → s.cfg.mixers[m]? = some mc → mc.owner = s.port → s.gains[m]? = some gs →
    xs.length = mc.gainInit.length → AtHead s (encode (.mixMix1 m)) xs rest out →
    (y, k) = (xs.zip gs).foldl
      (fun acc xg => fadd s.cfg (fmul s.cfg acc.2 xg.1 xg.2).2 acc.1 (fmul s.cfg acc.2 xg.1 xg.2).1)
      (0x00000000#32, s.nanDraws) →
    exec (.mixMix1 m) s = .next { answered s rest (out ++ [0x00#32, y]) with nanDraws := k }

/-- `MIX.RENDER`: output sample `l` is the mix of sample `l` of every source, source `i`'s being payload word
`i * BLOCK + l` (30_encoding.md R89, 42_mixer.md R175). `ks l` is the draw count before lane `l` (log entry 4). -/
def Obligations.MixRenderResult : Prop :=
  ∀ (s : State) (m : Nat) (mc : MixerCfg) (gs ws : List F32) (rest out : List Word),
    s.fault = 0#8 → s.cfg.mixers[m]? = some mc → mc.owner = s.port → s.gains[m]? = some gs →
    ws.length = mc.gainInit.length * s.cfg.block → AtHead s (encode (.mixRender m)) ws rest out →
    ∃ (ys : List F32) (ks : Nat → Nat), ys.length = s.cfg.block ∧ ks 0 = s.nanDraws ∧
      (∀ l, l < s.cfg.block →
        mixSum s.cfg (ks l) gs ((List.range mc.gainInit.length).map fun i => ws.getD (i * s.cfg.block + l) 0#32)
          = (ys.getD l 0#32, ks (l + 1))) ∧
      exec (.mixRender m) s = .next { answered s rest (out ++ 0x00#32 :: ys) with nanDraws := ks s.cfg.block }

/-- `MIX.RDLVL` answers the exact pattern of one gain and changes no state (42_mixer.md R176). -/
def Obligations.MixRdlvlResult : Prop :=
  ∀ (s : State) (m i : Nat) (mc : MixerCfg) (gs : List F32) (g : F32) (rest out : List Word),
    s.fault = 0#8 → s.cfg.mixers[m]? = some mc → mc.owner = s.port → i < mc.gainInit.length →
    s.gains[m]? = some gs → gs[i]? = some g → AtHead s (encode (.mixRdlvl m i)) [] rest out →
    exec (.mixRdlvl m i) s = .next (answered s rest (out ++ [0x00#32, g]))

/-- Silence in, silence out, and gains of zero mute finite inputs (42_mixer.md R177 (b), (c)): the sum is `+0.0` and
no NaN is drawn. -/
def Obligations.SilenceMixesToSilence : Prop :=
  ∀ (c : Config) (k : Nat) (gs xs : List F32),
    (((∀ x ∈ xs, IsZeroF32 x) ∧ ∀ g ∈ gs, FiniteF32 g) → mixSum c k gs xs = (0x00000000#32, k)) ∧
    (((∀ x ∈ xs, FiniteF32 x) ∧ ∀ g ∈ gs, IsZeroF32 g) → mixSum c k gs xs = (0x00000000#32, k))

/-! ### Multiplier, adder and quotient -/

/-- Exact results (00_scope.md R17 (a)), in every implementation: when the exact result of finite operands is a
non-zero binary32 value, it is returned. A zero product has the sign the operands' signs give. A zero sum is `+0.0`
unless both operands are `-0.0`; that last sign is IEEE-754's (log entry 18). -/
def Obligations.RepresentableResultsAreExact : Prop :=
  ∀ (c : Config) (k : Nat) (a b r : F32), FiniteF32 a → FiniteF32 b →
    (FiniteF32 r → realOf r = realOf a * realOf b → realOf r ≠ 0 → fmul c k a b = (r, k)) ∧
    (FiniteF32 r → realOf r = realOf a + realOf b → realOf r ≠ 0 → fadd c k a b = (r, k)) ∧
    (realOf a * realOf b = 0 →
      fmul c k a b = (if a.getLsbD 31 = b.getLsbD 31 then 0x00000000#32 else 0x80000000#32, k)) ∧
    (realOf a + realOf b = 0 →
      fadd c k a b = (if a = 0x80000000#32 ∧ b = 0x80000000#32 then 0x80000000#32 else 0x00000000#32, k))

/-- NaN and infinite results (00_scope.md R17 (b), (d)): a NaN operand, `infinity * 0` and `infinity - infinity` give
some quiet NaN, freshly drawn; a valid operation with an infinite operand gives the infinity IEEE-754 says. -/
def Obligations.SpecialOperandResults : Prop :=
  ∀ (c : Config) (k : Nat) (a b : F32),
    ((IsNaNF32 a ∨ IsNaNF32 b ∨ (IsInfF32 a ∧ IsZeroF32 b) ∨ (IsZeroF32 a ∧ IsInfF32 b)) →
      QuietNaN (fmul c k a b).1 ∧ (fmul c k a b).2 = k + 1) ∧
    ((IsNaNF32 a ∨ IsNaNF32 b ∨ (IsInfF32 a ∧ IsInfF32 b ∧ a ≠ b)) →
      QuietNaN (fadd c k a b).1 ∧ (fadd c k a b).2 = k + 1) ∧
    ((IsInfF32 a ∧ ¬IsNaNF32 b ∧ ¬IsZeroF32 b) ∨ (IsInfF32 b ∧ ¬IsNaNF32 a ∧ ¬IsZeroF32 a) →
      fmul c k a b = (if a.getLsbD 31 = b.getLsbD 31 then 0x7F800000#32 else 0xFF800000#32, k)) ∧
    (IsInfF32 a → (FiniteF32 b ∨ a = b) → fadd c k a b = (a, k)) ∧
    (IsInfF32 b → FiniteF32 a → fadd c k a b = (b, k))

/-- Every finite result is a neighbour of the exact one, in every implementation (00_scope.md R17 (c), R18): no
binary32 value lies strictly between the two, and an infinity is given only beyond the largest finite value. That the
bound of `2^128` separates the two follows log entry 10. -/
def Obligations.InexactResultsAreNeighbours : Prop :=
  ∀ (c : Config) (k : Nat) (a b r : F32) (x : ℚ),
    ((FiniteF32 a ∧ FiniteF32 b ∧ x = realOf a * realOf b ∧ r = (fmul c k a b).1) ∨
     (FiniteF32 a ∧ FiniteF32 b ∧ x = realOf a + realOf b ∧ r = (fadd c k a b).1) ∨
     (∃ p q : Nat, p ≤ q ∧ 1 ≤ q ∧ x = (p : ℚ) / q ∧ r = fdivU c p q)) →
    (FiniteF32 r ∧ |x| < 2 ^ 128 ∧
      ∀ y : F32, FiniteF32 y → ¬(min (realOf r) x < realOf y ∧ realOf y < max (realOf r) x)) ∨
    (IsInfF32 r ∧ realOf 0x7F7FFFFF#32 < |x| ∧ (r.getLsbD 31 = true ↔ x < 0))

/-- The reference functions round to nearest, ties to even (00_scope.md R17, R18): below the overflow threshold no
binary32 value is nearer to the exact result, and if another one is as near, the result's last bit is 0. That the
result is still finite between the largest finite value and `2^128 - 2^103` follows log entry 10. -/
def Obligations.ReferenceRoundsToNearestEven : Prop :=
  ∀ (c : Config) (k : Nat) (a b r : F32) (x : ℚ),
    ((c.fmulImpl = .reference ∧ FiniteF32 a ∧ FiniteF32 b ∧ x = realOf a * realOf b ∧ r = (fmul c k a b).1) ∨
     (c.faddImpl = .reference ∧ FiniteF32 a ∧ FiniteF32 b ∧ x = realOf a + realOf b ∧ r = (fadd c k a b).1) ∨
     (c.fdivImpl = .reference ∧ ∃ p q : Nat, p ≤ q ∧ 1 ≤ q ∧ x = (p : ℚ) / q ∧ r = fdivU c p q)) →
    |x| < 2 ^ 128 - 2 ^ 103 →
    FiniteF32 r ∧ ∀ y : F32, FiniteF32 y → |realOf r - x| ≤ |realOf y - x| ∧
      (|realOf r - x| = |realOf y - x| → realOf y ≠ realOf r → r.getLsbD 0 = false)

/-! ### Handoff Channel -/

/-- `HCH.PUSH` on an empty cell stores the block (43_handoff.md R192). The full cell is
`Obligations.CellMisuseFaults`. -/
def Obligations.HchPushCellResult : Prop :=
  ∀ (s : State) (c : Nat) (cc : ChannelCfg) (ch : ChanState) (b : Block) (rest out : List Word),
    s.fault = 0#8 → s.cfg.channels[c]? = some cc → cc.mode = .cell → cc.prod = s.port → s.chans[c]? = some ch →
    ch.slot = none → b.length = s.cfg.block → AtHead s (encode (.hchPush c)) b rest out →
    exec (.hchPush c) s = .next { answered s rest (out ++ [0x00#32]) with
      chans := s.chans.set c { ch with slot := some b } }

/-- `HCH.PUSH` on a rendezvous channel (43_handoff.md R193): with the consumer open and the slot empty the block is
stored; with the consumer gone the block is dropped and `DISCONNECTED` answered, the slot full or empty. -/
def Obligations.HchPushRdvResult : Prop :=
  ∀ (s : State) (c : Nat) (cc : ChannelCfg) (ch : ChanState) (b : Block) (rest out : List Word),
    s.fault = 0#8 → s.cfg.channels[c]? = some cc → cc.mode = .rdv → cc.prod = s.port → s.chans[c]? = some ch →
    ch.popen = true → b.length = s.cfg.block → AtHead s (encode (.hchPush c)) b rest out →
    (ch.copen = true → ch.slot = none →
      exec (.hchPush c) s = .next { answered s rest (out ++ [0x00#32]) with
        chans := s.chans.set c { ch with slot := some b } }) ∧
    (ch.copen = false → exec (.hchPush c) s = .next (answered s rest (out ++ [0x02#32])))

/-- `HCH.POP` on a full cell answers its block and empties it (43_handoff.md R194). -/
def Obligations.HchPopCellResult : Prop :=
  ∀ (s : State) (c : Nat) (cc : ChannelCfg) (ch : ChanState) (b : Block) (rest out : List Word),
    s.fault = 0#8 → s.cfg.channels[c]? = some cc → cc.mode = .cell → cc.cons = s.port → s.chans[c]? = some ch →
    ch.slot = some b → AtHead s (encode (.hchPop c)) [] rest out →
    exec (.hchPop c) s = .next { answered s rest (out ++ 0x00#32 :: b) with
      chans := s.chans.set c { ch with slot := none } }

/-- `HCH.POP` on a rendezvous channel (43_handoff.md R195): a block in the slot is delivered whether or not the producer
has gone; an empty slot whose producer has gone gives `EOS` and a block of silence and changes no state. -/
def Obligations.HchPopRdvResult : Prop :=
  ∀ (s : State) (c : Nat) (cc : ChannelCfg) (ch : ChanState) (rest out : List Word),
    s.fault = 0#8 → s.cfg.channels[c]? = some cc → cc.mode = .rdv → cc.cons = s.port → s.chans[c]? = some ch →
    ch.copen = true → AtHead s (encode (.hchPop c)) [] rest out →
    (∀ b, ch.slot = some b →
      exec (.hchPop c) s = .next { answered s rest (out ++ 0x00#32 :: b) with
        chans := s.chans.set c { ch with slot := none } }) ∧
    (ch.slot = none → ch.popen = false →
      exec (.hchPop c) s = .next (answered s rest (out ++ 0x01#32 :: List.replicate s.cfg.block 0#32)))

/-- `HCH.CLOSEP` and `HCH.CLOSEC` clear their side's flag for good and leave the slot (43_handoff.md R196, R197). -/
def Obligations.HchCloseResults : Prop :=
  ∀ (s : State) (c : Nat) (cc : ChannelCfg) (ch : ChanState) (rest out : List Word),
    s.fault = 0#8 → s.cfg.channels[c]? = some cc → cc.mode = .rdv → s.chans[c]? = some ch →
    (cc.prod = s.port → AtHead s (encode (.hchClosep c)) [] rest out →
      exec (.hchClosep c) s = .next { answered s rest (out ++ [0x00#32]) with
        chans := s.chans.set c { ch with popen := false } }) ∧
    (cc.cons = s.port → AtHead s (encode (.hchClosec c)) [] rest out →
      exec (.hchClosec c) s = .next { answered s rest (out ++ [0x00#32]) with
        chans := s.chans.set c { ch with copen := false } })

/-- `HCH.RDST` on either of the channel's ports: bits 0 to 3 say full, producer open, consumer open, rendezvous mode;
no state changes (43_handoff.md R198). -/
def Obligations.HchRdstResult : Prop :=
  ∀ (s : State) (c : Nat) (cc : ChannelCfg) (ch : ChanState) (rest out : List Word),
    s.fault = 0#8 → s.cfg.channels[c]? = some cc → (cc.prod = s.port ∨ cc.cons = s.port) → s.chans[c]? = some ch →
    AtHead s (encode (.hchRdst c)) [] rest out →
    ∃ w : Word, exec (.hchRdst c) s = .next (answered s rest (out ++ [0x00#32, w])) ∧
      w.getLsbD 0 = ch.slot.isSome ∧ w.getLsbD 1 = ch.popen ∧ w.getLsbD 2 = ch.copen ∧
      (w.getLsbD 3 = true ↔ cc.mode = .rdv) ∧ ∀ j, 4 ≤ j → w.getLsbD j = false

/-- The block in a slot (10_state.md R29 (b), 43_handoff.md R191): a step leaves it there, or a pop of that channel
stood at the head of the consumer port, which answers exactly that block and empties the slot; and a slot that was empty
can only have come to hold the block that stood behind a push of that channel at the head of the producer port. -/
def Obligations.SlotChangesOnlyByPushAndPop : Prop :=
  ∀ (s t : State) (c : Nat) (cc : ChannelCfg) (ch : ChanState), step s = .next t →
    s.cfg.channels[c]? = some cc → s.chans[c]? = some ch →
    ∃ ch' : ChanState, t.chans[c]? = some ch' ∧
      (∀ b, ch.slot = some b →
        ch'.slot = some b ∨
        (ch'.slot = none ∧ (∃ rest, s.cmdIn[cc.cons]? = some (encode (.hchPop c) :: rest)) ∧
          t.respOut = s.respOut.set cc.cons (s.respOut.getD cc.cons [] ++ 0x00#32 :: b))) ∧
      (∀ b, ch.slot = none → ch'.slot = some b →
        b.length = s.cfg.block ∧ ∃ rest, s.cmdIn[cc.prod]? = some (encode (.hchPush c) :: (b ++ rest)))

/-- A side once closed stays closed (10_state.md R29 (a)). -/
def Obligations.ClosedSidesStayClosed : Prop :=
  ∀ (s t : State) (c : Nat) (ch : ChanState), step s = .next t → s.chans[c]? = some ch →
    ∃ ch' : ChanState, t.chans[c]? = some ch' ∧
      (ch.popen = false → ch'.popen = false) ∧ (ch.copen = false → ch'.copen = false)

/-! ### System -/

/-- `SYS.NOP` answers `OK` on any port and changes no state (44_system.md R220). -/
def Obligations.SysNopResult : Prop :=
  ∀ (s : State) (rest out : List Word), s.fault = 0#8 → AtHead s (encode .sysNop) [] rest out →
    exec .sysNop s = .next (answered s rest (out ++ [0x00#32]))

/-- `SYS.RDFLT` answers the fault record on any port, halted or not, and does not clear it (44_system.md R221). -/
def Obligations.SysRdfltResult : Prop :=
  ∀ (s : State) (rest out : List Word), AtHead s (encode .sysRdflt) [] rest out →
    ∃ w : Word, w.extractLsb' 0 8 = s.fault ∧ w.extractLsb' 8 8 = s.fport ∧ w.extractLsb' 16 16 = 0#16 ∧
      exec .sysRdflt s = .next (answered s rest (out ++ [0x00#32, w, s.fcmd]))

/-- `SYS.RDCFG` answers the scalar configuration on any port and changes no state (44_system.md R222). -/
def Obligations.SysRdcfgResult : Prop :=
  ∀ (s : State) (rest out : List Word), s.fault = 0#8 → configOk s.cfg = true →
    AtHead s (encode .sysRdcfg) [] rest out →
    ∃ w0 w1 w2 w3 w4 : Word,
      w0.toNat = s.cfg.sampleRate ∧ w1.toNat = s.cfg.block ∧ w2.toNat = s.cfg.rampTimeMs ∧
      w3.toNat = s.cfg.rampTimeMs * s.cfg.sampleRate / 1000 ∧
      (w4.extractLsb' 0 8).toNat = s.cfg.ownOsc.length ∧ (w4.extractLsb' 8 8).toNat = s.cfg.ownEnv.length ∧
      (w4.extractLsb' 16 8).toNat = s.cfg.mixers.length ∧ (w4.extractLsb' 24 8).toNat = s.cfg.channels.length ∧
      exec .sysRdcfg s = .next (answered s rest (out ++ [0x00#32, w0, w1, w2, w3, w4]))

/-! ### The whole block -/

/-- THE INVARIANT. Every step keeps it: sizes, R24, R26, R28, the fault record; and no step changes the configuration
(00_scope.md R5). It is stated for every state that has the invariant, reached or not. -/
def Obligations.StepKeepsTheInvariant : Prop :=
  ∀ s t : State, StateOk s → step s = .next t → StateOk t ∧ t.cfg = s.cfg

/-- The invariant holds right after reset, for the configuration of `State.reset` (a DESIGN CHOICE, log entry 1) and
for every other valid one. -/
def Obligations.ResetHasTheInvariant : Prop :=
  StateOk State.reset ∧ ∀ c : Config, configOk c = true → StateOk (State.resetWith c)

/-- The reset values (10_state.md R33), for every configuration and whatever the state reset is taken from; every word
not yet executed is discarded and the configuration stays (70_reset_and_hazards.md R260). -/
def Obligations.ResetValues : Prop :=
  ∀ s t : State, t = resetEvent s →
    (∀ o : Nat, o < s.cfg.ownOsc.length → t.oscs[o]? = some { pos := 0#32, inc := 0#32 }) ∧
    (∀ e : Nat, e < s.cfg.ownEnv.length → t.envs[e]? = some { stage := .idle, epos := 0#32 }) ∧
    (∀ (m : Nat) (mc : MixerCfg), s.cfg.mixers[m]? = some mc → t.gains[m]? = some mc.gainInit) ∧
    (∀ c : Nat, c < s.cfg.channels.length → t.chans[c]? = some { slot := none, popen := true, copen := true }) ∧
    t.fault = 0#8 ∧ t.fport = 0#8 ∧ t.fcmd = 0#32 ∧
    (∀ p : Nat, p < s.cfg.nPort → t.cmdIn[p]? = some []) ∧ t.cfg = s.cfg

/-- A port's step touches only what the port owns (20_memory.md R73, 60_exceptions.md R236): no oscillator, envelope or
mixer of another owner, no channel of which it is neither side, and no other port's stream changes. -/
def Obligations.PortsAreIsolated : Prop :=
  ∀ (s t : State) (p : Nat), portStep p s = .next t →
    (∀ o : Nat, s.cfg.ownOsc[o]? ≠ some p → t.oscs[o]? = s.oscs[o]?) ∧
    (∀ e : Nat, s.cfg.ownEnv[e]? ≠ some p → t.envs[e]? = s.envs[e]?) ∧
    (∀ (m : Nat) (mc : MixerCfg), s.cfg.mixers[m]? = some mc → mc.owner ≠ p → t.gains[m]? = s.gains[m]?) ∧
    (∀ (c : Nat) (cc : ChannelCfg), s.cfg.channels[c]? = some cc → cc.prod ≠ p → cc.cons ≠ p →
      t.chans[c]? = s.chans[c]?) ∧
    (∀ q : Nat, q ≠ p → t.cmdIn[q]? = s.cmdIn[q]? ∧ t.respOut[q]? = s.respOut[q]?)

/-- Every step sends exactly one response on its port, of the length its status calls for, and takes exactly the words
of its command: those of the payload too when the command completed, the one word when it faulted or was refused
(30_encoding.md R85, R86, R87). -/
def Obligations.EveryStepSendsOneResponse : Prop :=
  ∀ (s t : State) (p : Nat) (w : Word) (rest out : List Word),
    StateOk s → s.cmdIn[p]? = some (w :: rest) → s.respOut[p]? = some out → portStep p s = .next t →
    (∃ (i : Instr) (data : List Word), decode w = .ok i ∧ plen s.cfg i ≤ rest.length ∧
      t.cmdIn = s.cmdIn.set p (rest.drop (plen s.cfg i)) ∧
      ((data.length = rlen s.cfg i ∧ t.respOut = s.respOut.set p (out ++ 0x00#32 :: data)) ∨
       (data = List.replicate s.cfg.block 0#32 ∧ t.respOut = s.respOut.set p (out ++ 0x01#32 :: data)) ∨
       (data = [] ∧ t.respOut = s.respOut.set p (out ++ 0x02#32 :: data)))) ∨
    (t.cmdIn = s.cmdIn.set p rest ∧
      ((∃ code, 1 ≤ code ∧ code ≤ 7 ∧ t.respOut = s.respOut.set p (out ++ [BitVec.ofNat 32 (0x80 + code)])) ∨
       t.respOut = s.respOut.set p (out ++ [0xFF#32])))

/-! ### The shape of the reference sine -/

/-- The reference sine is the sine (40_oscillator.md R113): at every phase it is within `2^-24` of `sin(2π p / 2^32)`.
The nearest binary32 value, which R113 asks for, is within `2^-25`; that the model's value is that one is log entry 3. -/
def Obligations.ReferenceSineIsNearTheRealSine : Prop :=
  ∀ (c : Config) (p : Word), c.sineImpl = .reference →
    |((realOf (sine c p) : ℚ) : ℝ) - Real.sin (2 * Real.pi * p.toNat / 2 ^ 32)| ≤ 1 / 2 ^ 24
end

