-- ==== Sys2Proof/Laws/State.lean ====
section
/-!
SUPPORT. One lemma per field per update of the state, true by rfl, so that no proof unfolds a record update.
-/

namespace Sys2Proof.Machine

/-! ### `consume` -/

@[simp] theorem consume_cmdIn (n : Nat) (s : State) : (consume n s).cmdIn = s.cmdIn.set s.port ((pending s s.port).drop n) := rfl
@[simp] theorem consume_respOut (n : Nat) (s : State) : (consume n s).respOut = s.respOut := rfl
@[simp] theorem consume_oscs (n : Nat) (s : State) : (consume n s).oscs = s.oscs := rfl
@[simp] theorem consume_envs (n : Nat) (s : State) : (consume n s).envs = s.envs := rfl
@[simp] theorem consume_gains (n : Nat) (s : State) : (consume n s).gains = s.gains := rfl
@[simp] theorem consume_chans (n : Nat) (s : State) : (consume n s).chans = s.chans := rfl
@[simp] theorem consume_fault (n : Nat) (s : State) : (consume n s).fault = s.fault := rfl
@[simp] theorem consume_fport (n : Nat) (s : State) : (consume n s).fport = s.fport := rfl
@[simp] theorem consume_fcmd (n : Nat) (s : State) : (consume n s).fcmd = s.fcmd := rfl
@[simp] theorem consume_cfg (n : Nat) (s : State) : (consume n s).cfg = s.cfg := rfl
@[simp] theorem consume_port (n : Nat) (s : State) : (consume n s).port = s.port := rfl
@[simp] theorem consume_arbTurn (n : Nat) (s : State) : (consume n s).arbTurn = s.arbTurn := rfl
@[simp] theorem consume_nanDraws (n : Nat) (s : State) : (consume n s).nanDraws = s.nanDraws := rfl

/-! ### `respond` -/

@[simp] theorem respond_cmdIn (ws : List Word) (s : State) : (respond ws s).cmdIn = s.cmdIn := rfl
@[simp] theorem respond_respOut (ws : List Word) (s : State) : (respond ws s).respOut = s.respOut.set s.port (s.respOut.getD s.port [] ++ ws) := rfl
@[simp] theorem respond_oscs (ws : List Word) (s : State) : (respond ws s).oscs = s.oscs := rfl
@[simp] theorem respond_envs (ws : List Word) (s : State) : (respond ws s).envs = s.envs := rfl
@[simp] theorem respond_gains (ws : List Word) (s : State) : (respond ws s).gains = s.gains := rfl
@[simp] theorem respond_chans (ws : List Word) (s : State) : (respond ws s).chans = s.chans := rfl
@[simp] theorem respond_fault (ws : List Word) (s : State) : (respond ws s).fault = s.fault := rfl
@[simp] theorem respond_fport (ws : List Word) (s : State) : (respond ws s).fport = s.fport := rfl
@[simp] theorem respond_fcmd (ws : List Word) (s : State) : (respond ws s).fcmd = s.fcmd := rfl
@[simp] theorem respond_cfg (ws : List Word) (s : State) : (respond ws s).cfg = s.cfg := rfl
@[simp] theorem respond_port (ws : List Word) (s : State) : (respond ws s).port = s.port := rfl
@[simp] theorem respond_arbTurn (ws : List Word) (s : State) : (respond ws s).arbTurn = s.arbTurn := rfl
@[simp] theorem respond_nanDraws (ws : List Word) (s : State) : (respond ws s).nanDraws = s.nanDraws := rfl

/-! ### `setOsc` -/

@[simp] theorem setOsc_cmdIn (o : Nat) (v : OscState) (s : State) : (setOsc o v s).cmdIn = s.cmdIn := rfl
@[simp] theorem setOsc_respOut (o : Nat) (v : OscState) (s : State) : (setOsc o v s).respOut = s.respOut := rfl
@[simp] theorem setOsc_oscs (o : Nat) (v : OscState) (s : State) : (setOsc o v s).oscs = s.oscs.set o v := rfl
@[simp] theorem setOsc_envs (o : Nat) (v : OscState) (s : State) : (setOsc o v s).envs = s.envs := rfl
@[simp] theorem setOsc_gains (o : Nat) (v : OscState) (s : State) : (setOsc o v s).gains = s.gains := rfl
@[simp] theorem setOsc_chans (o : Nat) (v : OscState) (s : State) : (setOsc o v s).chans = s.chans := rfl
@[simp] theorem setOsc_fault (o : Nat) (v : OscState) (s : State) : (setOsc o v s).fault = s.fault := rfl
@[simp] theorem setOsc_fport (o : Nat) (v : OscState) (s : State) : (setOsc o v s).fport = s.fport := rfl
@[simp] theorem setOsc_fcmd (o : Nat) (v : OscState) (s : State) : (setOsc o v s).fcmd = s.fcmd := rfl
@[simp] theorem setOsc_cfg (o : Nat) (v : OscState) (s : State) : (setOsc o v s).cfg = s.cfg := rfl
@[simp] theorem setOsc_port (o : Nat) (v : OscState) (s : State) : (setOsc o v s).port = s.port := rfl
@[simp] theorem setOsc_arbTurn (o : Nat) (v : OscState) (s : State) : (setOsc o v s).arbTurn = s.arbTurn := rfl
@[simp] theorem setOsc_nanDraws (o : Nat) (v : OscState) (s : State) : (setOsc o v s).nanDraws = s.nanDraws := rfl

/-! ### `setEnv` -/

@[simp] theorem setEnv_cmdIn (e : Nat) (v : EnvState) (s : State) : (setEnv e v s).cmdIn = s.cmdIn := rfl
@[simp] theorem setEnv_respOut (e : Nat) (v : EnvState) (s : State) : (setEnv e v s).respOut = s.respOut := rfl
@[simp] theorem setEnv_oscs (e : Nat) (v : EnvState) (s : State) : (setEnv e v s).oscs = s.oscs := rfl
@[simp] theorem setEnv_envs (e : Nat) (v : EnvState) (s : State) : (setEnv e v s).envs = s.envs.set e v := rfl
@[simp] theorem setEnv_gains (e : Nat) (v : EnvState) (s : State) : (setEnv e v s).gains = s.gains := rfl
@[simp] theorem setEnv_chans (e : Nat) (v : EnvState) (s : State) : (setEnv e v s).chans = s.chans := rfl
@[simp] theorem setEnv_fault (e : Nat) (v : EnvState) (s : State) : (setEnv e v s).fault = s.fault := rfl
@[simp] theorem setEnv_fport (e : Nat) (v : EnvState) (s : State) : (setEnv e v s).fport = s.fport := rfl
@[simp] theorem setEnv_fcmd (e : Nat) (v : EnvState) (s : State) : (setEnv e v s).fcmd = s.fcmd := rfl
@[simp] theorem setEnv_cfg (e : Nat) (v : EnvState) (s : State) : (setEnv e v s).cfg = s.cfg := rfl
@[simp] theorem setEnv_port (e : Nat) (v : EnvState) (s : State) : (setEnv e v s).port = s.port := rfl
@[simp] theorem setEnv_arbTurn (e : Nat) (v : EnvState) (s : State) : (setEnv e v s).arbTurn = s.arbTurn := rfl
@[simp] theorem setEnv_nanDraws (e : Nat) (v : EnvState) (s : State) : (setEnv e v s).nanDraws = s.nanDraws := rfl

/-! ### `setGain` -/

@[simp] theorem setGain_cmdIn (m i : Nat) (g : F32) (s : State) : (setGain m i g s).cmdIn = s.cmdIn := rfl
@[simp] theorem setGain_respOut (m i : Nat) (g : F32) (s : State) : (setGain m i g s).respOut = s.respOut := rfl
@[simp] theorem setGain_oscs (m i : Nat) (g : F32) (s : State) : (setGain m i g s).oscs = s.oscs := rfl
@[simp] theorem setGain_envs (m i : Nat) (g : F32) (s : State) : (setGain m i g s).envs = s.envs := rfl
@[simp] theorem setGain_gains (m i : Nat) (g : F32) (s : State) : (setGain m i g s).gains = s.gains.set m ((gainsOf s m).set i g) := rfl
@[simp] theorem setGain_chans (m i : Nat) (g : F32) (s : State) : (setGain m i g s).chans = s.chans := rfl
@[simp] theorem setGain_fault (m i : Nat) (g : F32) (s : State) : (setGain m i g s).fault = s.fault := rfl
@[simp] theorem setGain_fport (m i : Nat) (g : F32) (s : State) : (setGain m i g s).fport = s.fport := rfl
@[simp] theorem setGain_fcmd (m i : Nat) (g : F32) (s : State) : (setGain m i g s).fcmd = s.fcmd := rfl
@[simp] theorem setGain_cfg (m i : Nat) (g : F32) (s : State) : (setGain m i g s).cfg = s.cfg := rfl
@[simp] theorem setGain_port (m i : Nat) (g : F32) (s : State) : (setGain m i g s).port = s.port := rfl
@[simp] theorem setGain_arbTurn (m i : Nat) (g : F32) (s : State) : (setGain m i g s).arbTurn = s.arbTurn := rfl
@[simp] theorem setGain_nanDraws (m i : Nat) (g : F32) (s : State) : (setGain m i g s).nanDraws = s.nanDraws := rfl

/-! ### `setChan` -/

@[simp] theorem setChan_cmdIn (c : Nat) (v : ChanState) (s : State) : (setChan c v s).cmdIn = s.cmdIn := rfl
@[simp] theorem setChan_respOut (c : Nat) (v : ChanState) (s : State) : (setChan c v s).respOut = s.respOut := rfl
@[simp] theorem setChan_oscs (c : Nat) (v : ChanState) (s : State) : (setChan c v s).oscs = s.oscs := rfl
@[simp] theorem setChan_envs (c : Nat) (v : ChanState) (s : State) : (setChan c v s).envs = s.envs := rfl
@[simp] theorem setChan_gains (c : Nat) (v : ChanState) (s : State) : (setChan c v s).gains = s.gains := rfl
@[simp] theorem setChan_chans (c : Nat) (v : ChanState) (s : State) : (setChan c v s).chans = s.chans.set c v := rfl
@[simp] theorem setChan_fault (c : Nat) (v : ChanState) (s : State) : (setChan c v s).fault = s.fault := rfl
@[simp] theorem setChan_fport (c : Nat) (v : ChanState) (s : State) : (setChan c v s).fport = s.fport := rfl
@[simp] theorem setChan_fcmd (c : Nat) (v : ChanState) (s : State) : (setChan c v s).fcmd = s.fcmd := rfl
@[simp] theorem setChan_cfg (c : Nat) (v : ChanState) (s : State) : (setChan c v s).cfg = s.cfg := rfl
@[simp] theorem setChan_port (c : Nat) (v : ChanState) (s : State) : (setChan c v s).port = s.port := rfl
@[simp] theorem setChan_arbTurn (c : Nat) (v : ChanState) (s : State) : (setChan c v s).arbTurn = s.arbTurn := rfl
@[simp] theorem setChan_nanDraws (c : Nat) (v : ChanState) (s : State) : (setChan c v s).nanDraws = s.nanDraws := rfl

/-! ### `setDraws` -/

@[simp] theorem setDraws_cmdIn (k : Nat) (s : State) : (setDraws k s).cmdIn = s.cmdIn := rfl
@[simp] theorem setDraws_respOut (k : Nat) (s : State) : (setDraws k s).respOut = s.respOut := rfl
@[simp] theorem setDraws_oscs (k : Nat) (s : State) : (setDraws k s).oscs = s.oscs := rfl
@[simp] theorem setDraws_envs (k : Nat) (s : State) : (setDraws k s).envs = s.envs := rfl
@[simp] theorem setDraws_gains (k : Nat) (s : State) : (setDraws k s).gains = s.gains := rfl
@[simp] theorem setDraws_chans (k : Nat) (s : State) : (setDraws k s).chans = s.chans := rfl
@[simp] theorem setDraws_fault (k : Nat) (s : State) : (setDraws k s).fault = s.fault := rfl
@[simp] theorem setDraws_fport (k : Nat) (s : State) : (setDraws k s).fport = s.fport := rfl
@[simp] theorem setDraws_fcmd (k : Nat) (s : State) : (setDraws k s).fcmd = s.fcmd := rfl
@[simp] theorem setDraws_cfg (k : Nat) (s : State) : (setDraws k s).cfg = s.cfg := rfl
@[simp] theorem setDraws_port (k : Nat) (s : State) : (setDraws k s).port = s.port := rfl
@[simp] theorem setDraws_arbTurn (k : Nat) (s : State) : (setDraws k s).arbTurn = s.arbTurn := rfl
@[simp] theorem setDraws_nanDraws (k : Nat) (s : State) : (setDraws k s).nanDraws = k := rfl

/-! ### `takeFault` -/

@[simp] theorem takeFault_cmdIn (code : FaultCode) (cmd : Word) (s : State) : (takeFault code cmd s).cmdIn = s.cmdIn.set s.port ((pending s s.port).drop 1) := rfl
@[simp] theorem takeFault_respOut (code : FaultCode) (cmd : Word) (s : State) : (takeFault code cmd s).respOut = s.respOut.set s.port (s.respOut.getD s.port [] ++ [(Status.fault code).word]) := rfl
@[simp] theorem takeFault_oscs (code : FaultCode) (cmd : Word) (s : State) : (takeFault code cmd s).oscs = s.oscs := rfl
@[simp] theorem takeFault_envs (code : FaultCode) (cmd : Word) (s : State) : (takeFault code cmd s).envs = s.envs := rfl
@[simp] theorem takeFault_gains (code : FaultCode) (cmd : Word) (s : State) : (takeFault code cmd s).gains = s.gains := rfl
@[simp] theorem takeFault_chans (code : FaultCode) (cmd : Word) (s : State) : (takeFault code cmd s).chans = s.chans := rfl
@[simp] theorem takeFault_fault (code : FaultCode) (cmd : Word) (s : State) : (takeFault code cmd s).fault = BitVec.ofNat 8 code.code := rfl
@[simp] theorem takeFault_fport (code : FaultCode) (cmd : Word) (s : State) : (takeFault code cmd s).fport = BitVec.ofNat 8 s.port := rfl
@[simp] theorem takeFault_fcmd (code : FaultCode) (cmd : Word) (s : State) : (takeFault code cmd s).fcmd = cmd := rfl
@[simp] theorem takeFault_cfg (code : FaultCode) (cmd : Word) (s : State) : (takeFault code cmd s).cfg = s.cfg := rfl
@[simp] theorem takeFault_port (code : FaultCode) (cmd : Word) (s : State) : (takeFault code cmd s).port = s.port := rfl
@[simp] theorem takeFault_arbTurn (code : FaultCode) (cmd : Word) (s : State) : (takeFault code cmd s).arbTurn = s.arbTurn := rfl
@[simp] theorem takeFault_nanDraws (code : FaultCode) (cmd : Word) (s : State) : (takeFault code cmd s).nanDraws = s.nanDraws := rfl

/-! ### `refuseHalted` -/

@[simp] theorem refuseHalted_cmdIn (s : State) : (refuseHalted s).cmdIn = s.cmdIn.set s.port ((pending s s.port).drop 1) := rfl
@[simp] theorem refuseHalted_respOut (s : State) : (refuseHalted s).respOut = s.respOut.set s.port (s.respOut.getD s.port [] ++ [Status.halted.word]) := rfl
@[simp] theorem refuseHalted_oscs (s : State) : (refuseHalted s).oscs = s.oscs := rfl
@[simp] theorem refuseHalted_envs (s : State) : (refuseHalted s).envs = s.envs := rfl
@[simp] theorem refuseHalted_gains (s : State) : (refuseHalted s).gains = s.gains := rfl
@[simp] theorem refuseHalted_chans (s : State) : (refuseHalted s).chans = s.chans := rfl
@[simp] theorem refuseHalted_fault (s : State) : (refuseHalted s).fault = s.fault := rfl
@[simp] theorem refuseHalted_fport (s : State) : (refuseHalted s).fport = s.fport := rfl
@[simp] theorem refuseHalted_fcmd (s : State) : (refuseHalted s).fcmd = s.fcmd := rfl
@[simp] theorem refuseHalted_cfg (s : State) : (refuseHalted s).cfg = s.cfg := rfl
@[simp] theorem refuseHalted_port (s : State) : (refuseHalted s).port = s.port := rfl
@[simp] theorem refuseHalted_arbTurn (s : State) : (refuseHalted s).arbTurn = s.arbTurn := rfl
@[simp] theorem refuseHalted_nanDraws (s : State) : (refuseHalted s).nanDraws = s.nanDraws := rfl

/-! ### `complete` -/

@[simp] theorem complete_cmdIn (i : Instr) (st : Status) (data : List Word) (s : State) : (complete i st data s).cmdIn = s.cmdIn.set s.port ((pending s s.port).drop (1 + plen s.cfg i)) := rfl
@[simp] theorem complete_respOut (i : Instr) (st : Status) (data : List Word) (s : State) : (complete i st data s).respOut = s.respOut.set s.port (s.respOut.getD s.port [] ++ (st.word :: data)) := rfl
@[simp] theorem complete_oscs (i : Instr) (st : Status) (data : List Word) (s : State) : (complete i st data s).oscs = s.oscs := rfl
@[simp] theorem complete_envs (i : Instr) (st : Status) (data : List Word) (s : State) : (complete i st data s).envs = s.envs := rfl
@[simp] theorem complete_gains (i : Instr) (st : Status) (data : List Word) (s : State) : (complete i st data s).gains = s.gains := rfl
@[simp] theorem complete_chans (i : Instr) (st : Status) (data : List Word) (s : State) : (complete i st data s).chans = s.chans := rfl
@[simp] theorem complete_fault (i : Instr) (st : Status) (data : List Word) (s : State) : (complete i st data s).fault = s.fault := rfl
@[simp] theorem complete_fport (i : Instr) (st : Status) (data : List Word) (s : State) : (complete i st data s).fport = s.fport := rfl
@[simp] theorem complete_fcmd (i : Instr) (st : Status) (data : List Word) (s : State) : (complete i st data s).fcmd = s.fcmd := rfl
@[simp] theorem complete_cfg (i : Instr) (st : Status) (data : List Word) (s : State) : (complete i st data s).cfg = s.cfg := rfl
@[simp] theorem complete_port (i : Instr) (st : Status) (data : List Word) (s : State) : (complete i st data s).port = s.port := rfl
@[simp] theorem complete_arbTurn (i : Instr) (st : Status) (data : List Word) (s : State) : (complete i st data s).arbTurn = s.arbTurn := rfl
@[simp] theorem complete_nanDraws (i : Instr) (st : Status) (data : List Word) (s : State) : (complete i st data s).nanDraws = s.nanDraws := rfl

/-! ### `serve` -/

@[simp] theorem serve_cmdIn (p : Nat) (s : State) : (serve p s).cmdIn = s.cmdIn := rfl
@[simp] theorem serve_respOut (p : Nat) (s : State) : (serve p s).respOut = s.respOut := rfl
@[simp] theorem serve_oscs (p : Nat) (s : State) : (serve p s).oscs = s.oscs := rfl
@[simp] theorem serve_envs (p : Nat) (s : State) : (serve p s).envs = s.envs := rfl
@[simp] theorem serve_gains (p : Nat) (s : State) : (serve p s).gains = s.gains := rfl
@[simp] theorem serve_chans (p : Nat) (s : State) : (serve p s).chans = s.chans := rfl
@[simp] theorem serve_fault (p : Nat) (s : State) : (serve p s).fault = s.fault := rfl
@[simp] theorem serve_fport (p : Nat) (s : State) : (serve p s).fport = s.fport := rfl
@[simp] theorem serve_fcmd (p : Nat) (s : State) : (serve p s).fcmd = s.fcmd := rfl
@[simp] theorem serve_cfg (p : Nat) (s : State) : (serve p s).cfg = s.cfg := rfl
@[simp] theorem serve_port (p : Nat) (s : State) : (serve p s).port = p := rfl
@[simp] theorem serve_arbTurn (p : Nat) (s : State) : (serve p s).arbTurn = s.arbTurn := rfl
@[simp] theorem serve_nanDraws (p : Nat) (s : State) : (serve p s).nanDraws = s.nanDraws := rfl

/-! ### `tick` -/

@[simp] theorem tick_cmdIn (s : State) : (tick s).cmdIn = s.cmdIn := rfl
@[simp] theorem tick_respOut (s : State) : (tick s).respOut = s.respOut := rfl
@[simp] theorem tick_oscs (s : State) : (tick s).oscs = s.oscs := rfl
@[simp] theorem tick_envs (s : State) : (tick s).envs = s.envs := rfl
@[simp] theorem tick_gains (s : State) : (tick s).gains = s.gains := rfl
@[simp] theorem tick_chans (s : State) : (tick s).chans = s.chans := rfl
@[simp] theorem tick_fault (s : State) : (tick s).fault = s.fault := rfl
@[simp] theorem tick_fport (s : State) : (tick s).fport = s.fport := rfl
@[simp] theorem tick_fcmd (s : State) : (tick s).fcmd = s.fcmd := rfl
@[simp] theorem tick_cfg (s : State) : (tick s).cfg = s.cfg := rfl
@[simp] theorem tick_port (s : State) : (tick s).port = s.port := rfl
@[simp] theorem tick_arbTurn (s : State) : (tick s).arbTurn = s.arbTurn + 1 := rfl
@[simp] theorem tick_nanDraws (s : State) : (tick s).nanDraws = s.nanDraws := rfl

/-! ### `placeWords` -/

@[simp] theorem placeWords_cmdIn (ws : List Word) (s : State) : (placeWords ws s).cmdIn = (s.cmdIn.map fun _ => []).set s.port ws := rfl
@[simp] theorem placeWords_respOut (ws : List Word) (s : State) : (placeWords ws s).respOut = s.respOut := rfl
@[simp] theorem placeWords_oscs (ws : List Word) (s : State) : (placeWords ws s).oscs = s.oscs := rfl
@[simp] theorem placeWords_envs (ws : List Word) (s : State) : (placeWords ws s).envs = s.envs := rfl
@[simp] theorem placeWords_gains (ws : List Word) (s : State) : (placeWords ws s).gains = s.gains := rfl
@[simp] theorem placeWords_chans (ws : List Word) (s : State) : (placeWords ws s).chans = s.chans := rfl
@[simp] theorem placeWords_fault (ws : List Word) (s : State) : (placeWords ws s).fault = s.fault := rfl
@[simp] theorem placeWords_fport (ws : List Word) (s : State) : (placeWords ws s).fport = s.fport := rfl
@[simp] theorem placeWords_fcmd (ws : List Word) (s : State) : (placeWords ws s).fcmd = s.fcmd := rfl
@[simp] theorem placeWords_cfg (ws : List Word) (s : State) : (placeWords ws s).cfg = s.cfg := rfl
@[simp] theorem placeWords_port (ws : List Word) (s : State) : (placeWords ws s).port = s.port := rfl
@[simp] theorem placeWords_arbTurn (ws : List Word) (s : State) : (placeWords ws s).arbTurn = s.arbTurn := rfl
@[simp] theorem placeWords_nanDraws (ws : List Word) (s : State) : (placeWords ws s).nanDraws = s.nanDraws := rfl

end Sys2Proof.Machine
end

