-- ==== Sys2Proof/Laws/Ops.lean ====
section
/-!
SUPPORT. What each shared operation can do, said once: proofs cite these lemmas instead of unfolding the operations.
-/

namespace Sys2Proof.Machine

/-! ### Streams -/

theorem pending_eq_of_getElem? {s : State} {p : Nat} {ws : List Word} (h : s.cmdIn[p]? = some ws) :
    pending s p = ws := by
  simp [pending, List.getD_eq_getElem?_getD, h]

theorem getElem?_of_pending_cons {s : State} {p : Nat} {w : Word} {ws : List Word} (h : pending s p = w :: ws) :
    s.cmdIn[p]? = some (w :: ws) := by
  cases hp : s.cmdIn[p]? with
  | none => simp [pending, List.getD_eq_getElem?_getD, hp] at h
  | some x => simpa [pending, List.getD_eq_getElem?_getD, hp] using h

@[simp] theorem pending_serve (s : State) (p q : Nat) : pending (serve q s) p = pending s p := rfl
@[simp] theorem pending_tick (s : State) (p : Nat) : pending (tick s) p = pending s p := rfl

/-! ### Outcomes that are no next state -/

theorem fault_ne_next {f : Fault} {t : State} : (Host.Outcome.fault f : Result) ≠ .next t := nofun
theorem refused_ne_next {r : Refusal} {t : State} : (Host.Outcome.refused r : Result) ≠ .next t := nofun

/-! ### The checks -/

theorem halted_iff (s : State) : halted s = true ↔ s.fault ≠ 0#8 := by simp [halted]
theorem not_halted_iff (s : State) : halted s = false ↔ s.fault = 0#8 := by simp [halted]

/-- What `checked` can answer (R242, checks (1), (3), (4)). -/
theorem checked_cases (i : Instr) (s : State) (run : Result) :
    (s.fault ≠ 0#8 ∧ checked i s run = .next (refuseHalted s)) ∨
    (s.fault = 0#8 ∧ instanceExists s.cfg i = false ∧
      checked i s run = .next (takeFault .badInstance (encode i) s)) ∨
    (s.fault = 0#8 ∧ instanceExists s.cfg i = true ∧ portOwns s.cfg s.port i = false ∧
      checked i s run = .next (takeFault .owner (encode i) s)) ∨
    (s.fault = 0#8 ∧ instanceExists s.cfg i = true ∧ portOwns s.cfg s.port i = true ∧ checked i s run = run) := by
  unfold checked
  by_cases h0 : s.fault = 0#8
  · by_cases h1 : instanceExists s.cfg i = false
    · simp [halted, h0, h1]
    · by_cases h2 : portOwns s.cfg s.port i = false
      · simp [halted, h0, Bool.eq_true_of_not_eq_false h1, h2]
      · simp [halted, h0, Bool.eq_true_of_not_eq_false h1, Bool.eq_true_of_not_eq_false h2]
  · simp [halted, h0]

/-- If `checked` answers a next state, it is a refusal, one of two faults, or the command's own answer. -/
theorem checked_next {i : Instr} {s t : State} {run : Result} (h : checked i s run = .next t) :
    (s.fault ≠ 0#8 ∧ t = refuseHalted s) ∨
    (s.fault = 0#8 ∧ instanceExists s.cfg i = false ∧ t = takeFault .badInstance (encode i) s) ∨
    (s.fault = 0#8 ∧ instanceExists s.cfg i = true ∧ portOwns s.cfg s.port i = false ∧
      t = takeFault .owner (encode i) s) ∨
    (s.fault = 0#8 ∧ instanceExists s.cfg i = true ∧ portOwns s.cfg s.port i = true ∧ run = .next t) := by
  rcases checked_cases i s run with ⟨h0, e⟩ | ⟨h0, h1, e⟩ | ⟨h0, h1, h2, e⟩ | ⟨h0, h1, h2, e⟩ <;> rw [e] at h
  · exact .inl ⟨h0, by simpa using h.symm⟩
  · exact .inr (.inl ⟨h0, h1, by simpa using h.symm⟩)
  · exact .inr (.inr (.inl ⟨h0, h1, h2, by simpa using h.symm⟩))
  · exact .inr (.inr (.inr ⟨h0, h1, h2, h⟩))

/-- The checks pass: the command's own answer stands. -/
theorem checked_pass {i : Instr} {s : State} {run : Result} (h0 : s.fault = 0#8)
    (h1 : instanceExists s.cfg i = true) (h2 : portOwns s.cfg s.port i = true) : checked i s run = run := by
  simp [checked, halted, h0, h1, h2]

/-- A halted block refuses the command (R241). -/
theorem checked_halted {i : Instr} {s : State} {run : Result} (h0 : s.fault ≠ 0#8) :
    checked i s run = .next (refuseHalted s) := by
  simp [checked, halted, h0]

/-- If `withPayload` answers a next state, the payload was there and `run` was given exactly it (R86). -/
theorem withPayload_next {i : Instr} {s t : State} {run : List Word → State} (h : withPayload i s run = .next t) :
    plen s.cfg i ≤ (payloadWords s).length ∧ t = run ((payloadWords s).take (plen s.cfg i)) := by
  unfold withPayload at h
  split at h
  · cases h
  · exact ⟨by omega, by simpa using h.symm⟩

/-- The payload is there (R86). -/
theorem withPayload_ready {i : Instr} {s : State} {run : List Word → State}
    (h : plen s.cfg i ≤ (payloadWords s).length) :
    withPayload i s run = .next (run ((payloadWords s).take (plen s.cfg i))) := by
  simp [withPayload, Nat.not_lt.mpr h]

/-- A command without payload words always has its payload. -/
theorem withPayload_none {i : Instr} {s : State} {run : List Word → State} (h : plen s.cfg i = 0) :
    withPayload i s run = .next (run []) := by
  simp [withPayload, h]

theorem withPayload_ne_refused {i : Instr} {s : State} {run : List Word → State} {r : Refusal} :
    withPayload i s run ≠ .refused r := by
  unfold withPayload; split <;> simp

theorem checked_ne_refused {i : Instr} {s : State} {run : Result} {r : Refusal} (h : run ≠ .refused r) :
    checked i s run ≠ .refused r := by
  rcases checked_cases i s run with ⟨_, e⟩ | ⟨_, _, e⟩ | ⟨_, _, _, e⟩ | ⟨_, _, _, e⟩ <;> simp [e, h]

/-- What the `IDX` check can answer (R234). -/
theorem mixIndexChecked_next {i : Instr} {m idx : Nat} {s t : State} {run : Result}
    (h : mixIndexChecked i m idx s run = .next t) :
    (nSrc s.cfg m ≤ idx ∧ t = takeFault .mixIndex (encode i) s) ∨ (idx < nSrc s.cfg m ∧ run = .next t) := by
  unfold mixIndexChecked at h
  split at h
  · exact .inl ⟨‹_›, by simpa using h.symm⟩
  · exact .inr ⟨by omega, h⟩

/-- What a disconnect can answer before its own effect (R237). -/
theorem rdvOnly_next {i : Instr} {c : Nat} {s t : State} {run : Result} (h : rdvOnly i c s run = .next t) :
    (chMode s.cfg c = .cell ∧ t = takeFault .channelMisuse (encode i) s) ∨
    (chMode s.cfg c = .rdv ∧ run = .next t) := by
  unfold rdvOnly at h
  split at h
  · exact .inl ⟨‹_›, by simpa using h.symm⟩
  · exact .inr ⟨‹_›, h⟩

/-! ### Push and pop -/

/-- What a push on a cell can answer (R192). -/
theorem pushCell_next {c : Nat} {s t : State} (h : pushCell c s = .next t) :
    ((chan s c).slot.isSome = true ∧ t = takeFault .cellOverwrite (encode (.hchPush c)) s) ∨
    ((chan s c).slot = none ∧ s.cfg.block ≤ (payloadWords s).length ∧
      t = storeBlock c ((payloadWords s).take s.cfg.block) s) := by
  unfold pushCell at h
  split at h
  · exact .inl ⟨‹_›, by simpa using h.symm⟩
  · exact .inr ⟨Option.not_isSome_iff_eq_none.mp ‹_›, withPayload_next h⟩

/-- What a push on a rendezvous channel can answer (R193). -/
theorem pushRdv_next {c : Nat} {s t : State} (h : pushRdv c s = .next t) :
    ((chan s c).popen = false ∧ t = takeFault .channelMisuse (encode (.hchPush c)) s) ∨
    ((chan s c).popen = true ∧ s.cfg.block ≤ (payloadWords s).length ∧
      (((chan s c).copen = true ∧ (chan s c).slot = none ∧
          t = storeBlock c ((payloadWords s).take s.cfg.block) s) ∨
       ((chan s c).copen = false ∧ t = complete (.hchPush c) .disconnected [] s))) := by
  unfold pushRdv at h
  split at h
  · exact .inl ⟨‹_›, by simpa using h.symm⟩
  · rename_i hp
    split at h
    · cases h
    · rename_i hh
      obtain ⟨hl, rfl⟩ := withPayload_next h
      refine .inr ⟨by simpa using hp, hl, ?_⟩
      cases hc : (chan s c).copen with
      | true => exact .inl ⟨rfl, by simpa [pushHolds, hc] using hh, by simp [plen]⟩
      | false => exact .inr ⟨rfl, by simp⟩

/-- What a pop on a cell can answer (R194). -/
theorem popCell_next {c : Nat} {s t : State} (h : popCell c s = .next t) :
    ((chan s c).slot = none ∧ t = takeFault .cellEmptyRead (encode (.hchPop c)) s) ∨
    (∃ b, (chan s c).slot = some b ∧ t = deliverBlock c b s) := by
  unfold popCell at h
  split at h
  · exact .inl ⟨‹_›, by simpa using h.symm⟩
  · exact .inr ⟨_, ‹_›, (withPayload_next h).2⟩

/-- What a pop on a rendezvous channel can answer (R195). -/
theorem popRdv_next {c : Nat} {s t : State} (h : popRdv c s = .next t) :
    ((chan s c).copen = false ∧ t = takeFault .channelMisuse (encode (.hchPop c)) s) ∨
    ((chan s c).copen = true ∧ ∃ b, (chan s c).slot = some b ∧ t = deliverBlock c b s) ∨
    ((chan s c).copen = true ∧ (chan s c).slot = none ∧ (chan s c).popen = false ∧
      t = complete (.hchPop c) .eos (silence s.cfg) s) := by
  unfold popRdv at h
  split at h
  · exact .inl ⟨‹_›, by simpa using h.symm⟩
  · rename_i hc
    have hc : (chan s c).copen = true := by simpa using hc
    split at h
    · cases h
    · rename_i hh
      obtain ⟨-, rfl⟩ := withPayload_next h
      cases hs : (chan s c).slot with
      | some b => exact .inr (.inl ⟨hc, b, rfl, by simp⟩)
      | none => exact .inr (.inr ⟨hc, rfl, by simpa [popHolds, hs] using hh, by simp⟩)

/-! ### Ports and steps -/

/-- What the step of a port can answer: it has a head word, which is rejected or executed (R86, R242). -/
theorem portStep_next {p : Nat} {s t : State} (h : portStep p s = .next t) :
    ∃ w ws, pending s p = w :: ws ∧
      ((∃ e, decode w = .error e ∧ t = rejectWord w (serve p s)) ∨
       (∃ i, decode w = .ok i ∧ exec i (serve p s) = .next t)) := by
  unfold portStep at h
  split at h
  · cases h
  · rename_i w ws hp
    refine ⟨w, ws, hp, ?_⟩
    split at h
    · exact .inl ⟨_, ‹_›, by simpa using h.symm⟩
    · exact .inr ⟨_, ‹_›, h⟩

/-- The port chosen is an enabled one (R66). -/
theorem chosenPort_mem {s : State} {p : Nat} (h : chosenPort s = some p) : p ∈ enabledPorts s := by
  unfold chosenPort at h
  split at h
  · cases h
  · rename_i q hq
    rw [hq]; simpa using h.symm
  · rename_i q r qs hq
    rw [hq]; exact List.mem_of_getElem? h

theorem mem_enabledPorts {s : State} {p : Nat} :
    p ∈ enabledPorts s ↔ p < s.cfg.nPort ∧ enabled s p = true := by
  simp [enabledPorts]

theorem enabled_iff {s : State} {p : Nat} : enabled s p = true ↔ ∃ t, portStep p s = .next t := by
  unfold enabled
  split <;> simp_all

/-! ### Numerics -/

/-- A NaN result is a quiet NaN and uses up one draw (R17 (b), U3). -/
theorem nanResult_snd (k : Nat) : (nanResult k).2 = k + 1 := rfl

theorem nanResult_quiet (k : Nat) : (nanResult k).1 &&& 0x7FC00000#32 = 0x7FC00000#32 := by
  simp only [nanResult]
  ext i hi
  simp only [BitVec.getElem_and, BitVec.getElem_or]
  cases (Config.freeNaN k)[i] <;> cases (0x7FC00000#32)[i] <;> rfl

theorem roundMag_le (impl : Impl) (up : Bool) (num den : Nat) : roundMag impl up num den ≤ infMag := by
  simp only [roundMag]; exact Nat.min_le_right _ _

/-- A multiplication draws a NaN or leaves the draw count as it is. -/
theorem fmul_draws (c : Config) (k : Nat) (a b : F32) : fmul c k a b = nanResult k ∨ (fmul c k a b).2 = k := by
  unfold fmul; split
  · exact .inl rfl
  · split
    · split
      · exact .inl rfl
      · exact .inr rfl
    · exact .inr rfl

/-- An addition draws a NaN or leaves the draw count as it is. -/
theorem fadd_draws (c : Config) (k : Nat) (a b : F32) : fadd c k a b = nanResult k ∨ (fadd c k a b).2 = k := by
  unfold fadd; split
  · exact .inl rfl
  · split
    · split
      · exact .inl rfl
      · exact .inr rfl
    · split
      · exact .inr rfl
      · simp only; split
        · exact .inr rfl
        · exact .inr rfl

/-! ### Lengths of block results -/

theorem oscRender_length (c : Config) (n : Nat) (v : OscState) : (oscRender c n v).1.length = n := by
  induction n generalizing v with
  | zero => rfl
  | succ n ih => simp [oscRender, ih]

theorem oscRender_inc (c : Config) (n : Nat) (v : OscState) : (oscRender c n v).2.inc = v.inc := by
  induction n generalizing v with
  | zero => rfl
  | succ n ih => simp [oscRender, ih, oscNext]

theorem envProcs_length (c : Config) (k : Nat) (xs : List F32) (v : EnvState) :
    (envProcs c k xs v).1.1.length = xs.length := by
  induction xs generalizing k v with
  | nil => rfl
  | cons x xs ih => simp [envProcs, ih]

theorem mixLanes_length (c : Config) (gains ws : List F32) (n k : Nat) (ls : List Nat) :
    (mixLanes c gains ws n k ls).1.length = ls.length := by
  induction ls generalizing k with
  | nil => rfl
  | cons l ls ih => simp [mixLanes, ih]

end Sys2Proof.Machine
end

