-- ==== Sys2Proof/Laws/Exec.lean ====
section
/-!
SUPPORT. What a command can do, said once: `exec_next` says that a next state of `exec` is a refusal, a fault or the
completion of one of the effects listed in `Effect`. Invariants are derived from it by one case for each effect.
-/

namespace Sys2Proof.Machine

/-- The payload a command is given: the `plen` words after its command word (R86). -/
def payloadOf (i : Instr) (s : State) : List Word := (payloadWords s).take (plen s.cfg i)

/-- `Effect i s st data u`: the command `i`, completing in the state `s`, changes the units as in `u` and answers the
status `st` with the words `data`. One constructor for each way a command completes. -/
inductive Effect (s : State) : Instr → Status → List Word → State → Prop where
  | oscSetf (o : Nat) :
      Effect s (.oscSetf o) .ok []
        (setOsc o (oscSetFreq s.cfg (payloadAt (payloadOf (.oscSetf o) s) 0) (osc s o)) s)
  | oscNext (o : Nat) :
      Effect s (.oscNext o) .ok [(oscNext s.cfg (osc s o)).1] (setOsc o (oscNext s.cfg (osc s o)).2 s)
  | oscRender (o : Nat) :
      Effect s (.oscRender o) .ok (oscRender s.cfg s.cfg.block (osc s o)).1
        (setOsc o (oscRender s.cfg s.cfg.block (osc s o)).2 s)
  | oscRdst (o : Nat) : Effect s (.oscRdst o) .ok [(osc s o).pos, (osc s o).inc] s
  | envNon (e : Nat) : Effect s (.envNon e) .ok [] (setEnv e (envNoteOn (env s e)) s)
  | envNoff (e : Nat) : Effect s (.envNoff e) .ok [] (setEnv e (envNoteOff (env s e)) s)
  | envProc (e : Nat) (y : F32) (k : Nat) (v : EnvState)
      (h : envProc s.cfg s.nanDraws (payloadAt (payloadOf (.envProc e) s) 0) (env s e) = ((y, k), v)) :
      Effect s (.envProc e) .ok [y] (setDraws k (setEnv e v s))
  | envProcb (e : Nat) (ys : List F32) (k : Nat) (v : EnvState)
      (h : envProcs s.cfg s.nanDraws (payloadOf (.envProcb e) s) (env s e) = ((ys, k), v)) :
      Effect s (.envProcb e) .ok ys (setDraws k (setEnv e v s))
  | envRdst (e : Nat) :
      Effect s (.envRdst e) .ok
        [stageCode (env s e).stage, (env s e).epos, BitVec.ofNat 32 (rampLen s.cfg)] s
  | mixSetlvl (m j : Nat) (h : j < nSrc s.cfg m) :
      Effect s (.mixSetlvl m j) .ok [] (setGain m j (payloadAt (payloadOf (.mixSetlvl m j) s) 0) s)
  | mixMix1 (m : Nat) (y : F32) (k : Nat)
      (h : mixSum s.cfg s.nanDraws (gainsOf s m) (payloadOf (.mixMix1 m) s) = (y, k)) :
      Effect s (.mixMix1 m) .ok [y] (setDraws k s)
  | mixRender (m : Nat) (ys : List F32) (k : Nat)
      (h : mixLanes s.cfg (gainsOf s m) (payloadOf (.mixRender m) s) (nSrc s.cfg m) s.nanDraws
        (List.range s.cfg.block) = (ys, k)) :
      Effect s (.mixRender m) .ok ys (setDraws k s)
  | mixRdlvl (m j : Nat) (h : j < nSrc s.cfg m) : Effect s (.mixRdlvl m j) .ok [gain s m j] s
  | hchPush (c : Nat) (hslot : (chan s c).slot = none)
      (hopen : chMode s.cfg c = .rdv → (chan s c).popen = true ∧ (chan s c).copen = true) :
      Effect s (.hchPush c) .ok [] (setChan c { chan s c with slot := some (payloadOf (.hchPush c) s) } s)
  | hchPushGone (c : Nat) (hm : chMode s.cfg c = .rdv) (hp : (chan s c).popen = true)
      (hc : (chan s c).copen = false) : Effect s (.hchPush c) .disconnected [] s
  | hchPop (c : Nat) (b : Block) (hslot : (chan s c).slot = some b)
      (hopen : chMode s.cfg c = .rdv → (chan s c).copen = true) :
      Effect s (.hchPop c) .ok b (setChan c { chan s c with slot := none } s)
  | hchPopGone (c : Nat) (hm : chMode s.cfg c = .rdv) (hslot : (chan s c).slot = none)
      (hc : (chan s c).copen = true) (hp : (chan s c).popen = false) :
      Effect s (.hchPop c) .eos (silence s.cfg) s
  | hchClosep (c : Nat) (hm : chMode s.cfg c = .rdv) :
      Effect s (.hchClosep c) .ok [] (setChan c { chan s c with popen := false } s)
  | hchClosec (c : Nat) (hm : chMode s.cfg c = .rdv) :
      Effect s (.hchClosec c) .ok [] (setChan c { chan s c with copen := false } s)
  | hchRdst (c : Nat) : Effect s (.hchRdst c) .ok [channelWord (chMode s.cfg c) (chan s c)] s
  | sysNop : Effect s .sysNop .ok [] s
  | sysRdflt : Effect s .sysRdflt .ok [faultWord s, s.fcmd] s
  | sysRdcfg :
      Effect s .sysRdcfg .ok
        [BitVec.ofNat 32 s.cfg.sampleRate, BitVec.ofNat 32 s.cfg.block, BitVec.ofNat 32 s.cfg.rampTimeMs,
          BitVec.ofNat 32 (rampLen s.cfg), countsWord s.cfg] s

/-- The ways a command ends in a next state: refused by a halted block, a fault, or completed. -/
inductive Ends (i : Instr) (s t : State) : Prop where
  | refused (hf : s.fault ≠ 0#8) (hi : i ≠ .sysRdflt) (ht : t = refuseHalted s)
  | faults (hf : s.fault = 0#8) (hi : i ≠ .sysRdflt) (code : FaultCode) (ht : t = takeFault code (encode i) s)
  | completes (st : Status) (data : List Word) (u : State)
      (hf : s.fault = 0#8 ∨ i = .sysRdflt)
      (hx : instanceExists s.cfg i = true) (ho : portOwns s.cfg s.port i = true)
      (hp : plen s.cfg i ≤ (payloadWords s).length)
      (he : Effect s i st data u) (ht : t = complete i st data u)

/-- From the checks to the ways a command ends. -/
theorem ends_of_checked {i : Instr} {s t : State} {run : Result} (hi : i ≠ .sysRdflt)
    (h : checked i s run = .next t)
    (hrun : run = .next t → (∃ code, t = takeFault code (encode i) s) ∨
      (plen s.cfg i ≤ (payloadWords s).length ∧ ∃ st data u, Effect s i st data u ∧ t = complete i st data u)) :
    Ends i s t := by
  rcases checked_next h with ⟨hf, ht⟩ | ⟨hf, -, ht⟩ | ⟨hf, -, -, ht⟩ | ⟨hf, hx, ho, hr⟩
  · exact .refused hf hi ht
  · exact .faults hf hi _ ht
  · exact .faults hf hi _ ht
  · rcases hrun hr with ⟨code, ht⟩ | ⟨hp, st, data, u, he, ht⟩
    · exact .faults hf hi code ht
    · exact .completes st data u (.inl hf) hx ho hp he ht

/-- What `exec` can answer as a next state. -/
theorem exec_next {i : Instr} {s t : State} (h : exec i s = .next t) : Ends i s t := by
  cases i <;> simp only [exec] at h
  case oscSetf o =>
    refine ends_of_checked (by simp) h fun hr => .inr ?_
    obtain ⟨hp, ht⟩ := withPayload_next hr
    exact ⟨hp, _, _, _, .oscSetf o, ht⟩
  case oscNext o =>
    refine ends_of_checked (by simp) h fun hr => .inr ?_
    obtain ⟨hp, ht⟩ := withPayload_next hr
    exact ⟨hp, _, _, _, .oscNext o, ht⟩
  case oscRender o =>
    refine ends_of_checked (by simp) h fun hr => .inr ?_
    obtain ⟨hp, ht⟩ := withPayload_next hr
    exact ⟨hp, _, _, _, .oscRender o, ht⟩
  case oscRdst o =>
    refine ends_of_checked (by simp) h fun hr => .inr ?_
    obtain ⟨hp, ht⟩ := withPayload_next hr
    exact ⟨hp, _, _, _, .oscRdst o, ht⟩
  case envNon e =>
    refine ends_of_checked (by simp) h fun hr => .inr ?_
    obtain ⟨hp, ht⟩ := withPayload_next hr
    exact ⟨hp, _, _, _, .envNon e, ht⟩
  case envNoff e =>
    refine ends_of_checked (by simp) h fun hr => .inr ?_
    obtain ⟨hp, ht⟩ := withPayload_next hr
    exact ⟨hp, _, _, _, .envNoff e, ht⟩
  case envProc e =>
    refine ends_of_checked (by simp) h fun hr => .inr ?_
    obtain ⟨hp, ht⟩ := withPayload_next hr
    exact ⟨hp, _, _, _, .envProc e _ _ _ rfl, ht⟩
  case envProcb e =>
    refine ends_of_checked (by simp) h fun hr => .inr ?_
    obtain ⟨hp, ht⟩ := withPayload_next hr
    exact ⟨hp, _, _, _, .envProcb e _ _ _ rfl, ht⟩
  case envRdst e =>
    refine ends_of_checked (by simp) h fun hr => .inr ?_
    obtain ⟨hp, ht⟩ := withPayload_next hr
    exact ⟨hp, _, _, _, .envRdst e, ht⟩
  case mixSetlvl m j =>
    refine ends_of_checked (by simp) h fun hr => ?_
    rcases mixIndexChecked_next hr with ⟨-, ht⟩ | ⟨hj, hr⟩
    · exact .inl ⟨_, ht⟩
    · obtain ⟨hp, ht⟩ := withPayload_next hr
      exact .inr ⟨hp, _, _, _, .mixSetlvl m j hj, ht⟩
  case mixMix1 m =>
    refine ends_of_checked (by simp) h fun hr => .inr ?_
    obtain ⟨hp, ht⟩ := withPayload_next hr
    exact ⟨hp, _, _, _, .mixMix1 m _ _ rfl, ht⟩
  case mixRender m =>
    refine ends_of_checked (by simp) h fun hr => .inr ?_
    obtain ⟨hp, ht⟩ := withPayload_next hr
    exact ⟨hp, _, _, _, .mixRender m _ _ rfl, ht⟩
  case mixRdlvl m j =>
    refine ends_of_checked (by simp) h fun hr => ?_
    rcases mixIndexChecked_next hr with ⟨-, ht⟩ | ⟨hj, hr⟩
    · exact .inl ⟨_, ht⟩
    · obtain ⟨hp, ht⟩ := withPayload_next hr
      exact .inr ⟨hp, _, _, _, .mixRdlvl m j hj, ht⟩
  case hchPush c =>
    refine ends_of_checked (by simp) h fun hr => ?_
    split at hr
    · rename_i hm
      rcases pushCell_next hr with ⟨-, ht⟩ | ⟨hs, hp, ht⟩
      · exact .inl ⟨_, ht⟩
      · exact .inr ⟨hp, _, _, _, .hchPush c hs (by simp [hm]), ht⟩
    · rename_i hm
      rcases pushRdv_next hr with ⟨-, ht⟩ | ⟨ho, hp, ⟨hc, hs, ht⟩ | ⟨hc, ht⟩⟩
      · exact .inl ⟨_, ht⟩
      · exact .inr ⟨hp, _, _, _, .hchPush c hs (fun _ => ⟨ho, hc⟩), ht⟩
      · exact .inr ⟨hp, _, _, _, .hchPushGone c hm ho hc, ht⟩
  case hchPop c =>
    refine ends_of_checked (by simp) h fun hr => ?_
    split at hr
    · rename_i hm
      rcases popCell_next hr with ⟨-, ht⟩ | ⟨b, hs, ht⟩
      · exact .inl ⟨_, ht⟩
      · exact .inr ⟨Nat.zero_le _, _, _, _, .hchPop c b hs (by simp [hm]), ht⟩
    · rename_i hm
      rcases popRdv_next hr with ⟨-, ht⟩ | ⟨hc, b, hs, ht⟩ | ⟨hc, hs, ho, ht⟩
      · exact .inl ⟨_, ht⟩
      · exact .inr ⟨Nat.zero_le _, _, _, _, .hchPop c b hs (fun _ => hc), ht⟩
      · exact .inr ⟨Nat.zero_le _, _, _, _, .hchPopGone c hm hs hc ho, ht⟩
  case hchClosep c =>
    refine ends_of_checked (by simp) h fun hr => ?_
    rcases rdvOnly_next hr with ⟨-, ht⟩ | ⟨hm, hr⟩
    · exact .inl ⟨_, ht⟩
    · obtain ⟨hp, ht⟩ := withPayload_next hr
      exact .inr ⟨hp, _, _, _, .hchClosep c hm, ht⟩
  case hchClosec c =>
    refine ends_of_checked (by simp) h fun hr => ?_
    rcases rdvOnly_next hr with ⟨-, ht⟩ | ⟨hm, hr⟩
    · exact .inl ⟨_, ht⟩
    · obtain ⟨hp, ht⟩ := withPayload_next hr
      exact .inr ⟨hp, _, _, _, .hchClosec c hm, ht⟩
  case hchRdst c =>
    refine ends_of_checked (by simp) h fun hr => .inr ?_
    obtain ⟨hp, ht⟩ := withPayload_next hr
    exact ⟨hp, _, _, _, .hchRdst c, ht⟩
  case sysNop =>
    refine ends_of_checked (by simp) h fun hr => .inr ?_
    obtain ⟨hp, ht⟩ := withPayload_next hr
    exact ⟨hp, _, _, _, .sysNop, ht⟩
  case sysRdflt =>
    obtain ⟨hp, ht⟩ := withPayload_next h
    exact .completes _ _ _ (.inr rfl) rfl rfl hp .sysRdflt ht
  case sysRdcfg =>
    refine ends_of_checked (by simp) h fun hr => .inr ?_
    obtain ⟨hp, ht⟩ := withPayload_next hr
    exact ⟨hp, _, _, _, .sysRdcfg, ht⟩

/-- No effect changes the streams, the fault record, the configuration, the port served or the arbiter's counter. -/
theorem Effect.frame {s : State} {i : Instr} {st : Status} {data : List Word} {u : State}
    (h : Effect s i st data u) :
    u.cmdIn = s.cmdIn ∧ u.respOut = s.respOut ∧ u.fault = s.fault ∧ u.fport = s.fport ∧ u.fcmd = s.fcmd ∧
      u.cfg = s.cfg ∧ u.port = s.port ∧ u.arbTurn = s.arbTurn := by
  cases h <;> exact ⟨rfl, rfl, rfl, rfl, rfl, rfl, rfl, rfl⟩

end Sys2Proof.Machine
end

