-- ==== Sys2Proof/Laws/Numbers.lean ====
section
/-!
SUPPORT. The fields of a binary32 pattern as the arithmetic reads them are its bits, and the exact value the arithmetic
computes with is `realOf`, scaled.
-/

namespace Sys2Proof.Machine

theorem extract_frac (x : F32) : (x.extractLsb' 0 23).toNat = f32Frac x := by
  simp [f32Frac, BitVec.extractLsb'_toNat]

theorem extract_exp (x : F32) : (x.extractLsb' 23 8).toNat = f32Exp x := by
  simp [f32Exp, BitVec.extractLsb'_toNat, Nat.shiftRight_eq_div_pow]

theorem signBit (x : F32) : x.getLsbD 31 = f32Neg x := by
  rw [show x.getLsbD 31 = x.msb by simp [BitVec.msb_eq_getLsbD_last]]
  simp [f32Neg, BitVec.msb_eq_decide]

theorem finite_iff (x : F32) : FiniteF32 x ↔ f32Exp x ≠ 255 := by
  rw [FiniteF32, ← extract_exp, Ne, ← BitVec.toNat_inj]; simp

theorem isNaN_iff (x : F32) : IsNaNF32 x ↔ f32Exp x = 255 ∧ f32Frac x ≠ 0 := by
  rw [IsNaNF32, ← extract_exp, ← extract_frac, Ne, ← BitVec.toNat_inj, ← BitVec.toNat_inj]; simp

theorem isInf_iff (x : F32) : IsInfF32 x ↔ f32Exp x = 255 ∧ f32Frac x = 0 := by
  rw [IsInfF32, ← extract_exp, ← extract_frac, ← BitVec.toNat_inj, ← BitVec.toNat_inj]; simp

/-- The exact value of a pattern is the integer the arithmetic computes with, in units of `2^-150`. -/
theorem realOf_eq (x : F32) : realOf x = (f32Val x : ℚ) / 2 ^ 150 := by
  unfold realOf f32Val f32Mag
  rw [extract_frac, extract_exp, signBit]
  have h1 : (2 : ℚ) ^ (-149 : ℤ) = 2 / 2 ^ 150 := by norm_num
  have h2 : (2 : ℚ) ^ ((f32Exp x : ℤ) - 150) = 2 ^ f32Exp x / 2 ^ 150 := by
    rw [zpow_sub₀ (by norm_num)]; norm_cast
  rw [h1, h2]
  split <;> split <;> push_cast <;> ring

end Sys2Proof.Machine
end

