-- ==== Sys2Proof/Laws/PerInstr.lean ====
section
/-!
SUPPORT. The per-instruction family `EncodeFields`: the command word of a well-formed command is put together from
its own five fields, and `RSV` is zero (spec 30_encoding.md R80).
-/

namespace Sys2Proof

/-- The fields of a word put together from fields that fit their widths are those fields (R80). -/
theorem cmdWord_fields {unit op inst idx : Nat} (hu : unit < 16) (ho : op < 16) (hn : inst < 256) (hx : idx < 256) :
    fieldUnit (cmdWord unit op inst idx) = unit ∧ fieldOp (cmdWord unit op inst idx) = op ∧
    fieldInst (cmdWord unit op inst idx) = inst ∧ fieldIdx (cmdWord unit op inst idx) = idx ∧
    fieldRsv (cmdWord unit op inst idx) = 0 := by
  simp only [fieldUnit, fieldOp, fieldInst, fieldIdx, fieldRsv, cmdField, cmdWord, BitVec.toNat_ofNat]
  refine ⟨?_, ?_, ?_, ?_, ?_⟩ <;> omega

end Sys2Proof

namespace Sys2Proof.Laws.EncodeFields

/-- The command word is `UNIT ## OP ## INST ## IDX ## RSV` with `RSV` zero. -/
def Statement (i : Instr) : Prop :=
  i.wellFormed = true →
    fieldRsv (encode i) = 0 ∧
    encode i = cmdWord (fieldUnit (encode i)) (fieldOp (encode i)) (fieldInst (encode i)) (fieldIdx (encode i))

/-- The statement for a word put together from fields that fit. -/
theorem of_cmdWord {unit op inst idx : Nat} (hu : unit < 16) (ho : op < 16) (hn : inst < 256) (hx : idx < 256) :
    fieldRsv (cmdWord unit op inst idx) = 0 ∧
    cmdWord unit op inst idx = cmdWord (fieldUnit (cmdWord unit op inst idx)) (fieldOp (cmdWord unit op inst idx))
      (fieldInst (cmdWord unit op inst idx)) (fieldIdx (cmdWord unit op inst idx)) := by
  obtain ⟨h1, h2, h3, h4, h5⟩ := cmdWord_fields hu ho hn hx
  rw [h1, h2, h3, h4]
  exact ⟨h5, rfl⟩

theorem oscSetf (o : Nat) : Statement (.oscSetf o) :=
  fun h => of_cmdWord (by decide) (by decide) (by simpa [Instr.wellFormed] using h) (by decide)
theorem oscNext (o : Nat) : Statement (.oscNext o) :=
  fun h => of_cmdWord (by decide) (by decide) (by simpa [Instr.wellFormed] using h) (by decide)
theorem oscRender (o : Nat) : Statement (.oscRender o) :=
  fun h => of_cmdWord (by decide) (by decide) (by simpa [Instr.wellFormed] using h) (by decide)
theorem oscRdst (o : Nat) : Statement (.oscRdst o) :=
  fun h => of_cmdWord (by decide) (by decide) (by simpa [Instr.wellFormed] using h) (by decide)
theorem envNon (e : Nat) : Statement (.envNon e) :=
  fun h => of_cmdWord (by decide) (by decide) (by simpa [Instr.wellFormed] using h) (by decide)
theorem envNoff (e : Nat) : Statement (.envNoff e) :=
  fun h => of_cmdWord (by decide) (by decide) (by simpa [Instr.wellFormed] using h) (by decide)
theorem envProc (e : Nat) : Statement (.envProc e) :=
  fun h => of_cmdWord (by decide) (by decide) (by simpa [Instr.wellFormed] using h) (by decide)
theorem envProcb (e : Nat) : Statement (.envProcb e) :=
  fun h => of_cmdWord (by decide) (by decide) (by simpa [Instr.wellFormed] using h) (by decide)
theorem envRdst (e : Nat) : Statement (.envRdst e) :=
  fun h => of_cmdWord (by decide) (by decide) (by simpa [Instr.wellFormed] using h) (by decide)
theorem mixSetlvl (m i : Nat) : Statement (.mixSetlvl m i) := by
  intro h
  obtain ⟨h1, h2⟩ : m < 256 ∧ i < 256 := by simpa [Instr.wellFormed] using h
  exact of_cmdWord (by decide) (by decide) h1 h2
theorem mixMix1 (m : Nat) : Statement (.mixMix1 m) :=
  fun h => of_cmdWord (by decide) (by decide) (by simpa [Instr.wellFormed] using h) (by decide)
theorem mixRender (m : Nat) : Statement (.mixRender m) :=
  fun h => of_cmdWord (by decide) (by decide) (by simpa [Instr.wellFormed] using h) (by decide)
theorem mixRdlvl (m i : Nat) : Statement (.mixRdlvl m i) := by
  intro h
  obtain ⟨h1, h2⟩ : m < 256 ∧ i < 256 := by simpa [Instr.wellFormed] using h
  exact of_cmdWord (by decide) (by decide) h1 h2
theorem hchPush (c : Nat) : Statement (.hchPush c) :=
  fun h => of_cmdWord (by decide) (by decide) (by simpa [Instr.wellFormed] using h) (by decide)
theorem hchPop (c : Nat) : Statement (.hchPop c) :=
  fun h => of_cmdWord (by decide) (by decide) (by simpa [Instr.wellFormed] using h) (by decide)
theorem hchClosep (c : Nat) : Statement (.hchClosep c) :=
  fun h => of_cmdWord (by decide) (by decide) (by simpa [Instr.wellFormed] using h) (by decide)
theorem hchClosec (c : Nat) : Statement (.hchClosec c) :=
  fun h => of_cmdWord (by decide) (by decide) (by simpa [Instr.wellFormed] using h) (by decide)
theorem hchRdst (c : Nat) : Statement (.hchRdst c) :=
  fun h => of_cmdWord (by decide) (by decide) (by simpa [Instr.wellFormed] using h) (by decide)
theorem sysNop : Statement (.sysNop) :=
  fun _ => of_cmdWord (by decide) (by decide) (by decide) (by decide)
theorem sysRdflt : Statement (.sysRdflt) :=
  fun _ => of_cmdWord (by decide) (by decide) (by decide) (by decide)
theorem sysRdcfg : Statement (.sysRdcfg) :=
  fun _ => of_cmdWord (by decide) (by decide) (by decide) (by decide)

end Sys2Proof.Laws.EncodeFields
end

