-- ==== Sys2Proof/Laws/Ready.lean ====
section
/-!
SUPPORT. A command that is ready on its port: what the block takes and sends, in the terms `AtHead`, `answered` and
`faulted` of the statements.
-/

namespace Sys2Proof.Machine

theorem AtHead.pending {s : State} {cmd : Word} {payload rest out : List Word} (h : AtHead s cmd payload rest out) :
    pending s s.port = cmd :: (payload ++ rest) := pending_eq_of_getElem? h.1

theorem AtHead.payloadWords {s : State} {cmd : Word} {payload rest out : List Word}
    (h : AtHead s cmd payload rest out) : payloadWords s = payload ++ rest := by
  simp [Machine.payloadWords, h.pending]

theorem AtHead.sent {s : State} {cmd : Word} {payload rest out : List Word} (h : AtHead s cmd payload rest out) :
    s.respOut.getD s.port [] = out := by
  rw [List.getD_eq_getElem?_getD, h.2]; rfl

/-- A word at the head of port `p` is the head command of the state that serves `p`. -/
theorem atHead_serve {s : State} {p : Nat} {w : Word} {rest out : List Word} (hc : s.cmdIn[p]? = some (w :: rest))
    (ho : s.respOut[p]? = some out) : AtHead (serve p s) w [] rest out := ⟨hc, ho⟩

/-- What a completed command takes and sends (R86, R87), whatever it changed in the units. -/
theorem complete_eq {s u : State} {cmd : Word} {payload rest out data : List Word} {i : Instr} {st : Status}
    (h : AtHead s cmd payload rest out) (hl : payload.length = plen s.cfg i) (h1 : u.cmdIn = s.cmdIn)
    (h2 : u.respOut = s.respOut) (h3 : u.port = s.port) (h4 : u.cfg = s.cfg) :
    complete i st data u =
      { u with cmdIn := s.cmdIn.set s.port rest, respOut := s.respOut.set s.port (out ++ st.word :: data) } := by
  have hp : Machine.pending u s.port = cmd :: (payload ++ rest) := by
    simpa [Machine.pending, h1] using h.pending
  simp only [complete, respond, consume, h1, h2, h3, h4, h.sent]
  rw [hp, Nat.add_comm, List.drop_succ_cons, ← hl, List.drop_left]

/-- What taking a fault does (R240), in the term of the statements. -/
theorem takeFault_eq {s : State} {cmd : Word} {rest out : List Word} {code : FaultCode}
    (h : AtHead s cmd [] rest out) : takeFault code cmd s = faulted s code.code cmd rest out := by
  have hp : Machine.pending s s.port = cmd :: rest := by simpa using h.pending
  have hq : Machine.pending { s with
      fault := BitVec.ofNat 8 code.code, fport := BitVec.ofNat 8 s.port, fcmd := cmd } s.port = cmd :: rest := hp
  simp only [takeFault, respond, consume, faulted, answered, hq, h.sent]
  rfl

/-- What refusing a word does (R241), in the term of the statements. -/
theorem refuseHalted_eq {s : State} {cmd : Word} {rest out : List Word} (h : AtHead s cmd [] rest out) :
    refuseHalted s = answered s rest (out ++ [0xFF#32]) := by
  have hp : Machine.pending s s.port = cmd :: rest := by simpa using h.pending
  simp only [refuseHalted, respond, consume, answered, hp, h.sent]
  rfl

/-! ### Reading a unit that exists -/

theorem osc_eq {s : State} {o : Nat} {v : OscState} (h : s.oscs[o]? = some v) : osc s o = v := by
  simp [osc, List.getD_eq_getElem?_getD, h]

theorem env_eq {s : State} {e : Nat} {v : EnvState} (h : s.envs[e]? = some v) : env s e = v := by
  simp [env, List.getD_eq_getElem?_getD, h]

theorem gainsOf_eq {s : State} {m : Nat} {gs : List F32} (h : s.gains[m]? = some gs) : gainsOf s m = gs := by
  simp [gainsOf, List.getD_eq_getElem?_getD, h]

theorem chan_eq {s : State} {c : Nat} {v : ChanState} (h : s.chans[c]? = some v) : chan s c = v := by
  simp [chan, List.getD_eq_getElem?_getD, h]

theorem nSrc_eq {c : Config} {m : Nat} {x : MixerCfg} (h : c.mixers[m]? = some x) :
    nSrc c m = x.gainInit.length := by
  simp [nSrc, h]

theorem chMode_eq {c : Config} {n : Nat} {x : ChannelCfg} (h : c.channels[n]? = some x) : chMode c n = x.mode := by
  simp [chMode, h]

end Sys2Proof.Machine
end

