-- ==== Sys2Proof/Laws/Rounding.lean ====
section
/-!
SUPPORT. What narrowing a rational to binary32 does, said once: which pattern `bracket` answers and what its remainder
says (`bracket_spec`), and the value of the pattern with a given significand and shift (`f32Mag_pack`).
-/

namespace Sys2Proof.Machine

/-- The pattern below a rational is a significand `L` of at most 24 bits shifted by `s`; in units of `2^-149` the
rational is `L * 2^s` and a remainder below `2^s`, both times the denominator. -/
theorem bracket_spec {num den : Nat} (hd : 0 < den) {low rem d : Nat} (h : bracket num den = (low, rem, d)) :
    ∃ s L : Nat, low = L + s * 2 ^ 23 ∧ d = den * 2 ^ s ∧ L * d + rem = num * 2 ^ 149 ∧ rem < d ∧ L < 2 ^ 24 ∧
      (s = 0 ∨ 2 ^ 23 ≤ L) := by
  simp only [bracket, Prod.mk.injEq] at h
  obtain ⟨rfl, rfl, rfl⟩ := h
  generalize hs : Nat.log2 (num * 2 ^ 149 / den) - 23 = s
  have hpos : 0 < den * 2 ^ s := by positivity
  refine ⟨s, num * 2 ^ 149 / (den * 2 ^ s), rfl, rfl, Nat.div_add_mod' _ _, Nat.mod_lt _ hpos, ?_, ?_⟩
  · rw [← Nat.div_div_eq_div_mul]
    apply Nat.div_lt_of_lt_mul
    rw [← pow_add]
    refine lt_of_lt_of_le Nat.lt_log2_self (Nat.pow_le_pow_right (by norm_num) ?_)
    omega
  · rcases Nat.eq_zero_or_pos s with h0 | h0
    · exact .inl h0
    · right
      rw [← Nat.div_div_eq_div_mul, Nat.le_div_iff_mul_le (by positivity), ← pow_add]
      have hq : num * 2 ^ 149 / den ≠ 0 := by
        intro hq; rw [hq] at hs; simp at hs; omega
      have := Nat.log2_self_le hq
      have e : 23 + s = Nat.log2 (num * 2 ^ 149 / den) := by omega
      rw [e]; exact this

/-- The magnitude of the pattern with significand `L` and shift `s`, in units of `2^-150`. A significand of exactly
`2^24` is the carry into the next exponent. -/
theorem f32Mag_pack (neg : Bool) {s L : Nat} (hL : L ≤ 2 ^ 24) (hs : s = 0 ∨ 2 ^ 23 ≤ L)
    (h : L + s * 2 ^ 23 < infMag) : f32Mag (f32Pack neg (L + s * 2 ^ 23)) = L * 2 ^ (s + 1) := by
  have hn : (f32Pack neg (L + s * 2 ^ 23)).toNat % 2 ^ 31 = L + s * 2 ^ 23 := by
    simp only [f32Pack, infMag] at *
    cases neg <;> simp <;> omega
  have he : f32Exp (f32Pack neg (L + s * 2 ^ 23)) = (L + s * 2 ^ 23) / 2 ^ 23 := by
    simp only [f32Exp, infMag] at *; omega
  have hf : f32Frac (f32Pack neg (L + s * 2 ^ 23)) = (L + s * 2 ^ 23) % 2 ^ 23 := by
    simp only [f32Frac] at *; omega
  rw [f32Mag, he, hf]
  rcases Nat.lt_or_ge L (2 ^ 23) with h1 | h1
  · have : s = 0 := by omega
    subst this
    rw [if_pos (by omega)]; omega
  · rcases Nat.lt_or_ge L (2 ^ 24) with h2 | h2
    · have e1 : (L + s * 2 ^ 23) / 2 ^ 23 = s + 1 := by omega
      have e2 : (L + s * 2 ^ 23) % 2 ^ 23 = L - 2 ^ 23 := by omega
      rw [e1, e2, if_neg (by omega), show 2 ^ 23 + (L - 2 ^ 23) = L by omega]
    · have : L = 2 ^ 24 := by omega
      subst this
      have e1 : (2 ^ 24 + s * 2 ^ 23) / 2 ^ 23 = s + 2 := by omega
      have e2 : (2 ^ 24 + s * 2 ^ 23) % 2 ^ 23 = 0 := by omega
      rw [e1, e2, if_neg (by omega)]; ring

/-- The sign of a packed pattern. -/
theorem f32Neg_pack (neg : Bool) {m : Nat} (h : m < 2 ^ 31) : f32Neg (f32Pack neg m) = neg := by
  cases neg <;> simp [f32Neg, f32Pack] <;> omega

/-- The magnitude pattern of a packed pattern. -/
theorem f32Pack_mag (neg : Bool) {m : Nat} (h : m < 2 ^ 31) : (f32Pack neg m).toNat % 2 ^ 31 = m := by
  cases neg <;> simp [f32Pack] <;> omega

end Sys2Proof.Machine
end

