-- ==== Sys2Proof/Laws/Series.lean ====
section
/-!
SUPPORT. What the fixed-point power series of the reference sine computes, said once: `quarterSine_err` says that in
the first quarter wave it is the real sine up to a small error (log entry 3).
-/

namespace Sys2Proof.Machine

/-- The tail of the series from a term on is at most that term, so no subtraction in it is cut off. -/
theorem sineSeries_le (x2 : Nat) : ∀ fuel k t, sineSeries x2 fuel k t ≤ t := by
  intro fuel k t; cases fuel <;> simp [sineSeries]

/-- The same tail on real numbers. -/
noncomputable def realSeries (X : ℝ) : Nat → Nat → ℝ → ℝ
  | 0, _, _ => 0
  | fuel + 1, k, T => T - realSeries X fuel (k + 2) (T * X ^ 2 / ((k + 1) * (k + 2)))

/-- A natural quotient lies within one below the real one. -/
theorem cast_div_bounds (a b : Nat) :
    ((a / b : Nat) : ℝ) ≤ (a : ℝ) / b ∧ (a : ℝ) / b - 1 ≤ ((a / b : Nat) : ℝ) := by
  have h := Nat.lt_floor_add_one ((a : ℝ) / b)
  rw [Nat.floor_div_eq_div] at h
  exact ⟨Nat.cast_div_le, by linarith⟩

/-- One term of the fixed-point series keeps within 4 units of the real term. -/
theorem term_err {X T : ℝ} {t x2 c : Nat} (hX2 : X ^ 2 ≤ 5 / 2)
    (hx2 : |(x2 : ℝ) / 2 ^ 160 - X ^ 2| ≤ 1 / 2 ^ 160) (hT0 : 0 ≤ T) (hT : T ≤ 2) (ht : |(t : ℝ) - T * 2 ^ 160| ≤ 4) (hc : 6 ≤ c) :
    |((t * x2 / 2 ^ 160 / c : Nat) : ℝ) - T * X ^ 2 / c * 2 ^ 160| ≤ 4 := by
  have hcp : (6 : ℝ) ≤ c := by exact_mod_cast hc
  set q : ℝ := (x2 : ℝ) / 2 ^ 160 with hq
  have hq0 : 0 ≤ q := by positivity
  have hq3 : q ≤ 3 := by have := (abs_le.mp hx2).2; norm_num at this; linarith
  obtain ⟨f1, f2⟩ := cast_div_bounds (t * x2) (2 ^ 160 * c)
  have e : ((t * x2 : Nat) : ℝ) / ((2 ^ 160 * c : Nat) : ℝ) = (t : ℝ) * q / c := by
    rw [hq]; simp only [Nat.cast_mul, Nat.cast_pow, Nat.cast_ofNat]; rw [← mul_div_assoc, div_div]
  rw [e, ← Nat.div_div_eq_div_mul] at f1 f2
  have m : |(t : ℝ) * q - T * X ^ 2 * 2 ^ 160| ≤ 14 := by
    have e : (t : ℝ) * q - T * X ^ 2 * 2 ^ 160 = (t - T * 2 ^ 160) * q + T * ((q - X ^ 2) * 2 ^ 160) := by ring
    have a1 : |(t - T * 2 ^ 160) * q| ≤ 4 * 3 := by
      rw [abs_mul, abs_of_nonneg hq0]; exact mul_le_mul ht hq3 hq0 (by norm_num)
    have a2 : |T * ((q - X ^ 2) * 2 ^ 160)| ≤ 2 * 1 := by
      rw [abs_mul, abs_of_nonneg hT0]
      refine mul_le_mul hT ?_ (abs_nonneg _) (by norm_num)
      rw [abs_mul, abs_of_pos (by positivity : (0:ℝ) < 2 ^ 160)]
      calc _ ≤ 1 / 2 ^ 160 * 2 ^ 160 := mul_le_mul_of_nonneg_right hx2 (by positivity)
        _ = 1 := by norm_num
    rw [e]; exact (abs_add_le _ _).trans (by linarith)
  have m2 : |(t : ℝ) * q / c - T * X ^ 2 / c * 2 ^ 160| ≤ 14 / 6 := by
    have e : (t : ℝ) * q / c - T * X ^ 2 / c * 2 ^ 160 = ((t : ℝ) * q - T * X ^ 2 * 2 ^ 160) / c := by ring
    rw [e, abs_div, abs_of_pos (by linarith : (0:ℝ) < c)]
    exact div_le_div₀ (by norm_num) m (by norm_num) hcp
  rw [abs_le] at m2 ⊢
  constructor <;> linarith [m2.1, m2.2]

/-- The fixed-point series keeps within 4 units for each term of the real one. -/
theorem sineSeries_err {X : ℝ} {x2 : Nat} (hX2 : X ^ 2 ≤ 5 / 2)
    (hx2 : |(x2 : ℝ) / 2 ^ 160 - X ^ 2| ≤ 1 / 2 ^ 160) :
    ∀ (fuel k t : Nat) (T : ℝ), 1 ≤ k → 0 ≤ T → T ≤ 2 → |(t : ℝ) - T * 2 ^ 160| ≤ 4 →
      |(sineSeries x2 fuel k t : ℝ) - realSeries X fuel k T * 2 ^ 160| ≤ (4 * fuel : ℝ) := by
  have hle : x2 ≤ 3 * 2 ^ 160 := by
    have h := (abs_le.mp hx2).2
    have : (x2 : ℝ) / 2 ^ 160 ≤ 3 := by norm_num at h ⊢; linarith
    rw [div_le_iff₀ (by positivity)] at this
    exact_mod_cast this
  intro fuel
  induction fuel with
  | zero =>
    intro k t T _ _ _ _
    simp only [sineSeries, realSeries, zero_mul, mul_zero, sub_zero, abs_zero, le_refl, CharP.cast_eq_zero]
  | succ fuel ih =>
    intro k t T hk h0 h2 ht
    have hc : 6 ≤ (k + 1) * (k + 2) := by nlinarith
    have hc' : (6 : ℝ) ≤ (((k + 1) * (k + 2) : Nat) : ℝ) := by exact_mod_cast hc
    have step := term_err hX2 hx2 h0 h2 ht hc
    set t' := t * x2 / 2 ^ 160 / ((k + 1) * (k + 2)) with ht'
    have e : T * X ^ 2 / (((k : ℝ) + 1) * (k + 2)) = T * X ^ 2 / (((k + 1) * (k + 2) : Nat) : ℝ) := by
      push_cast; ring
    have hT' : T * X ^ 2 / (((k + 1) * (k + 2) : Nat) : ℝ) ≤ 2 := by
      rw [div_le_iff₀ (by linarith)]
      have : T * X ^ 2 ≤ 2 * (5 / 2) := mul_le_mul h2 hX2 (by positivity) (by norm_num)
      linarith
    have r := ih (k + 2) t' (T * X ^ 2 / (((k + 1) * (k + 2) : Nat) : ℝ)) (by omega) (by positivity) hT' step
    have hs : sineSeries x2 fuel (k + 2) t' ≤ t := by
      refine (sineSeries_le _ _ _ _).trans ?_
      rw [ht', Nat.div_div_eq_div_mul]
      apply Nat.div_le_of_le_mul
      calc t * x2 ≤ t * (3 * 2 ^ 160) := Nat.mul_le_mul_left _ hle
        _ ≤ 2 ^ 160 * ((k + 1) * (k + 2)) * t := by nlinarith
    simp only [sineSeries, realSeries]
    rw [← ht', Nat.cast_sub hs, e]
    rw [abs_le] at r ht ⊢
    simp only [Nat.cast_add, Nat.cast_one]
    constructor <;> linarith [r.1, r.2]

/-- The real tail as a sum. -/
theorem realSeries_sum (X : ℝ) : ∀ f j : Nat,
    realSeries X f (2 * j + 1) (X ^ (2 * j + 1) / (2 * j + 1).factorial) =
      ∑ i ∈ Finset.range f, (-1) ^ i * (X ^ (2 * (i + j) + 1) / (2 * (i + j) + 1).factorial) := by
  intro f
  induction f with
  | zero => intro j; simp [realSeries]
  | succ f ih =>
    intro j
    have e : X ^ (2 * j + 1) / (2 * j + 1).factorial * X ^ 2 / (((2 * j + 1 : Nat) + 1 : ℝ) * ((2 * j + 1 : Nat) + 2)) =
        X ^ (2 * (j + 1) + 1) / (2 * (j + 1) + 1).factorial := by
      rw [show 2 * (j + 1) + 1 = (2 * j + 1) + 1 + 1 by ring, Nat.factorial_succ (2 * j + 1 + 1),
        Nat.factorial_succ (2 * j + 1)]
      have := (Nat.factorial_pos (2 * j + 1))
      push_cast
      have h1 : ((2 * j + 1).factorial : ℝ) ≠ 0 := by positivity
      generalize ((2 * j + 1).factorial : ℝ) = F at h1 ⊢
      field_simp
      ring
    rw [realSeries, e, show 2 * j + 1 + 2 = 2 * (j + 1) + 1 by ring, ih, Finset.sum_range_succ']
    simp only [pow_zero, one_mul, Nat.zero_add]
    rw [sub_eq_add_neg, add_comm, ← Finset.sum_neg_distrib]
    congr 1
    refine Finset.sum_congr rfl fun i _ => ?_
    rw [show i + (j + 1) = i + 1 + j by ring]; ring

/-- 24 terms of the series give the sine. -/
theorem realSeries_sin {X : ℝ} (hX : 0 ≤ X) (hX2 : X ≤ 2) : |realSeries X 24 1 X - Real.sin X| ≤ 1 / 2 ^ 100 := by
  have e := realSeries_sum X 24 0
  simp only [Nat.mul_zero, Nat.zero_add, pow_one, Nat.factorial_one, Nat.cast_one, div_one, Nat.add_zero] at e
  have ha : Antitone fun i : Nat => X ^ (2 * i + 1) / (2 * i + 1).factorial := by
    refine antitone_nat_of_succ_le fun n => ?_
    rw [show 2 * (n + 1) + 1 = (2 * n + 1) + 1 + 1 by ring, Nat.factorial_succ (2 * n + 1 + 1),
      Nat.factorial_succ (2 * n + 1), pow_succ, pow_succ]
    have h1 : (0:ℝ) < ((2 * n + 1).factorial : ℝ) := by positivity
    push_cast
    rw [div_le_div_iff₀ (by positivity) h1]
    have : X * X ≤ (2 * n + 1 + 1 + 1) * (2 * n + 1 + 1) := by
      have : (0:ℝ) ≤ n := by positivity
      nlinarith
    have hp : 0 ≤ X ^ (2 * n + 1) * ((2 * n + 1).factorial : ℝ) := by positivity
    nlinarith [mul_le_mul_of_nonneg_left this hp]
  have ht := (Real.hasSum_sin X).tendsto_sum_nat
  have hs : ∀ n, ∑ i ∈ Finset.range n, (-1 : ℝ) ^ i * X ^ (2 * i + 1) / (2 * i + 1).factorial =
      ∑ i ∈ Finset.range n, (-1) ^ i * (X ^ (2 * i + 1) / (2 * i + 1).factorial) := fun n =>
    Finset.sum_congr rfl fun i _ => by ring
  simp only [hs] at ht
  have l := ha.alternating_series_le_tendsto ht 12
  have u := ha.tendsto_le_alternating_series ht 12
  rw [e]
  norm_num only [] at l u
  rw [Finset.sum_range_succ] at u
  have b : X ^ 49 / ((49 : Nat).factorial : ℝ) ≤ 1 / 2 ^ 100 := by
    rw [div_le_div_iff₀ (by positivity) (by positivity)]
    calc X ^ 49 * 2 ^ 100 ≤ 2 ^ 49 * 2 ^ 100 := by gcongr
      _ ≤ 1 * ((49 : Nat).factorial : ℝ) := by norm_num [Nat.factorial]
  have e24 : ((-1 : ℝ)) ^ 24 = 1 := by norm_num
  have e49 : 2 * 24 + 1 = 49 := rfl
  rw [e24, one_mul, e49] at u
  rw [abs_le]; constructor <;> linarith

/-- The fixed-point angle of a phase in the first quarter wave. -/
theorem quarterAngle_err {r : Nat} (hr : r ≤ 2 ^ 30) :
    |((r * piFixed / 2 ^ 63 : Nat) : ℝ) / 2 ^ 160 - 2 * Real.pi * r / 2 ^ 32| ≤ 1 / 2 ^ 40 := by
  have hr' : (r : ℝ) ≤ 2 ^ 30 := by exact_mod_cast hr
  have p1 : (piFixed : ℝ) / 2 ^ 192 ≤ 3.14159265358979323847 := by norm_num [piFixed]
  have p2 : (3.14159265358979323846 : ℝ) ≤ (piFixed : ℝ) / 2 ^ 192 := by norm_num [piFixed]
  have g := Real.pi_gt_d20
  have l := Real.pi_lt_d20
  obtain ⟨x1, x1'⟩ := cast_div_bounds (r * piFixed) (2 ^ 63)
  have e : ((r * piFixed : Nat) : ℝ) / ((2 ^ 63 : Nat) : ℝ) =
      (r : ℝ) / 2 ^ 31 * ((piFixed : ℝ) / 2 ^ 192) * 2 ^ 160 := by push_cast; ring
  rw [e] at x1 x1'
  have e2 : 2 * Real.pi * r / 2 ^ 32 = (r : ℝ) / 2 ^ 31 * Real.pi := by ring
  have q0 : (0 : ℝ) ≤ (r : ℝ) / 2 ^ 31 := by positivity
  have q1 : (r : ℝ) / 2 ^ 31 ≤ 1 / 2 := by rw [div_le_iff₀ (by positivity)]; norm_num at hr' ⊢; linarith
  rw [e2]
  generalize (piFixed : ℝ) / 2 ^ 192 = P at *
  generalize ((r * piFixed / 2 ^ 63 : Nat) : ℝ) = x at *
  generalize (r : ℝ) / 2 ^ 31 = q at *
  have d : |q * (P - Real.pi)| ≤ 1 / 2 * (1 / 2 ^ 60) := by
    rw [abs_mul, abs_of_nonneg q0]
    refine mul_le_mul q1 ?_ (abs_nonneg _) (by norm_num)
    rw [abs_le]; norm_num at *; constructor <;> linarith
  rw [abs_le] at d ⊢
  norm_num at *
  constructor <;> linarith

/-- The fixed-point square. -/
theorem square_err (x : Nat) :
    |((x * x / 2 ^ 160 : Nat) : ℝ) / 2 ^ 160 - ((x : ℝ) / 2 ^ 160) ^ 2| ≤ 1 / 2 ^ 160 := by
  obtain ⟨b1, b2⟩ := cast_div_bounds (x * x) (2 ^ 160)
  simp only [Nat.cast_mul, Nat.cast_pow, Nat.cast_ofNat] at b1 b2
  have e : ((x * x / 2 ^ 160 : Nat) : ℝ) / 2 ^ 160 - ((x : ℝ) / 2 ^ 160) ^ 2 =
      (((x * x / 2 ^ 160 : Nat) : ℝ) - (x : ℝ) * x / 2 ^ 160) / 2 ^ 160 := by ring
  rw [e, abs_div, abs_of_pos (show (0 : ℝ) < 2 ^ 160 by positivity)]
  refine div_le_div_of_nonneg_right ?_ (by positivity)
  rw [abs_le]; constructor <;> linarith

/-- The fixed-point series at a fixed-point angle `X` is the real sine of it, up to `2^-99`. -/
theorem series_err {x : Nat} {X : ℝ} (hX : (x : ℝ) / 2 ^ 160 = X) (hX0 : 0 ≤ X) (hXle : X ≤ 1.5708) :
    |(sineSeries (x * x / 2 ^ 160) 24 1 x : ℝ) / 2 ^ 160 - Real.sin X| ≤ 1 / 2 ^ 99 := by
  have hq := square_err x
  rw [hX] at hq
  have s := sineSeries_err (by nlinarith) hq 24 1 x X le_rfl hX0 (by linarith)
    (by rw [← hX, div_mul_cancel₀ _ (by positivity), sub_self, abs_zero]; norm_num)
  have sn := realSeries_sin hX0 (by linarith)
  generalize (sineSeries (x * x / 2 ^ 160) 24 1 x : ℝ) = S at *
  generalize realSeries X 24 1 X = R at *
  have s' : |S / 2 ^ 160 - R| ≤ 1 / 2 ^ 100 := by
    have e : S / 2 ^ 160 - R = (S - R * 2 ^ 160) / 2 ^ 160 := by field_simp
    rw [e, abs_div, abs_of_pos (show (0 : ℝ) < 2 ^ 160 by positivity)]
    calc _ ≤ (4 * (24 : Nat) : ℝ) / 2 ^ 160 := div_le_div_of_nonneg_right s (by positivity)
      _ ≤ _ := by norm_num
  rw [abs_le] at s' sn ⊢
  norm_num at s' sn ⊢
  constructor <;> linarith

/-- The quarter wave is the real sine of the phase, up to `2^-30`. -/
theorem quarterSine_err {r : Nat} (hr : r ≤ 2 ^ 30) :
    |(quarterSine r : ℝ) / 2 ^ 160 - Real.sin (2 * Real.pi * r / 2 ^ 32)| ≤ 1 / 2 ^ 30 := by
  have ang := quarterAngle_err hr
  have hXle : ((r * piFixed / 2 ^ 63 : Nat) : ℝ) / 2 ^ 160 ≤ 1.5708 := by
    have hr' : (r : ℝ) ≤ 2 ^ 30 := by exact_mod_cast hr
    have h1 : 2 * Real.pi * r / 2 ^ 32 ≤ Real.pi / 2 := by
      rw [div_le_div_iff₀ (by positivity) (by positivity)]
      nlinarith [Real.pi_pos]
    have h2 := (abs_le.mp ang).2
    have h3 := Real.pi_lt_d20
    generalize ((r * piFixed / 2 ^ 63 : Nat) : ℝ) / 2 ^ 160 = X at *
    norm_num at *; linarith
  have s := series_err rfl (div_nonneg (Nat.cast_nonneg _) (by norm_num)) hXle
  have fin := (Real.abs_sin_sub_sin_le _ _).trans ang
  rw [show quarterSine r = sineSeries (r * piFixed / 2 ^ 63 * (r * piFixed / 2 ^ 63) / 2 ^ 160) 24 1
    (r * piFixed / 2 ^ 63) from rfl]
  refine (abs_sub_le _ _ _).trans ((add_le_add s fin).trans ?_)
  norm_num

end Sys2Proof.Machine
end

