-- ==== Sys2Proof/Laws/Steps.lean ====
section
/-!
SUPPORT. The two forms of the step: `stepWith`, which takes the configuration as an argument (00_scope.md R5), and the
host's `step` on a block beside its configuration. They show the same runs, and no command changes the configuration.
-/

namespace Sys2Proof.Machine

/-! ### A block beside its configuration -/

@[simp] theorem under_toBlockState (c : Config) (b : BlockState) : (b.under c).toBlockState = b := rfl
@[simp] theorem under_cfg (c : Config) (b : BlockState) : (b.under c).cfg = c := rfl
@[simp] theorem toBlockState_under (s : State) : s.toBlockState.under s.cfg = s := rfl

/-- A state is its block beside its configuration. -/
theorem eq_under {s : State} {c : Config} (h : s.cfg = c) : s.toBlockState.under c = s := by subst h; rfl

theorem mapNext_eq_next {σ τ : Type} {f : σ → τ} {r : Host.Outcome σ Fault Refusal} {t : τ} :
    mapNext f r = .next t ↔ ∃ s, r = .next s ∧ t = f s := by
  cases r <;> simp [mapNext, eq_comm]

/-! ### The configuration stays -/

/-- No command changes the configuration (R5). -/
theorem exec_cfg {i : Instr} {s t : State} (h : exec i s = .next t) : t.cfg = s.cfg := by
  cases exec_next h with
  | refused _ _ ht => subst ht; rfl
  | faults _ _ code ht => subst ht; rfl
  | completes st data u _ _ _ _ he ht => subst ht; exact he.frame.2.2.2.2.2.1

/-- No step of a port changes the configuration (R5). -/
theorem portStep_cfg {p : Nat} {s t : State} (h : portStep p s = .next t) : t.cfg = s.cfg := by
  obtain ⟨w, ws, -, ⟨e, -, ht⟩ | ⟨i, -, he⟩⟩ := portStep_next h
  · subst ht; unfold rejectWord; split <;> rfl
  · exact (exec_cfg he).trans (serve_cfg p s)

/-! ### The two forms of the step -/

/-- What the host's step does, said on the block beside its configuration: nothing is lost by handing it on. -/
theorem step_eq (s : State) :
    step s = if configOk s.cfg then
        match chosenPort s with
        | none => .fault .noEnabledPort
        | some p => portStep p (tick s)
      else .refused .configInvalid := by
  unfold step stepWith
  rw [toBlockState_under]
  split
  · cases chosenPort s with
    | none => rfl
    | some p =>
      simp only
      cases h : portStep p (tick s) with
      | next t => exact congrArg Host.Outcome.next (eq_under ((portStep_cfg h).trans (tick_cfg s)))
      | fault r => rfl
      | refused r => rfl
  · rfl

/-- The step with the configuration as an argument is the host's step on the pair. -/
theorem stepWith_next {c : Config} {b b' : BlockState} :
    stepWith c b = .next b' ↔ step (b.under c) = .next (b'.under c) := by
  unfold step
  rw [under_cfg, under_toBlockState, mapNext_eq_next]
  exact ⟨fun h => ⟨b', h, rfl⟩, fun ⟨x, h, e⟩ => by
    rw [h]; exact congrArg Host.Outcome.next (congrArg State.toBlockState e).symm⟩

/-- A step leaves the configuration (R5). -/
theorem step_cfg {s t : State} (h : step s = .next t) : t.cfg = s.cfg := by
  obtain ⟨b, -, rfl⟩ := mapNext_eq_next.mp h; rfl

/-- A run of the host's machine is a run of the machine built with its configuration. -/
theorem core_run_eq (c : Config) (k : Nat) (b : BlockState) :
    Sys2Proof.core.run k (b.under c) = mapNext (BlockState.under c) ((builtWith c).run k b) := by
  induction k generalizing b with
  | zero => rfl
  | succ k ih =>
    simp only [Host.Core.run]
    rw [show Sys2Proof.core.step (b.under c) = mapNext (BlockState.under c) (stepWith c b) from rfl,
      show (builtWith c).step b = stepWith c b from rfl]
    cases stepWith c b with
    | next b' => exact ih b'
    | fault r => rfl
    | refused r => rfl

/-- If a step answers a next state, the configuration is valid and the state is that of some enabled port's step. -/
theorem step_next {s t : State} (h : step s = .next t) :
    configOk s.cfg = true ∧ ∃ p, chosenPort s = some p ∧ p < s.cfg.nPort ∧ enabled s p = true ∧
      portStep p (tick s) = .next t := by
  rw [step_eq] at h
  split at h
  · refine ⟨‹_›, ?_⟩
    split at h
    · cases h
    · rename_i p hp
      obtain ⟨h1, h2⟩ := mem_enabledPorts.mp (chosenPort_mem hp)
      exact ⟨p, hp, h1, h2, h⟩
  · cases h

end Sys2Proof.Machine
end

