-- ==== Sys2Proof/Laws/Turn.lean ====
section
/-!
SUPPORT. No command looks at the arbiter's counter (log entry 5): changing it before a command is changing it after.
-/

namespace Sys2Proof.Machine

/-- A state with another count of the arbiter's choices. -/
def withTurn (n : Nat) (s : State) : State := { s with arbTurn := n }

/-- Change the count in a next state; stops stay as they are. -/
def turnNext (n : Nat) : Result → Result
  | .next t => .next (withTurn n t)
  | .fault f => .fault f
  | .refused r => .refused r

theorem checked_turn {i : Instr} {s : State} {n : Nat} {run run' : Result} (h : run' = turnNext n run) :
    checked i (withTurn n s) run' = turnNext n (checked i s run) := by
  subst h
  rcases checked_cases i s run with ⟨h0, e⟩ | ⟨h0, h1, e⟩ | ⟨h0, h1, h2, e⟩ | ⟨h0, h1, h2, e⟩ <;> rw [e]
  · rw [checked_halted (s := withTurn n s) h0]; rfl
  · simp [checked, halted, withTurn, h0, h1]; rfl
  · simp [checked, halted, withTurn, h0, h1, h2]; rfl
  · exact checked_pass (s := withTurn n s) h0 h1 h2

theorem withPayload_turn {i : Instr} {s : State} {n : Nat} {run run' : List Word → State}
    (h : ∀ ws, run' ws = withTurn n (run ws)) :
    withPayload i (withTurn n s) run' = turnNext n (withPayload i s run) := by
  have e1 : payloadWords (withTurn n s) = payloadWords s := rfl
  have e2 : (withTurn n s).cfg = s.cfg := rfl
  unfold withPayload
  rw [e1, e2]; split
  · rfl
  · simp [turnNext, h]

theorem mixIndexChecked_turn {i : Instr} {s : State} {n m k : Nat} {run run' : Result} (h : run' = turnNext n run) :
    mixIndexChecked i m k (withTurn n s) run' = turnNext n (mixIndexChecked i m k s run) := by
  have e : (withTurn n s).cfg = s.cfg := rfl
  subst h; unfold mixIndexChecked; rw [e]; split <;> rfl

theorem rdvOnly_turn {i : Instr} {s : State} {n c : Nat} {run run' : Result} (h : run' = turnNext n run) :
    rdvOnly i c (withTurn n s) run' = turnNext n (rdvOnly i c s run) := by
  have e : (withTurn n s).cfg = s.cfg := rfl
  subst h; unfold rdvOnly; rw [e]; split <;> rfl

theorem push_turn (c n : Nat) (s : State) :
    pushCell c (withTurn n s) = turnNext n (pushCell c s) ∧ pushRdv c (withTurn n s) = turnNext n (pushRdv c s) := by
  have e : chan (withTurn n s) c = chan s c := rfl
  unfold pushCell pushRdv
  rw [e]
  constructor
  · split
    · rfl
    · exact withPayload_turn fun _ => rfl
  · split
    · rfl
    · split
      · rfl
      · exact withPayload_turn fun _ => by split <;> rfl

theorem pop_turn (c n : Nat) (s : State) :
    popCell c (withTurn n s) = turnNext n (popCell c s) ∧ popRdv c (withTurn n s) = turnNext n (popRdv c s) := by
  have e : chan (withTurn n s) c = chan s c := rfl
  unfold popCell popRdv
  rw [e]
  constructor
  · split
    · rfl
    · exact withPayload_turn fun _ => rfl
  · split
    · rfl
    · split
      · rfl
      · exact withPayload_turn fun _ => by split <;> rfl

/-- A command does the same whatever the count is, and leaves the count. -/
theorem exec_turn (i : Instr) (s : State) (n : Nat) : exec i (withTurn n s) = turnNext n (exec i s) := by
  cases i <;> simp only [exec]
  case mixSetlvl => exact checked_turn (mixIndexChecked_turn (withPayload_turn fun _ => rfl))
  case mixRdlvl => exact checked_turn (mixIndexChecked_turn (withPayload_turn fun _ => rfl))
  case hchClosep => exact checked_turn (rdvOnly_turn (withPayload_turn fun _ => rfl))
  case hchClosec => exact checked_turn (rdvOnly_turn (withPayload_turn fun _ => rfl))
  case sysRdflt => exact withPayload_turn fun _ => rfl
  case hchPush c =>
    refine checked_turn ?_
    have e : (withTurn n s).cfg = s.cfg := rfl
    rw [e]; split
    · exact (push_turn c n s).1
    · exact (push_turn c n s).2
  case hchPop c =>
    refine checked_turn ?_
    have e : (withTurn n s).cfg = s.cfg := rfl
    rw [e]; split
    · exact (pop_turn c n s).1
    · exact (pop_turn c n s).2
  all_goals exact checked_turn (withPayload_turn fun _ => rfl)

/-- The step of a port, with the arbiter's choice counted before it, is its step with the choice counted after it. -/
theorem portStep_tick (s : State) (p : Nat) : portStep p (tick s) = turnNext (s.arbTurn + 1) (portStep p s) := by
  unfold portStep
  simp only [pending_tick]
  cases pending s p with
  | nil => rfl
  | cons w ws =>
    cases hd : decode w with
    | error e =>
      simp only [hd, rejectWord]
      have : halted (serve p (tick s)) = halted (serve p s) := rfl
      rw [this]; split <;> rfl
    | ok i =>
      simp only [hd]
      exact exec_turn i (serve p s) _

end Sys2Proof.Machine
end

