-- ==== Sys2Proof/Tests/Slice0.lean ====
section
/-!
SUPPORT. Small checks: the ill-formed terms, the decoding of a word of every command, steps with the results that
spec/95_test_vectors.md gives (each test names its vector), and for every statement of the Slice0 obligations that has
hypotheses a concrete state that meets them.
-/

open Sys2Proof Sys2Proof.Machine

namespace Sys2Proof.Tests

/-! ### Helpers -/

/-- `CFG-T` after reset with words waiting on ports 0 and 1. -/
def given (p0 p1 : List Word) : State := { State.reset with cmdIn := [p0, p1] }

/-- The same, port 1 being served. -/
def given1 (p0 p1 : List Word) : State := { given p0 p1 with port := 1 }

/-- What a result has sent on port `p` in all; empty when there is no next state. -/
def sent (r : Result) (p : Nat) : List Word :=
  match r with
  | .next t => t.respOut.getD p []
  | .fault _ => []
  | .refused _ => []

/-- The next state of a result, if it is one. -/
def after (r : Result) : Option State :=
  match r with
  | .next t => some t
  | .fault _ => none
  | .refused _ => none

def withOsc (v : OscState) (s : State) : State := { s with oscs := [v, { pos := 0#32, inc := 0#32 }] }
def withEnv (st : Stage) (p : Word) (s : State) : State := { s with envs := [{ stage := st, epos := p }] }
def withGains (g0 g1 : F32) (s : State) : State := { s with gains := [[g0, g1]] }
def emptyCh : ChanState := { slot := none, popen := true, copen := true }
def withCell (ch : ChanState) (s : State) : State := { s with chans := [ch, emptyCh] }
def withRdv (ch : ChanState) (s : State) : State := { s with chans := [emptyCh, ch] }
def blockA : Block := [0x3F800000#32, 0x3F800000#32, 0x3F800000#32, 0x3F800000#32]
def oscs (r : Result) : List OscState := ((after r).map (·.oscs)).getD []
def envs (r : Result) : List EnvState := ((after r).map (·.envs)).getD []
def slots (r : Result) : List (Option Block) := ((after r).map (·.chans.map (·.slot))).getD []

/-! ### Well-formedness: one ill-formed term for each check -/

theorem illformed_inst : Instr.wellFormed (.oscSetf 256) = false := by decide
theorem illformed_inst_env : Instr.wellFormed (.envProc 256) = false := by decide
theorem illformed_inst_mix : Instr.wellFormed (.mixMix1 256) = false := by decide
theorem illformed_inst_mixRender : Instr.wellFormed (.mixRender 300) = false := by decide
theorem illformed_inst_setlvl : Instr.wellFormed (.mixSetlvl 256 0) = false := by decide
theorem illformed_idx_setlvl : Instr.wellFormed (.mixSetlvl 0 256) = false := by decide
theorem illformed_inst_rdlvl : Instr.wellFormed (.mixRdlvl 256 0) = false := by decide
theorem illformed_idx_rdlvl : Instr.wellFormed (.mixRdlvl 0 256) = false := by decide
theorem illformed_inst_hch : Instr.wellFormed (.hchPop 256) = false := by decide

/-! ### Decoding: a word of every command, from the "command word" column of R90 with `oo` and the like written in -/

theorem test_decode_oscSetf : decode 0x00050000#32 = .ok (.oscSetf 5) := by rfl
theorem test_decode_oscNext : decode 0x01FF0000#32 = .ok (.oscNext 255) := by rfl
theorem test_decode_oscRender : decode 0x02010000#32 = .ok (.oscRender 1) := by rfl
theorem test_decode_oscRdst : decode 0x03020000#32 = .ok (.oscRdst 2) := by rfl
theorem test_decode_envNon : decode 0x10070000#32 = .ok (.envNon 7) := by rfl
theorem test_decode_envNoff : decode 0x11080000#32 = .ok (.envNoff 8) := by rfl
theorem test_decode_envProc : decode 0x12800000#32 = .ok (.envProc 128) := by rfl
theorem test_decode_envProcb : decode 0x13010000#32 = .ok (.envProcb 1) := by rfl
theorem test_decode_envRdst : decode 0x14000000#32 = .ok (.envRdst 0) := by rfl
theorem test_decode_mixSetlvl : decode 0x20030100#32 = .ok (.mixSetlvl 3 1) := by rfl
theorem test_decode_mixMix1 : decode 0x21040000#32 = .ok (.mixMix1 4) := by rfl
theorem test_decode_mixRender : decode 0x22050000#32 = .ok (.mixRender 5) := by rfl
theorem test_decode_mixRdlvl : decode 0x2301FF00#32 = .ok (.mixRdlvl 1 255) := by rfl
theorem test_decode_hchPush : decode 0x30010000#32 = .ok (.hchPush 1) := by rfl
theorem test_decode_hchPop : decode 0x31010000#32 = .ok (.hchPop 1) := by rfl
theorem test_decode_hchClosep : decode 0x32020000#32 = .ok (.hchClosep 2) := by rfl
theorem test_decode_hchClosec : decode 0x33030000#32 = .ok (.hchClosec 3) := by rfl
theorem test_decode_hchRdst : decode 0x34040000#32 = .ok (.hchRdst 4) := by rfl
theorem test_decode_sysNop : decode 0xF0000000#32 = .ok .sysNop := by rfl
theorem test_decode_sysRdflt : decode 0xF1000000#32 = .ok .sysRdflt := by rfl
theorem test_decode_sysRdcfg : decode 0xF2000000#32 = .ok .sysRdcfg := by rfl

/-- VD4, VD5, VD6, VD8, VD12, VD13: words that are no command. -/
theorem test_decode_illegal :
    decode 0x00000001#32 = .error .rsvNonzero ∧ decode 0x00000100#32 = .error .idxNonzero ∧
    decode 0x04000000#32 = .error .unlistedOp ∧ decode 0x15000000#32 = .error .unlistedOp ∧
    decode 0x21000100#32 = .error .idxNonzero ∧ decode 0x24000000#32 = .error .unlistedOp := ⟨rfl, rfl, rfl, rfl, rfl, rfl⟩

/-- VD15, VD16, VD18, VD19, VD20. -/
theorem test_decode_illegal_more :
    decode 0x35000000#32 = .error .unlistedOp ∧ decode 0xE0000000#32 = .error .reservedUnit ∧
    decode 0xF0010000#32 = .error .instNonzero ∧ decode 0xF3000000#32 = .error .unlistedOp ∧
    decode 0x3F800000#32 = .error .unlistedOp := ⟨rfl, rfl, rfl, rfl, rfl⟩

/-- The words of R95 and R96: `MIX.SETLVL 0, 1, 0.25` and `HCH.PRIME 0`. -/
theorem test_encode_words : encode (.mixSetlvl 0 1) = 0x20000100#32 ∧ encode (.hchPush 0) = 0x30000000#32 := by decide

/-! ### Oscillator -/

/-- VO1 with VO37: a valid frequency sets the increment and keeps the phase. -/
theorem test_oscSetf_keeps_phase :
    oscs (step (withOsc ⟨0x80000000#32, 0x20000000#32⟩ (given [0x00000000#32, 0x447A0000#32] []))) =
      [⟨0x80000000#32, 0x40000000#32⟩, ⟨0#32, 0#32⟩] := by decide

/-- VO38: `F_LIMIT` itself silences and resets the phase. -/
theorem test_oscSetf_limit_silences :
    oscs (step (withOsc ⟨0x80000000#32, 0x40000000#32⟩ (given [0x00000000#32, 0x44FA0000#32] []))) =
      [⟨0#32, 0#32⟩, ⟨0#32, 0#32⟩] := by decide

/-- VO6, VO7, VO9, VO10, VO14, VO16: increments at the edges of validity. -/
theorem test_newInc_vectors :
    [0x44F9FFFF#32, 0x3F000000#32, 0x357C544F#32, 0x3579A51D#32, 0x7F800000#32, 0x00000001#32].map
      (newInc Config.cfgT) = [0x7FFFFF7C, 0x00083126, 1, 0, 0, 0] := by decide

/-- VO35: emit first, then wrap past zero. -/
theorem test_oscNext_wraps :
    let r := step (withOsc ⟨0xE0000000#32, 0x60000000#32⟩ (given [0x01000000#32] []))
    sent r 0 = [0x00#32, 0xBF3504F3#32] ∧ oscs r = [⟨0x40000000#32, 0x60000000#32⟩, ⟨0#32, 0#32⟩] := by
  decide +kernel

/-- VO36. -/
theorem test_oscRender_block :
    let r := step (withOsc ⟨0#32, 0x20000000#32⟩ (given [0x02000000#32] []))
    sent r 0 = [0x00#32, 0x00000000#32, 0x3F3504F3#32, 0x3F800000#32, 0x3F3504F3#32] ∧
      oscs r = [⟨0x80000000#32, 0x20000000#32⟩, ⟨0#32, 0#32⟩] := by
  decide +kernel

/-- VO40. -/
theorem test_oscRdst :
    sent (step (withOsc ⟨0x80000000#32, 0x40000000#32⟩ (given [0x03000000#32] []))) 0 =
      [0x00#32, 0x80000000#32, 0x40000000#32] := by decide

/-- The reference sine table of 95_test_vectors.md. -/
theorem test_sine_table :
    [0x00000000#32, 0x10000000#32, 0x20000000#32, 0x30000000#32, 0x40000000#32, 0x80000000#32, 0xC0000000#32,
      0x00000001#32, 0xFFFFFFFF#32].map (sine Config.cfgT) =
      [0x00000000#32, 0x3EC3EF15#32, 0x3F3504F3#32, 0x3F6C835E#32, 0x3F800000#32, 0x00000000#32, 0xBF800000#32,
        0x30C90FDB#32, 0xB0C90FDB#32] := by
  decide +kernel

/-! ### Envelope -/

/-- VE4: retrigger from `Releasing` keeps the position. -/
theorem test_envNon_retrigger :
    envs (step (withEnv .releasing 2#32 (given [0x10000000#32] []))) = [⟨.attacking, 2#32⟩] := by decide

/-- VE7. -/
theorem test_envNoff_from_sustain :
    envs (step (withEnv .sustaining 4#32 (given [0x11000000#32] []))) = [⟨.releasing, 4#32⟩] := by decide

/-- VE22: the gain at the new position. -/
theorem test_envProc_new_position :
    let r := step (withEnv .attacking 1#32 (given [0x12000000#32, 0xBF000000#32] []))
    sent r 0 = [0x00#32, 0xBE800000#32] ∧ envs r = [⟨.attacking, 2#32⟩] := by decide +kernel

/-- VE10 and VE13: the end of a release, and the sign of a muted sample. -/
theorem test_envProc_idle_sign :
    let r := step (withEnv .releasing 1#32 (given [0x12000000#32, 0xBF800000#32] []))
    sent r 0 = [0x00#32, 0x80000000#32] ∧ envs r = [⟨.idle, 0#32⟩] := by decide +kernel

/-- "Block form" of 95_test_vectors.md 2.2: the stage changes inside the block. -/
theorem test_envProcb_stage_inside :
    let r := step (withEnv .attacking 2#32 (given (0x13000000#32 :: blockA) []))
    sent r 0 = [0x00#32, 0x3F400000#32, 0x3F800000#32, 0x3F800000#32, 0x3F800000#32] ∧
      envs r = [⟨.sustaining, 4#32⟩] := by decide +kernel

/-- 95_test_vectors.md 2.2: `ENV.RDST` in (`Releasing`, 3). -/
theorem test_envRdst :
    sent (step (withEnv .releasing 3#32 (given [0x14000000#32] []))) 0 = [0x00#32, 3#32, 3#32, 4#32] := by decide

/-- Gains of a ramp of length 3, and of the ramp of `CFG-A` (95_test_vectors.md 2.2, X3). -/
theorem test_fdivU_vectors :
    fdivU Config.cfgT 1 3 = 0x3EAAAAAB#32 ∧ fdivU Config.cfgT 2 3 = 0x3F2AAAAB#32 ∧
    fdivU Config.cfgA 440 441 = 0x3F7F6B64#32 := by decide +kernel

/-! ### Mixer -/

/-- VM14. -/
theorem test_mixSetlvl :
    ((after (step (given [0x20000000#32, 0xBF000000#32] []))).map (·.gains)) =
      some [[0xBF000000#32, 0x00000000#32]] := by decide

/-- VM16: an index out of range. -/
theorem test_mixRdlvl_index :
    let r := step (given [0x23000200#32] [])
    sent r 0 = [0x83#32] ∧ (after r).map (fun t => (t.fault, t.fport, t.fcmd)) = some (3#8, 0#8, 0x23000200#32) := by
  decide

/-- VM15: a NaN gain is stored as it is. -/
theorem test_mixRdlvl_pattern :
    sent (step (withGains 0#32 0x7FC00001#32 (given [0x23000100#32] []))) 0 = [0x00#32, 0x7FC00001#32] := by decide

/-- X5 and VM2: the source's example, and the accumulator that starts at `+0.0`. -/
theorem test_mixMix1 :
    sent (step (withGains 0x3F000000#32 0x3E800000#32 (given [0x21000000#32, 0x3F800000#32, 0x40000000#32] []))) 0 =
      [0x00#32, 0x3F800000#32] ∧
    sent (step (withGains 0x3F000000#32 0x3E800000#32 (given [0x21000000#32, 0x80000000#32, 0x80000000#32] []))) 0 =
      [0x00#32, 0x00000000#32] := by decide +kernel

/-- VM9 and VM11: rounding, and the order of the sum. -/
theorem test_mixSum_rounding :
    (mixSum Config.cfgT 0 [0x3F800000#32, 0x3F800000#32, 0x3F800000#32]
      [0x4B800000#32, 0x3F800000#32, 0x3F800000#32]).1 = 0x4B800000#32 ∧
    (mixSum Config.cfgT 0 [0x3DCCCCCD#32, 0x3E4CCCCD#32] [0x3F800000#32, 0x3F800000#32]).1 = 0x3E99999A#32 := by
  decide +kernel

/-- `MIX.RENDER` of 95_test_vectors.md 2.3: source-major payload. -/
theorem test_mixRender :
    sent (step (withGains 0x3F000000#32 0x3E800000#32 (given [0x22000000#32, 0x00000000#32, 0x3F800000#32,
      0x00000000#32, 0xBF800000#32, 0x3F800000#32, 0x3F800000#32, 0x40000000#32, 0x40000000#32] []))) 0 =
      [0x00#32, 0x3E800000#32, 0x3F400000#32, 0x3F000000#32, 0x00000000#32] := by decide +kernel

/-! ### Handoff -/

/-- VH2 and VH7: priming a cell, and overwriting a full one. -/
theorem test_hchPush_cell :
    slots (step (given [0x30000000#32, 0#32, 0#32, 0#32, 0#32] [])) = [some [0#32, 0#32, 0#32, 0#32], none] ∧
    sent (step (withCell ⟨some blockA, true, true⟩ (given (0x30000000#32 :: blockA) []))) 0 = [0x85#32] := by decide

/-- VH13 and VH26: a push that holds, and one released by the consumer's close. -/
theorem test_hchPush_rdv :
    after (step (withRdv ⟨some blockA, true, true⟩ (given (0x30010000#32 :: blockA) []))) = none ∧
    sent (step (withRdv ⟨some blockA, true, false⟩ (given (0x30010000#32 :: blockA) []))) 0 = [0x02#32] := by decide

/-- VH17: a pending block is delivered after the producer's close. -/
theorem test_hchPop_after_close :
    let r := step (withRdv ⟨some blockA, false, true⟩ (given [] [0x31010000#32]))
    sent r 1 = 0x00#32 :: blockA ∧ slots r = [none, none] := by decide

/-- VH18 and VH8: end of stream, and the read of an empty cell. -/
theorem test_hchPop_empty :
    sent (step (withRdv ⟨none, false, true⟩ (given [] [0x31010000#32]))) 1 = [0x01#32, 0#32, 0#32, 0#32, 0#32] ∧
    sent (step (given [0x31000000#32] [])) 0 = [0x84#32] := by decide

/-- VH16 and VH9. -/
theorem test_hchClosep :
    (after (step (withRdv ⟨some blockA, true, true⟩ (given [0x32010000#32] [])))).map (·.chans) =
      some [emptyCh, ⟨some blockA, false, true⟩] ∧
    sent (step (given [0x32000000#32] [])) 0 = [0x87#32] := by decide

/-- VH25 and R197. -/
theorem test_hchClosec :
    (after (step (withRdv ⟨some blockA, true, true⟩ (given [] [0x33010000#32])))).map (·.chans) =
      some [emptyCh, ⟨some blockA, true, false⟩] := by decide

/-- VH1, VH12, VH21. -/
theorem test_hchRdst :
    sent (step (given [0x34000000#32] [])) 0 = [0x00#32, 0x6#32] ∧
    sent (step (withRdv ⟨some blockA, true, true⟩ (given [0x34010000#32] []))) 0 = [0x00#32, 0xF#32] ∧
    sent (step (withRdv ⟨none, false, true⟩ (given [] [0x34010000#32]))) 1 = [0x00#32, 0xC#32] := by decide

/-! ### System, faults, priority -/

/-- VS1, VS3. -/
theorem test_sys :
    sent (step (given [] [0xF0000000#32])) 1 = [0x00#32] ∧
    sent (step (given [0xF2000000#32] [])) 0 =
      [0x00#32, 0x0FA0#32, 0x4#32, 0x1#32, 0x4#32, 0x02010102#32] := by decide

/-- What a block built with `c` answers to `SYS.RDCFG` right after reset. -/
def readsConfig (c : Config) : List Word :=
  match stepWith c { BlockState.resetWith c with cmdIn := (BlockState.resetWith c).cmdIn.set 0 [0xF2000000#32] } with
  | .next b => b.respOut.getD 0 []
  | .fault _ => []
  | .refused _ => []

/-- R5: the configuration is an argument, so blocks of several configurations stand side by side (values of R9, R222). -/
theorem test_two_blocks :
    readsConfig Config.cfgT = [0x00#32, 0x0FA0#32, 0x4#32, 0x1#32, 0x4#32, 0x02010102#32] ∧
    readsConfig Config.cfgA = [0x00#32, 0xAC44#32, 0x10#32, 0xA#32, 0x1B9#32, 0x01010102#32] := by decide

/-- VS4 with VQ1: an owner fault on port 1, then the record. -/
theorem test_owner_fault :
    (after (step (given [] [0x01000000#32]))).map (fun t => (t.fault, t.fport, t.fcmd, t.respOut)) =
      some (6#8, 1#8, 0x01000000#32, [[], [0x86#32]]) ∧
    sent (step { given [0xF1000000#32] [] with fault := 6#8, fport := 1#8, fcmd := 0x01000000#32 }) 0 =
      [0x00#32, 0x0106#32, 0x01000000#32] := by decide

/-- VQ3, VD11: an illegal word before its owner, a missing instance before a mixer index. -/
theorem test_priority :
    sent (step (given [] [0x01000001#32])) 1 = [0x81#32] ∧
    sent (step (given [0x2001FF00#32] [])) 0 = [0x82#32] := by decide

/-- P5: a halted block takes every word as a command word and refuses it. -/
theorem test_halted :
    (after (step { given [0x00000000#32, 0x447A0000#32] [] with fault := 4#8 })).map
      (fun t => (t.cmdIn, t.respOut, t.oscs)) =
      some ([[0x447A0000#32], []], [[0xFF#32], []], State.reset.oscs) := by decide

/-- The host's fetch: the word is the next command executed. -/
theorem test_withFetchWord :
    sent (step (State.reset.withFetchWord 32 0xF0000000)) 0 = [0x00#32] ∧
    (State.reset.withFetchWord 32 0x00000000).cmdIn = [[0#32, 0#32], []] ∧
    (State.reset.withFetchWord 32 0x22000000).cmdIn = [0x22000000#32 :: List.replicate 8 0#32, []] := by decide

/-- The example configurations are valid (R7, R9); a zero block size and a zero ramp length are not (R7, 2.2). -/
theorem test_configOk :
    configOk Config.cfgA = true ∧ configOk Config.cfgT = true ∧ configOk { Config.cfgT with block := 0 } = false ∧
    configOk { Config.cfgT with sampleRate := 500, fLimitNum := 100 } = false := by decide

end Sys2Proof.Tests

/-! ### Witnesses: concrete states and operands that meet the hypotheses of the Slice0 obligations

Each is named after its obligation and, where that has several clauses, after the clause. -/

namespace Sys2Proof.Tests

/-- Port 0 holds `ws`; nothing has been sent. -/
def head0 (cmd : Word) (payload rest : List Word) : State := given (cmd :: (payload ++ rest)) []
/-- Port 1 holds them and is being served. -/
def head1 (cmd : Word) (payload rest : List Word) : State := given1 [] (cmd :: (payload ++ rest))

theorem stateOk_given_nop : StateOk (given [0xF0000000#32] []) where
  config := by decide
  cmdIn_length := by decide
  respOut_length := by decide
  oscs_length := by decide
  envs_length := by decide
  gains_lengths := by decide
  chans_length := by decide
  oscs_ok := by decide
  envs_ok := by decide
  chans_ok := by
    intro ch hc b hb
    simp only [given, State.reset, State.resetWith, BlockState.resetWith, BlockState.under, Config.cfgT,
      List.map_cons, List.map_nil, List.mem_cons, List.not_mem_nil, or_false, or_self] at hc
    simp [hc] at hb
  cells_open := by
    intro c ch h
    rcases c with _ | _ | c <;>
      simp_all [given, State.reset, State.resetWith, BlockState.resetWith, BlockState.under, Config.cfgT] <;> (intro _; subst_vars; simp)
  port_lt := by decide
  fport_lt := by decide
  fault_le := by decide
  record_zero := by decide

/-! Encoding -/

theorem witness_DecodeOfEncodeIsTheCommand : Instr.wellFormed (.mixSetlvl 255 255) = true := by decide
theorem witness_EncodeOfDecodeIsTheWord : decode 0x23FFFF00#32 = .ok (.mixRdlvl 255 255) := by rfl
theorem witness_DecoderAgreesWithOpcodeMap_ok : decode 0xF2000000#32 = .ok .sysRdcfg := by rfl
theorem witness_DecoderAgreesWithOpcodeMap_error : decode 0xF2000001#32 = .error .rsvNonzero := by rfl
theorem witness_IllegalWordsAreThoseOfTheSpec :
    0xE = (BitVec.extractLsb' 28 4 0xE4030201#32).toNat ∧ 4 = (BitVec.extractLsb' 24 4 0xE4030201#32).toNat ∧
    3 = (BitVec.extractLsb' 16 8 0xE4030201#32).toNat ∧ 2 = (BitVec.extractLsb' 8 8 0xE4030201#32).toNat ∧
    1 = (BitVec.extractLsb' 0 8 0xE4030201#32).toNat := by decide

/-! Steps -/

theorem witness_StepRunsTheDecodedCommand :
    let s := given [0xF0000000#32] []
    configOk s.cfg = true ∧ chosenPort s = some 0 ∧ s.cmdIn[0]? = some [0xF0000000#32] ∧
      decode 0xF0000000#32 = .ok .sysNop := ⟨by decide, by decide, by decide, rfl⟩
theorem witness_StepServesAnEnabledPort : ∃ t, step (given [] [0xF0000000#32]) = .next t := ⟨_, rfl⟩
theorem witness_StepServesAnEnabledPort_argument :
    ∃ t, step ((given [] [0xF0000000#32]).toBlockState.under Config.cfgT) = .next t := ⟨_, rfl⟩
theorem witness_StepServesAnEnabledPort_command :
    ∃ t, exec .sysNop (head0 0xF0000000#32 [] []) = .next t := ⟨_, rfl⟩
theorem witness_StepStops_invalid : configOk { State.reset with cfg := { Config.cfgT with block := 0 } }.cfg = false := by
  decide
theorem witness_StepStops_enabled :
    let s := given [] [0xF0000000#32]
    configOk s.cfg = true ∧ 1 < s.cfg.nPort ∧ enabled s 1 = true := by decide
theorem witness_StepStops_none :
    configOk State.reset.cfg = true ∧ ∀ p, p < State.reset.cfg.nPort → enabled State.reset p = false := by decide
theorem witness_IllegalWordFaults :
    let s := given [] [0x40000000#32]
    s.fault = 0#8 ∧ s.cmdIn[1]? = some [0x40000000#32] ∧ s.respOut[1]? = some [] ∧
      decode 0x40000000#32 = .error .reservedUnit := ⟨by decide, by decide, by decide, rfl⟩
theorem witness_HaltedBlockRefusesEveryWord :
    let s := { given [0xF1000001#32] [] with fault := 7#8 }
    s.fault ≠ 0#8 ∧ s.cmdIn[0]? = some [0xF1000001#32] ∧ s.respOut[0]? = some [] ∧
      0xF1000001#32 ≠ 0xF1000000#32 := by decide
theorem witness_HaltIsPermanent :
    let s := { given [0x10000000#32] [] with fault := 1#8 }
    s.fault ≠ 0#8 ∧ ∃ t, step s = .next t := ⟨by decide, _, rfl⟩
theorem witness_OnlyPushAndPopHold_push :
    let s := withRdv ⟨some blockA, true, true⟩ (head0 0x30010000#32 blockA [])
    exec (.hchPush 1) s = .fault .held ∧ s.fault = 0#8 ∧ s.cfg.channels[1]? = some ⟨.rdv, 0, 1⟩ ∧
      s.chans[1]? = some ⟨some blockA, true, true⟩ ∧ s.port = 0 := ⟨rfl, by decide, by decide, by decide, by decide⟩
theorem witness_OnlyPushAndPopHold_pop :
    let s := withRdv ⟨none, true, true⟩ (head1 0x31010000#32 [] [])
    exec (.hchPop 1) s = .fault .held ∧ s.fault = 0#8 ∧ s.cfg.channels[1]? = some ⟨.rdv, 0, 1⟩ ∧
      s.chans[1]? = some ⟨none, true, true⟩ ∧ s.port = 1 := ⟨rfl, by decide, by decide, by decide, by decide⟩
theorem witness_OnlyPushAndPopHold_payload :
    let s := head0 0x20000000#32 [0x3F800000#32] []
    exec (.mixMix1 0) s = .fault .payloadIncomplete ∧ s.cmdIn[s.port]? = some [0x20000000#32, 0x3F800000#32] :=
  ⟨rfl, by decide⟩
theorem witness_OnlyPushAndPopHold_oscSetf :
    let s := (head0 (encode (.oscSetf 0)) [] [])
    s.fault = 0#8 ∧ s.cmdIn[s.port]? = some (encode (.oscSetf 0) :: []) ∧
      s.cfg.ownOsc[0]? = some s.port ∧ 0 < 1 := by decide
theorem witness_OnlyPushAndPopHold_envProc :
    let s := (head0 (encode (.envProc 0)) [] [])
    s.fault = 0#8 ∧ s.cmdIn[s.port]? = some (encode (.envProc 0) :: []) ∧
      s.cfg.ownEnv[0]? = some s.port ∧ 0 < 1 := by decide
theorem witness_OnlyPushAndPopHold_envProcb :
    let s := (head0 (encode (.envProcb 0)) [0#32, 0#32, 0#32] [])
    s.fault = 0#8 ∧ s.cmdIn[s.port]? = some (encode (.envProcb 0) :: [0#32, 0#32, 0#32]) ∧
      s.cfg.ownEnv[0]? = some s.port ∧ 3 < s.cfg.block := by decide
theorem witness_OnlyPushAndPopHold_mixSetlvl :
    let s := (head0 (encode (.mixSetlvl 0 1)) [] [])
    s.fault = 0#8 ∧ s.cmdIn[s.port]? = some (encode (.mixSetlvl 0 1) :: []) ∧
      s.cfg.mixers[0]? = some ⟨0, [0#32, 0#32]⟩ ∧ 0 = s.port ∧ 1 < 2 ∧ 0 < 1 := by decide
theorem witness_OnlyPushAndPopHold_mixMix1 :
    let s := (head0 (encode (.mixMix1 0)) [0#32] [])
    s.fault = 0#8 ∧ s.cmdIn[s.port]? = some (encode (.mixMix1 0) :: [0#32]) ∧
      s.cfg.mixers[0]? = some ⟨0, [0#32, 0#32]⟩ ∧ 0 = s.port ∧ 1 < 2 := by decide
theorem witness_OnlyPushAndPopHold_mixRender :
    let s := (head0 (encode (.mixRender 0)) [0#32, 0#32, 0#32, 0#32, 0#32, 0#32, 0#32] [])
    s.fault = 0#8 ∧ s.cmdIn[s.port]? = some (encode (.mixRender 0) :: [0#32, 0#32, 0#32, 0#32, 0#32, 0#32, 0#32]) ∧
      s.cfg.mixers[0]? = some ⟨0, [0#32, 0#32]⟩ ∧ 0 = s.port ∧ 7 < 2 * s.cfg.block := by decide
theorem witness_OnlyPushAndPopHold_pushCell :
    let s := withCell emptyCh (head0 (encode (.hchPush 0)) [0#32, 0#32, 0#32] [])
    s.fault = 0#8 ∧ s.cmdIn[s.port]? = some (encode (.hchPush 0) :: [0#32, 0#32, 0#32]) ∧
      s.cfg.channels[0]? = some ⟨.cell, 0, 0⟩ ∧ 0 = s.port ∧ s.chans[0]? = some emptyCh ∧ 3 < s.cfg.block ∧
      emptyCh.slot = none := by decide
theorem witness_OnlyPushAndPopHold_pushRdv :
    let s := withRdv emptyCh (head0 (encode (.hchPush 1)) [0#32, 0#32, 0#32] [])
    s.fault = 0#8 ∧ s.cmdIn[s.port]? = some (encode (.hchPush 1) :: [0#32, 0#32, 0#32]) ∧
      s.cfg.channels[1]? = some ⟨.rdv, 0, 1⟩ ∧ 0 = s.port ∧ s.chans[1]? = some emptyCh ∧ 3 < s.cfg.block ∧
      emptyCh.slot = none ∧ emptyCh.popen = true := by decide
theorem witness_OnlyPushAndPopHold_pushGone :
    let s := withRdv ⟨some blockA, true, false⟩ (head0 (encode (.hchPush 1)) [0#32, 0#32, 0#32] [])
    s.fault = 0#8 ∧ s.cmdIn[s.port]? = some (encode (.hchPush 1) :: [0#32, 0#32, 0#32]) ∧
      s.cfg.channels[1]? = some ⟨.rdv, 0, 1⟩ ∧ 0 = s.port ∧ 3 < s.cfg.block ∧
      s.chans[1]? = some ⟨some blockA, true, false⟩ := by decide

/-! Faults -/

theorem witness_FaultChangesOnlyTheRecord :
    let s := head0 (encode (.oscNext 2)) [] [7#32]
    s.fault = 0#8 ∧ AtHead s (encode (.oscNext 2)) [] [7#32] [] ∧
      ∃ t, exec (.oscNext 2) s = .next t ∧ t.fault ≠ 0#8 := ⟨by decide, by decide, _, rfl, by decide⟩
theorem witness_MissingInstanceFaults_osc :
    let s := head0 (encode (.oscSetf 2)) [] [7#32]
    s.fault = 0#8 ∧ AtHead s (encode (.oscSetf 2)) [] [7#32] [] ∧ s.cfg.ownOsc.length ≤ 2 := by decide
theorem witness_MissingInstanceFaults_env :
    let s := head0 (encode (.envProc 1)) [] []
    s.fault = 0#8 ∧ AtHead s (encode (.envProc 1)) [] [] [] ∧ s.cfg.ownEnv.length ≤ 1 := by decide
theorem witness_MissingInstanceFaults_mix :
    let s := head0 (encode (.mixRdlvl 1 255)) [] []
    s.fault = 0#8 ∧ AtHead s (encode (.mixRdlvl 1 255)) [] [] [] ∧ s.cfg.mixers.length ≤ 1 := by decide
theorem witness_MissingInstanceFaults_hch :
    let s := head1 (encode (.hchPop 2)) [] []
    s.fault = 0#8 ∧ AtHead s (encode (.hchPop 2)) [] [] [] ∧ s.cfg.channels.length ≤ 2 := by decide
theorem witness_ForeignPortFaults_osc :
    let s := head1 (encode (.oscNext 0)) [] []
    s.fault = 0#8 ∧ AtHead s (encode (.oscNext 0)) [] [] [] ∧ s.cfg.ownOsc[0]? = some 0 ∧ 0 ≠ s.port := by decide
theorem witness_ForeignPortFaults_env :
    let s := head1 (encode (.envNon 0)) [] []
    s.fault = 0#8 ∧ AtHead s (encode (.envNon 0)) [] [] [] ∧ s.cfg.ownEnv[0]? = some 0 ∧ 0 ≠ s.port := by decide
theorem witness_ForeignPortFaults_mix :
    let s := head1 (encode (.mixSetlvl 0 2)) [] []
    s.fault = 0#8 ∧ AtHead s (encode (.mixSetlvl 0 2)) [] [] [] ∧
      s.cfg.mixers[0]? = some ⟨0, [0#32, 0#32]⟩ ∧ 0 ≠ s.port := by decide
theorem witness_ForeignPortFaults_push :
    let s := head1 (encode (.hchPush 1)) [] blockA
    s.fault = 0#8 ∧ AtHead s (encode (.hchPush 1)) [] blockA [] ∧ s.cfg.channels[1]? = some ⟨.rdv, 0, 1⟩ ∧
      0 ≠ s.port := by decide
theorem witness_ForeignPortFaults_pop :
    let s := head0 (encode (.hchPop 1)) [] []
    s.fault = 0#8 ∧ AtHead s (encode (.hchPop 1)) [] [] [] ∧ s.cfg.channels[1]? = some ⟨.rdv, 0, 1⟩ ∧
      1 ≠ s.port := by decide
theorem witness_ForeignPortFaults_rdst :
    let s := head1 (encode (.hchRdst 0)) [] []
    s.fault = 0#8 ∧ AtHead s (encode (.hchRdst 0)) [] [] [] ∧ s.cfg.channels[0]? = some ⟨.cell, 0, 0⟩ ∧
      0 ≠ s.port := by decide
theorem witness_MixerIndexFaults :
    let s := head0 (encode (.mixSetlvl 0 2)) [] [0#32]
    s.fault = 0#8 ∧ AtHead s (encode (.mixSetlvl 0 2)) [] [0#32] [] ∧
      s.cfg.mixers[0]? = some ⟨0, [0#32, 0#32]⟩ ∧ 0 = s.port ∧ [0#32, 0#32].length ≤ 2 := by decide
theorem witness_CellMisuseFaults_pop :
    let s := head0 (encode (.hchPop 0)) [] []
    s.fault = 0#8 ∧ s.cfg.channels[0]? = some ⟨.cell, 0, 0⟩ ∧ s.chans[0]? = some ⟨none, true, true⟩ ∧
      AtHead s (encode (.hchPop 0)) [] [] [] ∧ 0 = s.port := by decide
theorem witness_CellMisuseFaults_push :
    let s := withCell ⟨some blockA, true, true⟩ (head0 (encode (.hchPush 0)) [] blockA)
    s.fault = 0#8 ∧ s.cfg.channels[0]? = some ⟨.cell, 0, 0⟩ ∧ s.chans[0]? = some ⟨some blockA, true, true⟩ ∧
      AtHead s (encode (.hchPush 0)) [] blockA [] ∧ 0 = s.port := by decide
theorem witness_ChannelMisuseFaults_closep :
    let s := head0 (encode (.hchClosep 0)) [] []
    s.fault = 0#8 ∧ AtHead s (encode (.hchClosep 0)) [] [] [] ∧ s.cfg.channels[0]? = some ⟨.cell, 0, 0⟩ ∧
      s.chans[0]? = some emptyCh ∧ 0 = s.port := by decide
theorem witness_ChannelMisuseFaults_closec :
    let s := head0 (encode (.hchClosec 0)) [] []
    s.fault = 0#8 ∧ AtHead s (encode (.hchClosec 0)) [] [] [] ∧ s.cfg.channels[0]? = some ⟨.cell, 0, 0⟩ ∧
      s.chans[0]? = some emptyCh ∧ 0 = s.port := by decide
theorem witness_ChannelMisuseFaults_push :
    let s := withRdv ⟨none, false, true⟩ (head0 (encode (.hchPush 1)) [] blockA)
    s.fault = 0#8 ∧ AtHead s (encode (.hchPush 1)) [] blockA [] ∧ s.cfg.channels[1]? = some ⟨.rdv, 0, 1⟩ ∧
      s.chans[1]? = some ⟨none, false, true⟩ ∧ 0 = s.port := by decide
theorem witness_ChannelMisuseFaults_pop :
    let s := withRdv ⟨none, true, false⟩ (head1 (encode (.hchPop 1)) [] [])
    s.fault = 0#8 ∧ AtHead s (encode (.hchPop 1)) [] [] [] ∧ s.cfg.channels[1]? = some ⟨.rdv, 0, 1⟩ ∧
      s.chans[1]? = some ⟨none, true, false⟩ ∧ 1 = s.port := by decide

/-! Oscillator -/

theorem witness_OscSetfResult_valid :
    let s := withOsc ⟨5#32, 0x20000000#32⟩ (head0 (encode (.oscSetf 0)) [0x44F9FFFF#32] [])
    s.fault = 0#8 ∧ configOk s.cfg = true ∧ s.cfg.ownOsc[0]? = some s.port ∧
      s.oscs[0]? = some ⟨5#32, 0x20000000#32⟩ ∧ AtHead s (encode (.oscSetf 0)) [0x44F9FFFF#32] [] [] ∧
      FiniteF32 0x44F9FFFF#32 ∧ 0 < realOf 0x44F9FFFF#32 ∧ realOf 0x44F9FFFF#32 < fLimit s.cfg ∧
      1 ≤ realOf 0x44F9FFFF#32 * 2 ^ 32 / s.cfg.sampleRate := by decide +kernel
theorem witness_OscSetfResult_silent :
    let s := head0 (encode (.oscSetf 1)) [0x44FA0000#32] []
    s.fault = 0#8 ∧ configOk s.cfg = true ∧ s.cfg.ownOsc[1]? = some s.port ∧ s.oscs[1]? = some ⟨0#32, 0#32⟩ ∧
      AtHead s (encode (.oscSetf 1)) [0x44FA0000#32] [] [] ∧ ¬realOf 0x44FA0000#32 < fLimit s.cfg := by
  decide +kernel
theorem witness_OscNextResult :
    let s := withOsc ⟨0xC0000000#32, 0x40000000#32⟩ (head0 (encode (.oscNext 0)) [] [])
    s.fault = 0#8 ∧ s.cfg.ownOsc[0]? = some s.port ∧ s.oscs[0]? = some ⟨0xC0000000#32, 0x40000000#32⟩ ∧
      AtHead s (encode (.oscNext 0)) [] [] [] := by decide
theorem witness_OscRenderResult :
    let s := withOsc ⟨0xC0000000#32, 0x40000000#32⟩ (head0 (encode (.oscRender 0)) [] [])
    s.fault = 0#8 ∧ s.cfg.ownOsc[0]? = some s.port ∧ s.oscs[0]? = some ⟨0xC0000000#32, 0x40000000#32⟩ ∧
      AtHead s (encode (.oscRender 0)) [] [] [] := by decide
theorem witness_OscRdstResult :
    let s := head0 (encode (.oscRdst 1)) [] []
    s.fault = 0#8 ∧ s.cfg.ownOsc[1]? = some s.port ∧ s.oscs[1]? = some ⟨0#32, 0#32⟩ ∧
      AtHead s (encode (.oscRdst 1)) [] [] [] := by decide
theorem witness_IncrementIsTheExactFloor :
    1 ≤ Config.cfgT.sampleRate ∧ FiniteF32 0x44F9FFFF#32 ∧ 0 < realOf 0x44F9FFFF#32 ∧
      realOf 0x44F9FFFF#32 < (Config.cfgT.sampleRate : ℚ) / 2 := by decide +kernel
theorem witness_FrequencyValidity :
    0 < Config.cfgT.fLimitDen ∧ freqValid Config.cfgT 0x00000001#32 = true ∧
      freqValid Config.cfgT 0x44FA0000#32 = false ∧ newInc Config.cfgT 0x00000001#32 = 0 := by decide
theorem witness_ReferenceSineFacts : Config.cfgT.sineImpl = .reference ∧ 0x80000000#32 ≠ 0#32 := by decide
theorem witness_ReferenceSineIsNearTheRealSine : Config.cfgT.sineImpl = .reference := by decide
theorem witness_OscillatorOutputRepeats :
    let v : OscState := ⟨3#32, 0x60000000#32⟩
    v.inc ≠ 0#32 ∧ 8 = 2 ^ 32 / Nat.gcd v.inc.toNat (2 ^ 32) := by decide

/-! Envelope -/

theorem witness_EnvNoteEventResults_idle :
    let s := head0 (encode (.envNon 0)) [] []
    s.fault = 0#8 ∧ s.cfg.ownEnv[0]? = some s.port ∧ s.envs[0]? = some ⟨.idle, 0#32⟩ ∧
      AtHead s (encode (.envNon 0)) [] [] [] := by decide
theorem witness_EnvNoteEventResults_releasing :
    let s := withEnv .releasing 2#32 (head0 (encode (.envNon 0)) [] [])
    s.fault = 0#8 ∧ s.cfg.ownEnv[0]? = some s.port ∧ s.envs[0]? = some ⟨.releasing, 2#32⟩ ∧
      AtHead s (encode (.envNon 0)) [] [] [] ∧ Stage.releasing ≠ .idle := by decide
theorem witness_EnvNoteEventResults_off :
    let s := withEnv .sustaining 4#32 (head0 (encode (.envNoff 0)) [] [])
    s.fault = 0#8 ∧ s.cfg.ownEnv[0]? = some s.port ∧ s.envs[0]? = some ⟨.sustaining, 4#32⟩ ∧
      AtHead s (encode (.envNoff 0)) [] [] [] := by decide
theorem witness_EnvelopeStepTable : 1 ≤ 2 ^ 32 - 1 ∧ 2 ^ 32 - 1 < 2 ^ 32 ∧ 2 ^ 32 - 1 ≤ 2 ^ 32 - 1 := by decide
theorem witness_EnvProcResult :
    let s := withEnv .sustaining 4#32 (head0 (encode (.envProc 0)) [0x3DCCCCCD#32] [])
    s.fault = 0#8 ∧ s.cfg.ownEnv[0]? = some s.port ∧ s.envs[0]? = some ⟨.sustaining, 4#32⟩ ∧
      AtHead s (encode (.envProc 0)) [0x3DCCCCCD#32] [] [] ∧
      (⟨.sustaining, 4#32⟩ : EnvState) = envStep (rampLen s.cfg) ⟨.sustaining, 4#32⟩ ∧
      (0x3DCCCCCD#32, 0) = fmul s.cfg s.nanDraws 0x3DCCCCCD#32 (fdivU s.cfg 4 (rampLen s.cfg)) := by decide +kernel
theorem witness_EnvProcbResult :
    let s := head0 (encode (.envProcb 0)) blockA []
    s.fault = 0#8 ∧ s.cfg.ownEnv[0]? = some s.port ∧ s.envs[0]? = some ⟨.idle, 0#32⟩ ∧
      blockA.length = s.cfg.block ∧ AtHead s (encode (.envProcb 0)) blockA [] [] := by decide
theorem witness_EnvRdstResult :
    let s := withEnv .releasing 3#32 (head0 (encode (.envRdst 0)) [] [])
    s.fault = 0#8 ∧ s.cfg.ownEnv[0]? = some s.port ∧ s.envs[0]? = some ⟨.releasing, 3#32⟩ ∧
      AtHead s (encode (.envRdst 0)) [] [] [] ∧
      (Stage.releasing, 3#32) ∈
        [(Stage.idle, 0#32), (.attacking, 1#32), (.sustaining, 2#32), (.releasing, 3#32)] := by decide
theorem witness_FullAttackAndRelease :
    1 ≤ 4 ∧ 4 < 2 ^ 32 ∧ 4 ≤ 4 ∧ EnvOk 4 ⟨.idle, 0#32⟩ ∧
      (⟨.sustaining, 4#32⟩ : EnvState) = (envStep 4)^[4] (envNoteOn ⟨.idle, 0#32⟩) ∧
      (⟨.idle, 0#32⟩ : EnvState) = (envStep 4)^[4] (envNoteOff ((envStep 4)^[4] (envNoteOn ⟨.idle, 0#32⟩))) := by
  decide
theorem witness_EnvelopeGainEndsAreExact : 1 ≤ 1 := by decide

/-! Mixer -/

theorem witness_MixSetlvlResult :
    let s := head0 (encode (.mixSetlvl 0 1)) [0x7FC00001#32] []
    s.fault = 0#8 ∧ s.cfg.mixers[0]? = some ⟨0, [0#32, 0#32]⟩ ∧ 0 = s.port ∧ 1 < [0#32, 0#32].length ∧
      s.gains[0]? = some [0#32, 0#32] ∧ AtHead s (encode (.mixSetlvl 0 1)) [0x7FC00001#32] [] [] := by decide
theorem witness_MixMix1Result :
    let s := withGains 0x3F000000#32 0x3E800000#32 (head0 (encode (.mixMix1 0)) [0x3F800000#32, 0x40000000#32] [])
    s.fault = 0#8 ∧ s.cfg.mixers[0]? = some ⟨0, [0#32, 0#32]⟩ ∧ 0 = s.port ∧
      s.gains[0]? = some [0x3F000000#32, 0x3E800000#32] ∧
      [0x3F800000#32, 0x40000000#32].length = [0#32, 0#32].length ∧
      AtHead s (encode (.mixMix1 0)) [0x3F800000#32, 0x40000000#32] [] [] ∧
      (0x3F800000#32, 0) =
        ([0x3F800000#32, 0x40000000#32].zip [0x3F000000#32, 0x3E800000#32]).foldl
          (fun acc xg => fadd s.cfg (fmul s.cfg acc.2 xg.1 xg.2).2 acc.1 (fmul s.cfg acc.2 xg.1 xg.2).1)
          (0x00000000#32, s.nanDraws) := by decide +kernel
theorem witness_MixRenderResult :
    let s := head0 (encode (.mixRender 0)) (blockA ++ blockA) []
    s.fault = 0#8 ∧ s.cfg.mixers[0]? = some ⟨0, [0#32, 0#32]⟩ ∧ 0 = s.port ∧ s.gains[0]? = some [0#32, 0#32] ∧
      (blockA ++ blockA).length = [0#32, 0#32].length * s.cfg.block ∧
      AtHead s (encode (.mixRender 0)) (blockA ++ blockA) [] [] := by decide
theorem witness_MixRdlvlResult :
    let s := withGains 0#32 0x7FC00001#32 (head0 (encode (.mixRdlvl 0 1)) [] [])
    s.fault = 0#8 ∧ s.cfg.mixers[0]? = some ⟨0, [0#32, 0#32]⟩ ∧ 0 = s.port ∧ 1 < [0#32, 0#32].length ∧
      s.gains[0]? = some [0#32, 0x7FC00001#32] ∧ [0#32, 0x7FC00001#32][1]? = some 0x7FC00001#32 ∧
      AtHead s (encode (.mixRdlvl 0 1)) [] [] [] := by decide
theorem witness_SilenceMixesToSilence_inputs :
    (∀ x ∈ [0x80000000#32, 0x00000000#32], IsZeroF32 x) ∧ ∀ g ∈ [0xFF7FFFFF#32, 0x00000001#32], FiniteF32 g := by
  constructor <;> intro x hx <;> simp only [List.mem_cons, List.not_mem_nil, or_false] at hx <;>
    rcases hx with rfl | rfl <;> decide
theorem witness_SilenceMixesToSilence_gains :
    (∀ x ∈ [0xFF7FFFFF#32, 0x00000001#32], FiniteF32 x) ∧ ∀ g ∈ [0x80000000#32, 0x00000000#32], IsZeroF32 g := by
  constructor <;> intro x hx <;> simp only [List.mem_cons, List.not_mem_nil, or_false] at hx <;>
    rcases hx with rfl | rfl <;> decide

/-! Multiplier, adder, quotient -/

theorem witness_RepresentableResultsAreExact_product :
    FiniteF32 0x00000002#32 ∧ FiniteF32 0x3F000000#32 ∧ FiniteF32 0x00000001#32 ∧
      realOf 0x00000001#32 = realOf 0x00000002#32 * realOf 0x3F000000#32 ∧ realOf 0x00000001#32 ≠ 0 := by decide +kernel
theorem witness_RepresentableResultsAreExact_sum :
    FiniteF32 0x3F800000#32 ∧ FiniteF32 0xBF000000#32 ∧
      realOf 0x3F000000#32 = realOf 0x3F800000#32 + realOf 0xBF000000#32 ∧ realOf 0x3F000000#32 ≠ 0 := by decide +kernel
theorem witness_RepresentableResultsAreExact_zero :
    realOf 0x80000000#32 * realOf 0x3F800000#32 = 0 ∧ realOf 0x80000000#32 + realOf 0x80000000#32 = 0 := by
  decide +kernel
theorem witness_SpecialOperandResults :
    IsNaNF32 0x7F800001#32 ∧ (IsInfF32 0x7F800000#32 ∧ IsZeroF32 0x80000000#32) ∧
      (IsInfF32 0x7F800000#32 ∧ IsInfF32 0xFF800000#32 ∧ 0x7F800000#32 ≠ 0xFF800000#32) ∧
      (IsInfF32 0xFF800000#32 ∧ ¬IsNaNF32 0x00000001#32 ∧ ¬IsZeroF32 0x00000001#32) ∧
      (IsInfF32 0xFF800000#32 ∧ FiniteF32 0x7F7FFFFF#32) := by decide
theorem witness_InexactResultsAreNeighbours :
    FiniteF32 0x3DCCCCCD#32 ∧ FiniteF32 0x3E4CCCCD#32 ∧
      0x3E99999A#32 = (fadd Config.cfgT 0 0x3DCCCCCD#32 0x3E4CCCCD#32).1 ∧
      FiniteF32 0x7F7FFFFF#32 ∧ 0x7F800000#32 = (fmul Config.cfgT 0 0x7F7FFFFF#32 0x40000000#32).1 ∧
      0x3EAAAAAB#32 = fdivU Config.cfgT 1 3 := by decide +kernel
theorem witness_ReferenceRoundsToNearestEven :
    Config.cfgT.fmulImpl = .reference ∧ Config.cfgT.faddImpl = .reference ∧ Config.cfgT.fdivImpl = .reference ∧
      FiniteF32 0x00000003#32 ∧ FiniteF32 0x3F000000#32 ∧
      0x00000002#32 = (fmul Config.cfgT 0 0x00000003#32 0x3F000000#32).1 ∧
      0x3E99999A#32 = (fadd Config.cfgT 0 0x3DCCCCCD#32 0x3E4CCCCD#32).1 ∧
      0x3EAAAAAB#32 = fdivU Config.cfgT 1 3 ∧
      |realOf 0x00000003#32 * realOf 0x3F000000#32| < 2 ^ 128 - 2 ^ 103 := by decide +kernel

/-! Handoff -/

theorem witness_HchPushCellResult :
    let s := head0 (encode (.hchPush 0)) blockA []
    s.fault = 0#8 ∧ s.cfg.channels[0]? = some ⟨.cell, 0, 0⟩ ∧ 0 = s.port ∧ s.chans[0]? = some emptyCh ∧
      emptyCh.slot = none ∧ blockA.length = s.cfg.block ∧ AtHead s (encode (.hchPush 0)) blockA [] [] := by decide
theorem witness_HchPushRdvResult_store :
    let s := head0 (encode (.hchPush 1)) blockA []
    s.fault = 0#8 ∧ s.cfg.channels[1]? = some ⟨.rdv, 0, 1⟩ ∧ 0 = s.port ∧ s.chans[1]? = some emptyCh ∧
      blockA.length = s.cfg.block ∧ AtHead s (encode (.hchPush 1)) blockA [] [] := by decide
theorem witness_HchPushRdvResult_gone :
    let s := withRdv ⟨some blockA, true, false⟩ (head0 (encode (.hchPush 1)) blockA [])
    s.fault = 0#8 ∧ s.cfg.channels[1]? = some ⟨.rdv, 0, 1⟩ ∧ 0 = s.port ∧
      s.chans[1]? = some ⟨some blockA, true, false⟩ ∧ blockA.length = s.cfg.block ∧
      AtHead s (encode (.hchPush 1)) blockA [] [] := by decide
theorem witness_HchPopCellResult :
    let s := withCell ⟨some blockA, true, true⟩ (head0 (encode (.hchPop 0)) [] [])
    s.fault = 0#8 ∧ s.cfg.channels[0]? = some ⟨.cell, 0, 0⟩ ∧ 0 = s.port ∧
      s.chans[0]? = some ⟨some blockA, true, true⟩ ∧ AtHead s (encode (.hchPop 0)) [] [] [] := by decide
theorem witness_HchPopRdvResult_full :
    let s := withRdv ⟨some blockA, false, true⟩ (head1 (encode (.hchPop 1)) [] [])
    s.fault = 0#8 ∧ s.cfg.channels[1]? = some ⟨.rdv, 0, 1⟩ ∧ 1 = s.port ∧
      s.chans[1]? = some ⟨some blockA, false, true⟩ ∧ AtHead s (encode (.hchPop 1)) [] [] [] := by decide
theorem witness_HchPopRdvResult_eos :
    let s := withRdv ⟨none, false, true⟩ (head1 (encode (.hchPop 1)) [] [])
    s.fault = 0#8 ∧ s.cfg.channels[1]? = some ⟨.rdv, 0, 1⟩ ∧ 1 = s.port ∧
      s.chans[1]? = some ⟨none, false, true⟩ ∧ AtHead s (encode (.hchPop 1)) [] [] [] := by decide
theorem witness_HchCloseResults_prod :
    let s := head0 (encode (.hchClosep 1)) [] []
    s.fault = 0#8 ∧ s.cfg.channels[1]? = some ⟨.rdv, 0, 1⟩ ∧ s.chans[1]? = some emptyCh ∧ 0 = s.port ∧
      AtHead s (encode (.hchClosep 1)) [] [] [] := by decide
theorem witness_HchCloseResults_cons :
    let s := head1 (encode (.hchClosec 1)) [] []
    s.fault = 0#8 ∧ s.cfg.channels[1]? = some ⟨.rdv, 0, 1⟩ ∧ s.chans[1]? = some emptyCh ∧ 1 = s.port ∧
      AtHead s (encode (.hchClosec 1)) [] [] [] := by decide
theorem witness_HchRdstResult :
    let s := head1 (encode (.hchRdst 1)) [] []
    s.fault = 0#8 ∧ s.cfg.channels[1]? = some ⟨.rdv, 0, 1⟩ ∧ 1 = s.port ∧ s.chans[1]? = some emptyCh ∧
      AtHead s (encode (.hchRdst 1)) [] [] [] := by decide
theorem witness_SlotChangesOnlyByPushAndPop_pop :
    let s := withRdv ⟨some blockA, true, true⟩ (given [] [0x31010000#32])
    (∃ t, step s = .next t) ∧ s.cfg.channels[1]? = some ⟨.rdv, 0, 1⟩ ∧
      s.chans[1]? = some ⟨some blockA, true, true⟩ := ⟨⟨_, rfl⟩, by decide, by decide⟩
theorem witness_SlotChangesOnlyByPushAndPop_push :
    let s := given (0x30010000#32 :: blockA) []
    (∃ t, step s = .next t) ∧ s.cfg.channels[1]? = some ⟨.rdv, 0, 1⟩ ∧ s.chans[1]? = some emptyCh :=
  ⟨⟨_, rfl⟩, by decide, by decide⟩
theorem witness_ClosedSidesStayClosed :
    let s := withRdv ⟨none, false, false⟩ (given [0xF0000000#32] [])
    (∃ t, step s = .next t) ∧ s.chans[1]? = some ⟨none, false, false⟩ := ⟨⟨_, rfl⟩, by decide⟩

/-! System and the whole block -/

theorem witness_SysNopResult :
    let s := head1 (encode .sysNop) [] [1#32]
    s.fault = 0#8 ∧ AtHead s (encode .sysNop) [] [1#32] [] := by decide
theorem witness_SysRdfltResult :
    let s := { head1 (encode .sysRdflt) [] [] with fault := 7#8, fport := 1#8 }
    AtHead s (encode .sysRdflt) [] [] [] := by decide
theorem witness_SysRdcfgResult :
    let s := head1 (encode .sysRdcfg) [] []
    s.fault = 0#8 ∧ configOk s.cfg = true ∧ AtHead s (encode .sysRdcfg) [] [] [] := by decide
theorem witness_StepKeepsTheInvariant :
    StateOk (given [0xF0000000#32] []) ∧ ∃ t, step (given [0xF0000000#32] []) = .next t :=
  ⟨stateOk_given_nop, _, rfl⟩
theorem witness_ResetHasTheInvariant : configOk Config.cfgA = true := by decide
theorem witness_ResetValues :
    let s := { given [0xF0000000#32] [] with fault := 3#8 }
    resetEvent s = resetEvent s ∧ 1 < s.cfg.ownOsc.length ∧ 0 < s.cfg.ownEnv.length ∧
      s.cfg.mixers[0]? = some ⟨0, [0#32, 0#32]⟩ ∧ 1 < s.cfg.channels.length ∧ 1 < s.cfg.nPort := by decide
theorem witness_PortsAreIsolated :
    let s := given [] [0x31010000#32, 0xF0000000#32]
    ∃ t, portStep 1 (withRdv ⟨some blockA, true, true⟩ s) = .next t := ⟨_, rfl⟩
theorem witness_PortsAreIsolated_foreign :
    let s := given [] [0xF0000000#32]
    s.cfg.ownOsc[0]? ≠ some 1 ∧ s.cfg.ownEnv[0]? ≠ some 1 ∧ s.cfg.mixers[0]? = some ⟨0, [0#32, 0#32]⟩ ∧
      s.cfg.channels[0]? = some ⟨.cell, 0, 0⟩ ∧ 0 ≠ 1 ∧ ∃ t, portStep 1 s = .next t :=
  ⟨by decide, by decide, by decide, by decide, by decide, _, rfl⟩
theorem witness_EveryStepSendsOneResponse :
    let s := given [0xF0000000#32] []
    StateOk s ∧ s.cmdIn[0]? = some [0xF0000000#32] ∧ s.respOut[0]? = some [] ∧ ∃ t, portStep 0 s = .next t :=
  ⟨stateOk_given_nop, by decide, by decide, _, rfl⟩

end Sys2Proof.Tests
end

section
/-!
SUPPORT. The value of a magnitude pattern (bits 30:0) with exponents unbounded above, and what narrowing a rational
answers in terms of these values: `Rounds` (one of the two bracketing values, exact where exact) for every
implementation and `RoundsToNearest` (ties to even) for the reference (00_scope.md R17, R18, log entry 10).
-/

namespace Sys2Proof.Machine

/-! ### Magnitude patterns in order -/

/-- The value of a magnitude pattern in units of `2^-150`: `f32Mag` without the bound on the exponent. -/
def magUnits (m : Nat) : Nat := if m / 2 ^ 23 = 0 then m * 2 else (2 ^ 23 + m % 2 ^ 23) * 2 ^ (m / 2 ^ 23)

theorem f32Mag_eq_magUnits (x : F32) : f32Mag x = magUnits (x.toNat % 2 ^ 31) := by
  have he : f32Exp x = x.toNat % 2 ^ 31 / 2 ^ 23 := by simp only [f32Exp]; omega
  have hf : f32Frac x = x.toNat % 2 ^ 31 % 2 ^ 23 := by simp only [f32Frac]; omega
  rw [f32Mag, magUnits, he, hf]
  split
  · omega
  · rfl

/-- `f32Mag_pack` for every exponent: the significand `2^24` is again the carry. -/
theorem magUnits_significand {s L : Nat} (hL : L ≤ 2 ^ 24) (hs : s = 0 ∨ 2 ^ 23 ≤ L) :
    magUnits (L + s * 2 ^ 23) = L * 2 ^ (s + 1) := by
  rcases Nat.lt_or_ge L (2 ^ 23) with h1 | h1
  · obtain rfl : s = 0 := by omega
    rw [magUnits, if_pos (by omega)]; omega
  · rcases Nat.lt_or_ge L (2 ^ 24) with h2 | h2
    · have hq : (L + s * 2 ^ 23) / 2 ^ 23 = s + 1 := by omega
      have hr : 2 ^ 23 + (L + s * 2 ^ 23) % 2 ^ 23 = L := by omega
      rw [magUnits, hq, hr, if_neg (by omega)]
    · obtain rfl : L = 2 ^ 24 := by omega
      have hq : (2 ^ 24 + s * 2 ^ 23) / 2 ^ 23 = s + 2 := by omega
      have hr : (2 ^ 24 + s * 2 ^ 23) % 2 ^ 23 = 0 := by omega
      rw [magUnits, hq, hr, if_neg (by omega)]; ring

theorem magUnits_lt_succ (m : Nat) : magUnits m < magUnits (m + 1) := by
  obtain ⟨s, L, rfl, hL, hs⟩ : ∃ s L, m = L + s * 2 ^ 23 ∧ L < 2 ^ 24 ∧ (s = 0 ∨ 2 ^ 23 ≤ L) :=
    ⟨m / 2 ^ 23 - 1, m - (m / 2 ^ 23 - 1) * 2 ^ 23, by omega, by omega, by omega⟩
  rw [magUnits_significand hL.le hs, Nat.add_right_comm, magUnits_significand hL (by omega)]
  exact Nat.mul_lt_mul_of_pos_right (Nat.lt_succ_self L) (by positivity)

/-- The value of a magnitude pattern; past the largest finite one the binade goes on, so that `infMag` stands for
`2^128` (log entry 10). -/
def magReal (m : Nat) : ℚ := (magUnits m : ℚ) / 2 ^ 150

theorem magReal_strictMono : StrictMono magReal :=
  strictMono_nat_of_lt_succ fun m =>
    div_lt_div_of_pos_right (Nat.cast_lt.mpr (magUnits_lt_succ m)) (by positivity)

@[simp] theorem magReal_zero : magReal 0 = 0 := by simp [magReal, magUnits]

theorem magReal_nonneg (m : Nat) : 0 ≤ magReal m := div_nonneg (Nat.cast_nonneg _) (by positivity)

theorem magReal_infMag : magReal infMag = 2 ^ 128 := by norm_num [magReal, magUnits, infMag]

theorem magReal_largest : magReal (infMag - 1) = 2 ^ 128 - 2 ^ 104 := by norm_num [magReal, magUnits, infMag]

/-! ### What narrowing answers -/

/-- `n` is the pattern on one side or the other of `x` with no pattern between, and the pattern of `x` itself where
there is one (R17 (a), (c)). -/
def Rounds (x : ℚ) (n : Nat) : Prop := ∀ j, (x ≤ magReal j → n ≤ j) ∧ (magReal j ≤ x → j ≤ n)

/-- No pattern is nearer to `x` than `n`, and `n` is even where another one is as near. -/
def RoundsToNearest (x : ℚ) (n : Nat) : Prop :=
  ∀ j, |magReal n - x| ≤ |magReal j - x| ∧ (|magReal n - x| = |magReal j - x| → j ≠ n → n % 2 = 0)

theorem Rounds.eq_of_exact {x : ℚ} {n j : Nat} (h : Rounds x n) (hx : x = magReal j) : n = j :=
  le_antisymm ((h j).1 hx.le) ((h j).2 hx.ge)

theorem Rounds.lower {x : ℚ} {n : Nat} (hn : magReal n ≤ x) (hx : x < magReal (n + 1)) : Rounds x n :=
  fun _ => ⟨fun hj => magReal_strictMono.le_iff_le.mp (hn.trans hj),
    fun hj => Nat.le_of_lt_succ (magReal_strictMono.lt_iff_lt.mp (hj.trans_lt hx))⟩

theorem Rounds.upper {x : ℚ} {n : Nat} (hn : magReal n < x) (hx : x < magReal (n + 1)) : Rounds x (n + 1) :=
  fun _ => ⟨fun hj => magReal_strictMono.lt_iff_lt.mp (hn.trans_le hj),
    fun hj => (magReal_strictMono.lt_iff_lt.mp (hj.trans_lt hx)).le⟩

/-- The lower neighbour is the nearest value where `x` is not past the midpoint. -/
theorem RoundsToNearest.lower {x : ℚ} {n : Nat} (hn : magReal n ≤ x) (hmid : x - magReal n ≤ magReal (n + 1) - x)
    (htie : x - magReal n = magReal (n + 1) - x → n % 2 = 0) : RoundsToNearest x n := by
  intro j
  rw [abs_sub_comm, abs_of_nonneg (sub_nonneg.mpr hn)]
  rcases lt_trichotomy j n with hj | rfl | hj
  · have hlt := magReal_strictMono hj
    rw [abs_sub_comm, abs_of_nonneg (by linarith)]
    exact ⟨by linarith, fun h => by linarith⟩
  · exact ⟨by rw [abs_sub_comm, abs_of_nonneg (sub_nonneg.mpr hn)], fun _ h => absurd rfl h⟩
  · have hle := magReal_strictMono.monotone (Nat.succ_le_of_lt hj)
    rw [Nat.succ_eq_add_one] at hle
    rw [abs_of_nonneg (by linarith)]
    exact ⟨by linarith, fun h _ => htie (by linarith)⟩

/-- The upper neighbour is the nearest value where `x` is not short of the midpoint. -/
theorem RoundsToNearest.upper {x : ℚ} {n : Nat} (hx : x ≤ magReal (n + 1))
    (hmid : magReal (n + 1) - x ≤ x - magReal n) (htie : x - magReal n = magReal (n + 1) - x → (n + 1) % 2 = 0) :
    RoundsToNearest x (n + 1) := by
  intro j
  rw [abs_of_nonneg (sub_nonneg.mpr hx)]
  rcases lt_trichotomy j (n + 1) with hj | rfl | hj
  · have hle := magReal_strictMono.monotone (Nat.le_of_lt_succ hj)
    rw [abs_sub_comm, abs_of_nonneg (by linarith)]
    exact ⟨by linarith, fun h _ => htie (by linarith)⟩
  · exact ⟨by rw [abs_of_nonneg (sub_nonneg.mpr hx)], fun _ h => absurd rfl h⟩
  · have hlt := magReal_strictMono hj
    rw [abs_of_nonneg (by linarith)]
    exact ⟨by linarith, fun h => by linarith⟩

theorem rem_ne_zero_of_roundsUp {impl : Impl} {up : Bool} {low rem d : Nat}
    (h : roundsUp impl up low rem d = true) : rem ≠ 0 := by
  rintro rfl; simp [roundsUp] at h

/-- The reference goes up from the midpoint on, and at the midpoint only from an odd pattern. -/
theorem of_roundsUp_reference {up : Bool} {low rem d : Nat} (h : roundsUp .reference up low rem d = true) :
    d ≤ 2 * rem ∧ (2 * rem = d → low % 2 = 1) := by
  have hrem := rem_ne_zero_of_roundsUp h
  simp [roundsUp, hrem] at h; omega

theorem of_not_roundsUp_reference {up : Bool} {low rem d : Nat} (hlt : rem < d)
    (h : ¬roundsUp .reference up low rem d = true) : 2 * rem ≤ d ∧ (2 * rem = d → low % 2 = 0) := by
  rw [roundsUp] at h
  split at h
  · omega
  · simp at h; omega

/-- Where `bracket` puts a rational: `rem / d` of the way from the pattern `low` to the next one. -/
theorem bracket_position {num den low rem d : Nat} (hd : 0 < den) (h : bracket num den = (low, rem, d)) :
    ∃ g : ℚ, 0 < g ∧ (num : ℚ) / den - magReal low = rem * g ∧ magReal (low + 1) - magReal low = d * g ∧
      rem < d := by
  obtain ⟨s, L, rfl, rfl, hnum, hrem, hL, hs⟩ := bracket_spec hd h
  have hden : (den : ℚ) ≠ 0 := Nat.cast_ne_zero.mpr hd.ne'
  have hlow : magReal (L + s * 2 ^ 23) = L * 2 ^ (s + 1) / 2 ^ 150 := by
    rw [magReal, magUnits_significand hL.le hs]; push_cast; rfl
  have hnext : magReal (L + s * 2 ^ 23 + 1) = (L + 1) * 2 ^ (s + 1) / 2 ^ 150 := by
    rw [magReal, Nat.add_right_comm, magUnits_significand hL (by omega)]; push_cast; rfl
  have hnumQ : (L : ℚ) * (den * 2 ^ s) + rem = num * 2 ^ 149 := by exact_mod_cast hnum
  refine ⟨1 / (2 ^ 149 * den), by positivity, ?_, ?_, hrem⟩
  · rw [hlow]; field_simp; linear_combination -2 * hnumQ
  · rw [hlow, hnext]; push_cast; field_simp; ring

/-- What narrowing answers: a rounding of the rational, the nearest one for the reference, capped at infinity. -/
theorem roundMag_spec (impl : Impl) (up : Bool) {num den : Nat} (hd : 0 < den) :
    ∃ n, roundMag impl up num den = min n infMag ∧ Rounds ((num : ℚ) / den) n ∧
      (impl = .reference → RoundsToNearest ((num : ℚ) / den) n) := by
  rcases hb : bracket num den with ⟨low, rem, d⟩
  obtain ⟨g, hg, hrem, hgap, hlt⟩ := bracket_position hd hb
  have hltQ : (rem : ℚ) * g < d * g := mul_lt_mul_of_pos_right (Nat.cast_lt.mpr hlt) hg
  have hnext : (num : ℚ) / den < magReal (low + 1) := by linarith
  have hlow : magReal low ≤ (num : ℚ) / den := by
    have : 0 ≤ (rem : ℚ) * g := by positivity
    linarith
  have hle : (d : ℚ) ≤ 2 * rem ↔ magReal (low + 1) - num / den ≤ num / den - magReal low := by
    rw [← mul_le_mul_iff_left₀ hg]; constructor <;> intro h <;> linarith
  have hge : (2 * rem : ℚ) ≤ d ↔ (num : ℚ) / den - magReal low ≤ magReal (low + 1) - num / den := by
    rw [← mul_le_mul_iff_left₀ hg]; constructor <;> intro h <;> linarith
  norm_cast at hle hge
  refine ⟨if roundsUp impl up low rem d then low + 1 else low, by rw [roundMag, hb], ?_⟩
  split
  · next hup =>
    have hpos : 0 < (rem : ℚ) * g := by
      have := rem_ne_zero_of_roundsUp hup
      positivity
    refine ⟨.upper (by linarith) hnext, ?_⟩
    rintro rfl
    have hhalf := of_roundsUp_reference hup
    exact .upper hnext.le (hle.mp hhalf.1) fun htie => by
      have := hle.mpr htie.ge; have := hge.mpr htie.le; omega
  · next hup =>
    refine ⟨.lower hlow hnext, ?_⟩
    rintro rfl
    have hhalf := of_not_roundsUp_reference hlt hup
    exact .lower hlow (hge.mp hhalf.1) fun htie => by
      have := hle.mpr htie.ge; have := hge.mpr htie.le; omega

end Sys2Proof.Machine
end

section
/-!
SUPPORT. Signs and special patterns: the exact value of a pattern as sign and magnitude, when a pattern is finite,
infinite or zero, and the pattern of a given sign and magnitude (00_scope.md R11, 93_implementation_defined.md GK3).
-/

namespace Sys2Proof.Machine

/-- The factor a sign bit stands for. -/
def signFactor (neg : Bool) : ℚ := if neg then -1 else 1

@[simp] theorem signFactor_true : signFactor true = -1 := rfl
@[simp] theorem signFactor_false : signFactor false = 1 := rfl

theorem signFactor_mul (p q : Bool) : signFactor p * signFactor q = signFactor (p != q) := by
  cases p <;> cases q <;> simp

theorem abs_signFactor_mul (neg : Bool) (x : ℚ) : |signFactor neg * x| = |x| := by cases neg <;> simp

/-! ### Any pattern -/

theorem realOf_eq_sign_mag (x : F32) : realOf x = signFactor (f32Neg x) * magReal (x.toNat % 2 ^ 31) := by
  rw [realOf_eq, f32Val, magReal, f32Mag_eq_magUnits]
  cases f32Neg x <;> simp [neg_div]

theorem abs_realOf (x : F32) : |realOf x| = magReal (x.toNat % 2 ^ 31) := by
  rw [realOf_eq_sign_mag, abs_signFactor_mul, abs_of_nonneg (magReal_nonneg _)]

theorem realOf_eq_zero_iff (x : F32) : realOf x = 0 ↔ f32Mag x = 0 := by
  rw [← abs_eq_zero, abs_realOf, magReal, f32Mag_eq_magUnits]; simp

theorem f32Mag_eq_zero_iff (x : F32) : f32Mag x = 0 ↔ x.toNat % 2 ^ 31 = 0 := by
  rw [← realOf_eq_zero_iff, ← abs_eq_zero, abs_realOf, ← magReal_zero, magReal_strictMono.injective.eq_iff]

theorem finite_iff_mag_lt (x : F32) : FiniteF32 x ↔ x.toNat % 2 ^ 31 < infMag := by
  rw [finite_iff, f32Exp, infMag]; omega

theorem isInf_iff_mag (x : F32) : IsInfF32 x ↔ x.toNat % 2 ^ 31 = infMag := by
  rw [isInf_iff, f32Exp, f32Frac, infMag]; omega

/-- A pattern is its sign and its magnitude. -/
theorem eq_f32Pack (x : F32) : x = f32Pack (f32Neg x) (x.toNat % 2 ^ 31) := by
  apply BitVec.eq_of_toNat_eq
  have := x.isLt
  simp only [f32Pack, f32Neg, decide_eq_true_eq, BitVec.toNat_ofNat]
  split <;> omega

theorem isZero_iff (x : F32) : IsZeroF32 x ↔ FiniteF32 x ∧ f32Mag x = 0 := by
  have := x.isLt
  rw [f32Mag_eq_zero_iff, finite_iff_mag_lt, infMag, IsZeroF32, ← BitVec.toNat_inj, ← BitVec.toNat_inj]
  simp only [BitVec.toNat_ofNat]
  omega

theorem not_nan_not_zero_of_inf {x : F32} (h : IsInfF32 x) : ¬IsNaNF32 x ∧ ¬IsZeroF32 x :=
  ⟨fun hnan => hnan.2 h.2, fun hzero => ((isZero_iff x).mp hzero).1 h.1⟩

theorem realOf_nonpos_of_neg {x : F32} (h : f32Neg x = true) : realOf x ≤ 0 := by
  rw [realOf_eq_sign_mag, h, signFactor_true, neg_one_mul]
  exact neg_nonpos.mpr (magReal_nonneg _)

theorem eq_negZero {x : F32} (hneg : f32Neg x = true) (h0 : realOf x = 0) : x = 0x80000000#32 := by
  rw [realOf_eq_zero_iff, f32Mag_eq_zero_iff] at h0
  rw [eq_f32Pack x, hneg, h0]; rfl

/-- Where a sum is zero, both operands are negative only as two negative zeros. -/
theorem both_neg_iff_of_sum_zero {a b : F32} (h : realOf a + realOf b = 0) :
    (f32Neg a && f32Neg b) = true ↔ a = 0x80000000#32 ∧ b = 0x80000000#32 := by
  constructor
  · intro hneg
    obtain ⟨hna, hnb⟩ := Bool.and_eq_true_iff.mp hneg
    have ha := realOf_nonpos_of_neg hna
    have hb := realOf_nonpos_of_neg hnb
    exact ⟨eq_negZero hna (by linarith), eq_negZero hnb (by linarith)⟩
  · rintro ⟨rfl, rfl⟩; rfl

/-! ### A packed pattern -/

theorem realOf_pack (neg : Bool) {m : Nat} (h : m < 2 ^ 31) :
    realOf (f32Pack neg m) = signFactor neg * magReal m := by
  rw [realOf_eq_sign_mag, f32Neg_pack neg h, f32Pack_mag neg h]

theorem finite_pack_iff (neg : Bool) {m : Nat} (h : m < 2 ^ 31) : FiniteF32 (f32Pack neg m) ↔ m < infMag := by
  rw [finite_iff_mag_lt, f32Pack_mag neg h]

theorem isInf_pack (neg : Bool) : IsInfF32 (f32Pack neg infMag) := by
  rw [isInf_iff_mag, f32Pack_mag neg (by decide)]

theorem lastBit_pack (neg : Bool) {m : Nat} (h : m % 2 = 0) : (f32Pack neg m).getLsbD 0 = false := by
  rw [f32Pack, BitVec.getLsbD_ofNat, Nat.testBit_zero]
  cases neg <;> simp <;> omega

/-- The pattern of magnitude `m` whose sign is that of a product, as the statements write it. -/
theorem pack_xor (a b : F32) (m : Nat) :
    f32Pack (f32Neg a != f32Neg b) m = if a.getLsbD 31 = b.getLsbD 31 then f32Pack false m else f32Pack true m := by
  rw [signBit, signBit]
  cases f32Neg a <;> cases f32Neg b <;> rfl

end Sys2Proof.Machine
end

section
/-!
SUPPORT. The cases of the multiplier and the adder, one equation for each class of operands, and what every narrowed
result has in common (`Narrowed`), whichever of `fmul`, `fadd` and `fdiv_u` computed it (00_scope.md R17, R18).
-/

namespace Sys2Proof.Machine

theorem f32IsNaN_iff (x : F32) : f32IsNaN x = true ↔ IsNaNF32 x := by rw [isNaN_iff]; simp [f32IsNaN]
theorem f32IsInf_iff (x : F32) : f32IsInf x = true ↔ IsInfF32 x := by rw [isInf_iff]; simp [f32IsInf]
theorem f32IsZero_iff (x : F32) : (f32IsFinite x && decide (f32Mag x = 0)) = true ↔ IsZeroF32 x := by
  rw [isZero_iff, finite_iff]; simp [f32IsFinite]

theorem f32IsNaN_of_inf {x : F32} (h : IsInfF32 x) : f32IsNaN x = false := by
  rw [isInf_iff] at h; simp [f32IsNaN, h]
theorem f32IsNaN_of_finite {x : F32} (h : FiniteF32 x) : f32IsNaN x = false := by
  rw [finite_iff] at h; simp [f32IsNaN, h]
theorem f32IsInf_of_finite {x : F32} (h : FiniteF32 x) : f32IsInf x = false := by
  rw [finite_iff] at h; simp [f32IsInf, h]

/-! ### The multiplier -/

section
variable (c : Config) (k : Nat) {a b : F32}

theorem fmul_nan (h : IsNaNF32 a ∨ IsNaNF32 b) : fmul c k a b = nanResult k := by
  rw [fmul, if_pos (by simpa [f32IsNaN_iff] using h)]

theorem fmul_inf_zero (h : (IsInfF32 a ∧ IsZeroF32 b) ∨ (IsZeroF32 a ∧ IsInfF32 b)) :
    fmul c k a b = nanResult k := by
  unfold fmul
  split
  · rfl
  · rw [if_pos (by simp only [Bool.or_eq_true, f32IsInf_iff]; tauto),
      if_pos (by rw [Bool.or_eq_true, f32IsZero_iff, f32IsZero_iff]; tauto)]

theorem fmul_inf (h : IsInfF32 a ∨ IsInfF32 b) (ha : ¬IsNaNF32 a ∧ ¬IsZeroF32 a)
    (hb : ¬IsNaNF32 b ∧ ¬IsZeroF32 b) :
    fmul c k a b = (f32Pack (f32Neg a != f32Neg b) infMag, k) := by
  rw [fmul, if_neg (by simp only [Bool.or_eq_true, f32IsNaN_iff]; tauto),
    if_pos (by simpa only [Bool.or_eq_true, f32IsInf_iff] using h),
    if_neg (by rw [Bool.or_eq_true, f32IsZero_iff, f32IsZero_iff]; tauto)]

theorem fmul_finite (ha : FiniteF32 a) (hb : FiniteF32 b) :
    fmul c k a b = (f32Pack (f32Neg a != f32Neg b)
      (roundMag c.fmulImpl (Config.ownFmulUp a b) (f32Mag a * f32Mag b) (2 ^ 300)), k) := by
  rw [fmul, if_neg (by simp [f32IsNaN_of_finite, ha, hb]), if_neg (by simp [f32IsInf_of_finite, ha, hb])]

/-! ### The adder -/

theorem fadd_nan (h : IsNaNF32 a ∨ IsNaNF32 b) : fadd c k a b = nanResult k := by
  rw [fadd, if_pos (by simpa [f32IsNaN_iff] using h)]

/-- Two different infinities have different signs. -/
theorem f32Neg_ne_of_inf_ne (ha : IsInfF32 a) (hb : IsInfF32 b) (hab : a ≠ b) : f32Neg a ≠ f32Neg b := by
  intro h
  rw [isInf_iff_mag] at ha hb
  exact hab (by rw [eq_f32Pack a, eq_f32Pack b, ha, hb, h])

theorem fadd_inf_opposite (ha : IsInfF32 a) (hb : IsInfF32 b) (hab : a ≠ b) : fadd c k a b = nanResult k := by
  simp [fadd, f32IsNaN_of_inf ha, f32IsNaN_of_inf hb, (f32IsInf_iff a).mpr ha, (f32IsInf_iff b).mpr hb,
    f32Neg_ne_of_inf_ne ha hb hab]

theorem fadd_inf_left (ha : IsInfF32 a) (hb : FiniteF32 b ∨ a = b) : fadd c k a b = (a, k) := by
  rcases hb with hb | rfl
  · simp [fadd, f32IsNaN_of_inf ha, f32IsNaN_of_finite hb, (f32IsInf_iff a).mpr ha, f32IsInf_of_finite hb]
  · simp [fadd, f32IsNaN_of_inf ha, (f32IsInf_iff a).mpr ha]

theorem fadd_inf_right (hb : IsInfF32 b) (ha : FiniteF32 a) : fadd c k a b = (b, k) := by
  simp [fadd, f32IsNaN_of_inf hb, f32IsNaN_of_finite ha, (f32IsInf_iff b).mpr hb, f32IsInf_of_finite ha]

theorem fadd_finite (ha : FiniteF32 a) (hb : FiniteF32 b) :
    fadd c k a b = if f32Val a + f32Val b = 0 then (f32Pack (f32Neg a && f32Neg b) 0, k) else
      (f32Pack (decide (f32Val a + f32Val b < 0))
        (roundMag c.faddImpl (Config.ownFaddUp a b) (f32Val a + f32Val b).natAbs (2 ^ 150)), k) := by
  simp [fadd, f32IsNaN_of_finite ha, f32IsNaN_of_finite hb, f32IsInf_of_finite ha, f32IsInf_of_finite hb]

end

/-! ### Zero results and NaN draws -/

/-- Narrowing zero gives zero. -/
theorem roundMag_zero (impl : Impl) (up : Bool) {den : Nat} (hd : 0 < den) : roundMag impl up 0 den = 0 := by
  obtain ⟨n, hn, hround, -⟩ := roundMag_spec impl up (num := 0) hd
  rw [hn, hround.eq_of_exact (j := 0) (by simp), Nat.zero_min]

/-- A zero product has the sign of the operands' signs. -/
theorem fmul_zero (c : Config) (k : Nat) {a b : F32} (ha : FiniteF32 a) (hb : FiniteF32 b)
    (h : realOf a * realOf b = 0) : fmul c k a b = (f32Pack (f32Neg a != f32Neg b) 0, k) := by
  have hmag : f32Mag a * f32Mag b = 0 := by
    rwa [mul_eq_zero, ← realOf_eq_zero_iff, ← realOf_eq_zero_iff, ← mul_eq_zero]
  rw [fmul_finite c k ha hb, hmag, roundMag_zero _ _ (by positivity)]

/-- A zero sum is a zero, negative only where both operands are. -/
theorem fadd_zero (c : Config) (k : Nat) {a b : F32} (ha : FiniteF32 a) (hb : FiniteF32 b)
    (h : realOf a + realOf b = 0) : fadd c k a b = (f32Pack (f32Neg a && f32Neg b) 0, k) := by
  rw [realOf_eq, realOf_eq, ← add_div, div_eq_zero_iff] at h
  rw [fadd_finite c k ha hb, if_pos (by exact_mod_cast h.resolve_right (by positivity))]

/-- A product and a sum of finite operands draw no NaN. -/
theorem fmul_finite_draws (c : Config) (k : Nat) {a b : F32} (ha : FiniteF32 a) (hb : FiniteF32 b) :
    (fmul c k a b).2 = k := by rw [fmul_finite c k ha hb]
theorem fadd_finite_draws (c : Config) (k : Nat) {a b : F32} (ha : FiniteF32 a) (hb : FiniteF32 b) :
    (fadd c k a b).2 = k := by rw [fadd_finite c k ha hb]; split <;> rfl

/-! ### Narrowed results -/

/-- `r` is the rational `x` narrowed: a sign of `x` and the narrowed magnitude. -/
def Narrowed (impl : Impl) (x : ℚ) (r : F32) : Prop :=
  ∃ (neg up : Bool) (num den : Nat), 0 < den ∧ x = signFactor neg * (num / den) ∧
    r = f32Pack neg (roundMag impl up num den)

theorem fmul_narrowed (c : Config) (k : Nat) {a b : F32} (ha : FiniteF32 a) (hb : FiniteF32 b) :
    Narrowed c.fmulImpl (realOf a * realOf b) (fmul c k a b).1 := by
  rw [fmul_finite c k ha hb]
  refine ⟨_, _, _, _, by positivity, ?_, rfl⟩
  have hden : ((2 ^ 300 : ℕ) : ℚ) = 2 ^ 150 * 2 ^ 150 := by rw [Nat.cast_pow, Nat.cast_ofNat, ← pow_add]
  rw [realOf_eq_sign_mag, realOf_eq_sign_mag, mul_mul_mul_comm, signFactor_mul, f32Mag_eq_magUnits, f32Mag_eq_magUnits,
    magReal, magReal, div_mul_div_comm, Nat.cast_mul, hden]

theorem fadd_narrowed (c : Config) (k : Nat) {a b : F32} (ha : FiniteF32 a) (hb : FiniteF32 b) :
    Narrowed c.faddImpl (realOf a + realOf b) (fadd c k a b).1 := by
  have hx : realOf a + realOf b = ((f32Val a + f32Val b : ℤ) : ℚ) / 2 ^ 150 := by
    rw [realOf_eq, realOf_eq]; push_cast; ring
  rw [fadd_finite c k ha hb, hx]
  generalize f32Val a + f32Val b = v
  split
  · next hv =>
    exact ⟨f32Neg a && f32Neg b, false, 0, 1, one_pos, by simp [hv], by rw [roundMag_zero _ _ one_pos]⟩
  · refine ⟨_, _, _, _, by positivity, ?_, rfl⟩
    rw [Nat.cast_natAbs, Nat.cast_pow, Nat.cast_ofNat]
    rcases lt_or_ge v 0 with hv | hv
    · simp [hv, abs_of_neg hv, neg_div]
    · simp [hv.not_gt, abs_of_nonneg hv]

theorem fdivU_narrowed (c : Config) (p : Nat) {q : Nat} (hq : 1 ≤ q) :
    Narrowed c.fdivImpl ((p : ℚ) / q) (fdivU c p q) :=
  ⟨false, Config.ownFdivUp p q, p, q, hq, by simp, rfl⟩

section
variable {impl : Impl} {x : ℚ} {r : F32}

/-- A narrowed result as a sign and a rounding of the magnitude. -/
theorem Narrowed.rounding (h : Narrowed impl x r) :
    ∃ (neg : Bool) (n : Nat), x = signFactor neg * |x| ∧ r = f32Pack neg (min n infMag) ∧ Rounds |x| n ∧
      (impl = .reference → RoundsToNearest |x| n) := by
  obtain ⟨neg, up, num, den, hd, hx, rfl⟩ := h
  have habs : |x| = num / den := by rw [hx, abs_signFactor_mul, abs_of_nonneg (by positivity)]
  obtain ⟨n, hn, hround, hnear⟩ := roundMag_spec impl up (num := num) hd
  exact ⟨neg, n, by rw [habs, hx], by rw [hn], by rwa [habs], by rwa [habs]⟩

theorem Rounds.lt_of_finite {n : Nat} (h : Rounds x n) (hn : n < infMag) : x < 2 ^ 128 := by
  by_contra hx
  rw [← magReal_infMag] at hx
  exact hn.not_ge ((h infMag).2 (not_lt.mp hx))

theorem Rounds.gt_of_infinite {n : Nat} (h : Rounds x n) (hn : infMag ≤ n) : magReal (infMag - 1) < x := by
  by_contra hx
  have := (h (infMag - 1)).1 (not_lt.mp hx)
  rw [infMag] at *; omega

/-- The threshold of the reference's overflow is the midpoint between the largest finite value and `2^128`. -/
theorem RoundsToNearest.finite {n : Nat} (h : RoundsToNearest x n) (hr : Rounds x n) (hx : x < 2 ^ 128 - 2 ^ 103) :
    n < infMag := by
  by_contra hn
  have hgt := hr.gt_of_infinite (not_lt.mp hn)
  have hge := magReal_strictMono.monotone (not_lt.mp hn)
  have hle := (h (infMag - 1)).1
  rw [magReal_infMag] at hge
  rw [abs_of_nonneg (by linarith), abs_of_neg (by linarith)] at hle
  rw [magReal_largest] at hgt hle
  norm_num at *; linarith

/-- A non-zero exact value is answered as it is (R17 (a)). -/
theorem Narrowed.eq_of_exact {y : F32} (h : Narrowed impl (realOf y) r) (hy : FiniteF32 y) (h0 : realOf y ≠ 0) :
    r = y := by
  obtain ⟨neg, n, hsign, rfl, hround, -⟩ := h.rounding
  obtain rfl := hround.eq_of_exact (abs_realOf y)
  have hneg : neg = f32Neg y := by
    rw [abs_realOf, realOf_eq_sign_mag] at hsign
    rw [← abs_ne_zero, abs_realOf] at h0
    have := mul_right_cancel₀ h0 hsign
    revert this
    cases neg <;> cases f32Neg y <;> norm_num
  rw [hneg, min_eq_left ((finite_iff_mag_lt y).mp hy).le, ← eq_f32Pack]

end

end Sys2Proof.Machine
end

section
/-!
OBLIGATIONS. The multiplier, the adder and the envelope quotient of 00_scope.md R17 and R18: exact results, special
operands, neighbouring values and rounding to nearest.
-/

namespace Sys2Proof.Machine

/-! ### A narrowed result beside the other binary32 values -/

/-- No value lies strictly between a non-negative rational and its rounding. -/
theorem Rounds.not_between {x y : ℚ} {n j : Nat} (h : Rounds x n) (hx : 0 ≤ x) (hy : |y| = magReal j) :
    ¬(min (magReal n) x < y ∧ y < max (magReal n) x) := by
  rintro ⟨hlo, hhi⟩
  obtain rfl : y = magReal j := by rw [← hy, abs_of_pos ((le_min (magReal_nonneg n) hx).trans_lt hlo)]
  rcases le_total x (magReal j) with hj | hj
  · exact hhi.not_ge (max_le (magReal_strictMono.monotone ((h j).1 hj)) hj)
  · exact hlo.not_ge (le_min (magReal_strictMono.monotone ((h j).2 hj)) hj)

/-- The same with a sign: negating all three values exchanges the lower and the upper bound. -/
theorem Rounds.not_between_signed {x y : ℚ} {n j : Nat} (h : Rounds x n) (hx : 0 ≤ x) (hy : |y| = magReal j)
    (neg : Bool) : ¬(min (signFactor neg * magReal n) (signFactor neg * x) < y ∧
      y < max (signFactor neg * magReal n) (signFactor neg * x)) := by
  cases neg
  · simpa using h.not_between hx hy
  · rintro ⟨hlo, hhi⟩
    simp only [signFactor_true, neg_one_mul, min_neg_neg, max_neg_neg] at hlo hhi
    exact h.not_between hx (y := -y) (by rwa [abs_neg]) ⟨lt_neg.mp hhi, neg_lt.mp hlo⟩

/-- Values of one magnitude have different distances from a non-zero rational, unless they are equal. -/
theorem eq_of_abs_eq_of_dist_eq {x y z : ℚ} (hx : x ≠ 0) (habs : |z| = |y|) (hdist : |z - x| = |y - x|) : y = z := by
  rcases abs_eq_abs.mp habs with h | rfl
  · exact h.symm
  · have hsq : (-y - x) ^ 2 = (y - x) ^ 2 := (sq_eq_sq_iff_abs_eq_abs _ _).mpr hdist
    have hy : x * y = 0 := by linarith
    simp [(mul_eq_zero.mp hy).resolve_left hx]

section
variable {impl : Impl} {x : ℚ} {r : F32}

/-- A narrowed result is a finite neighbour of the exact value, or an infinity past the largest finite value. -/
theorem Narrowed.neighbour (h : Narrowed impl x r) :
    (FiniteF32 r ∧ |x| < 2 ^ 128 ∧
      ∀ y : F32, FiniteF32 y → ¬(min (realOf r) x < realOf y ∧ realOf y < max (realOf r) x)) ∨
    (IsInfF32 r ∧ realOf 0x7F7FFFFF#32 < |x| ∧ (r.getLsbD 31 = true ↔ x < 0)) := by
  obtain ⟨neg, n, hsign, rfl, hround, -⟩ := h.rounding
  rcases lt_or_ge n infMag with hn | hn
  · have hlt : n < 2 ^ 31 := hn.trans (by decide)
    rw [min_eq_left hn.le]
    refine .inl ⟨(finite_pack_iff neg hlt).mpr hn, hround.lt_of_finite hn, fun y _ => ?_⟩
    rw [realOf_pack neg hlt]
    have := hround.not_between_signed (abs_nonneg x) (abs_realOf y) neg
    rwa [← hsign] at this
  · rw [min_eq_right hn]
    have hmax : realOf 0x7F7FFFFF#32 = magReal (infMag - 1) :=
      (realOf_pack false (m := infMag - 1) (by decide)).trans (one_mul _)
    have hgt := hround.gt_of_infinite hn
    have hpos : 0 < |x| := (magReal_nonneg _).trans_lt hgt
    refine .inr ⟨isInf_pack neg, hmax ▸ hgt, ?_⟩
    rw [signBit, f32Neg_pack neg (by decide), hsign]
    cases neg
    · simp
    · simpa using abs_pos.mp hpos

/-- The reference's narrowed result is finite below the overflow midpoint and the nearest value, ties to even. -/
theorem Narrowed.nearest (h : Narrowed .reference x r) (hx : |x| < 2 ^ 128 - 2 ^ 103) :
    FiniteF32 r ∧ ∀ y : F32, FiniteF32 y → |realOf r - x| ≤ |realOf y - x| ∧
      (|realOf r - x| = |realOf y - x| → realOf y ≠ realOf r → r.getLsbD 0 = false) := by
  obtain ⟨neg, n, hsign, rfl, hround, hnear⟩ := h.rounding
  have hnear := hnear rfl
  have hn := hnear.finite hround hx
  have hlt : n < 2 ^ 31 := hn.trans (by decide)
  rw [min_eq_left hn.le]
  have hdist : |realOf (f32Pack neg n) - x| = |magReal n - (|x|)| := by
    rw [realOf_pack neg hlt]
    conv_lhs => rw [hsign]
    rw [← mul_sub, abs_signFactor_mul]
  refine ⟨(finite_pack_iff neg hlt).mpr hn, fun y _ => ?_⟩
  obtain ⟨hle, htie⟩ := hnear (y.toNat % 2 ^ 31)
  have hside : |magReal (y.toNat % 2 ^ 31) - (|x|)| ≤ |realOf y - x| := by
    rw [← abs_realOf]; exact abs_abs_sub_abs_le _ _
  refine ⟨hdist ▸ hle.trans hside, fun heq hne => lastBit_pack neg ?_⟩
  by_cases hj : y.toNat % 2 ^ 31 = n
  · have hx0 : x = 0 := by
      by_contra hx0
      refine hne (eq_of_abs_eq_of_dist_eq hx0 ?_ heq)
      rw [abs_realOf, abs_realOf, f32Pack_mag neg hlt, hj]
    rw [hround.eq_of_exact (j := 0) (by simp [hx0])]
  · exact htie (le_antisymm hle (hside.trans (heq ▸ hdist.le))) hj

end

/-! ### The obligations -/

/-- Settles O34: 0 narrows to zero, and 1 is the value of a pattern. -/
theorem envelopeGainEndsAreExact : Obligations.EnvelopeGainEndsAreExact := by
  intro c r hr
  constructor
  · rw [fdivU, roundMag_zero _ _ hr]; rfl
  · have hone : realOf 0x3F800000#32 = (r : ℚ) / r := by
      rw [div_self (Nat.cast_ne_zero.mpr (Nat.one_le_iff_ne_zero.mp hr))]; decide +kernel
    exact (hone ▸ fdivU_narrowed c r hr : Narrowed _ (realOf 0x3F800000#32) _).eq_of_exact
      (by decide) (by decide +kernel)

/-- Settles O40: a narrowed result that is exact is returned, and a zero result has the sign of its own rule. -/
theorem representableResultsAreExact : Obligations.RepresentableResultsAreExact := by
  intro c k a b r ha hb
  refine ⟨fun hr hval h0 => ?_, fun hr hval h0 => ?_, fun h => ?_, fun h => ?_⟩
  · exact Prod.ext ((hval ▸ fmul_narrowed c k ha hb).eq_of_exact hr h0) (fmul_finite_draws c k ha hb)
  · exact Prod.ext ((hval ▸ fadd_narrowed c k ha hb).eq_of_exact hr h0) (fadd_finite_draws c k ha hb)
  · rw [fmul_zero c k ha hb h, pack_xor]; rfl
  · rw [fadd_zero c k ha hb h]
    simp only [← both_neg_iff_of_sum_zero h]
    cases f32Neg a && f32Neg b <;> rfl

/-- Settles O41, one clause for each class of operands. -/
theorem specialOperandResults : Obligations.SpecialOperandResults := by
  intro c k a b
  refine ⟨fun h => ?_, fun h => ?_, fun h => ?_, fadd_inf_left c k, fadd_inf_right c k⟩
  · have hnan : fmul c k a b = nanResult k := by
      rcases or_assoc.mpr h with h | h
      · exact fmul_nan c k h
      · exact fmul_inf_zero c k h
    rw [hnan]; exact ⟨nanResult_quiet k, nanResult_snd k⟩
  · have hnan : fadd c k a b = nanResult k := by
      rcases or_assoc.mpr h with h | ⟨ha, hb, hab⟩
      · exact fadd_nan c k h
      · exact fadd_inf_opposite c k ha hb hab
    rw [hnan]; exact ⟨nanResult_quiet k, nanResult_snd k⟩
  · have hinf : fmul c k a b = (f32Pack (f32Neg a != f32Neg b) infMag, k) := by
      rcases h with ⟨ha, hb⟩ | ⟨hb, ha⟩
      · exact fmul_inf c k (.inl ha) (not_nan_not_zero_of_inf ha) hb
      · exact fmul_inf c k (.inr hb) ha (not_nan_not_zero_of_inf hb)
    rw [hinf, pack_xor]; rfl

/-- Settles O42: every finite computation is narrowed, and a narrowed result is a neighbour. -/
theorem inexactResultsAreNeighbours : Obligations.InexactResultsAreNeighbours := by
  rintro c k a b r x (⟨ha, hb, rfl, rfl⟩ | ⟨ha, hb, rfl, rfl⟩ | ⟨p, q, -, hq, rfl, rfl⟩)
  · exact (fmul_narrowed c k ha hb).neighbour
  · exact (fadd_narrowed c k ha hb).neighbour
  · exact (fdivU_narrowed c p hq).neighbour

/-- Settles O43: the same with the reference functions, whose narrowing is to the nearest value. -/
theorem referenceRoundsToNearestEven : Obligations.ReferenceRoundsToNearestEven := by
  rintro c k a b r x
    (⟨hc, ha, hb, rfl, rfl⟩ | ⟨hc, ha, hb, rfl, rfl⟩ | ⟨hc, p, q, -, hq, rfl, rfl⟩) hx
  · exact (hc ▸ fmul_narrowed c k ha hb).nearest hx
  · exact (hc ▸ fadd_narrowed c k ha hb).nearest hx
  · exact (hc ▸ fdivU_narrowed c p hq).nearest hx

end Sys2Proof.Machine
end

section
/-!
SUPPORT. What a step of the block can do, said once: the head word of the port served is refused, faults, or completes
with one of the effects of `Effect` (`step_served`).
-/

namespace Sys2Proof.Machine

/-- The ways serving the head word of port `s.port` ends in a next state. -/
inductive Served (s t : State) : Prop where
  | refused (hf : s.fault ≠ 0#8) (ht : t = refuseHalted s)
  | faults (hf : s.fault = 0#8) (code : FaultCode) (cmd : Word) (ht : t = takeFault code cmd s)
  | completes (w : Word) (ws : List Word) (i : Instr) (st : Status) (data : List Word) (u : State)
      (hw : pending s s.port = w :: ws) (hd : decode w = .ok i) (hf : s.fault = 0#8 ∨ i = .sysRdflt)
      (ho : portOwns s.cfg s.port i = true) (hp : plen s.cfg i ≤ ws.length)
      (he : Effect s i st data u) (ht : t = complete i st data u)

theorem payloadWords_eq {s : State} {w : Word} {ws : List Word} (hw : pending s s.port = w :: ws) :
    payloadWords s = ws := by
  rw [payloadWords, hw]; rfl

theorem portStep_served {p : Nat} {s t : State} (h : portStep p s = .next t) : Served (serve p s) t := by
  obtain ⟨w, ws, hw, ⟨e, -, rfl⟩ | ⟨i, hd, he⟩⟩ := portStep_next h
  · unfold rejectWord
    split
    · next hh => exact .refused ((halted_iff _).mp hh) rfl
    · next hh => exact .faults ((not_halted_iff _).mp (Bool.eq_false_iff.mpr hh)) _ w rfl
  · cases exec_next he with
    | refused hf _ ht => exact .refused hf ht
    | faults hf _ code ht => exact .faults hf code _ ht
    | completes st data u hf _ ho hp he ht =>
      exact .completes w ws i st data u hw hd hf ho (payloadWords_eq (s := serve p s) hw ▸ hp) he ht

theorem step_served {s t : State} (h : step s = .next t) :
    ∃ p, p < s.cfg.nPort ∧ Served (serve p (tick s)) t := by
  obtain ⟨-, p, -, hp, -, hstep⟩ := step_next h
  exact ⟨p, hp, portStep_served hstep⟩

end Sys2Proof.Machine
end

section
/-!
SUPPORT. A word that decodes is the command word of what it decodes to (30_encoding.md R80, R90, R93): one lemma for
each unit, from the fields of the word.
-/

namespace Sys2Proof

section
variable {w : Word} {i j : Instr} {unit op idx : Nat}

/-- A word is put together from its fields. -/
theorem cmdWord_eq_of_fields (hu : fieldUnit w = unit) (ho : fieldOp w = op) (hx : fieldIdx w = idx)
    (hr : fieldRsv w = 0) : cmdWord unit op (fieldInst w) idx = w := by
  subst hu ho hx
  apply BitVec.eq_of_toNat_eq
  have := w.isLt
  simp only [fieldUnit, fieldOp, fieldInst, fieldIdx, fieldRsv, cmdField, cmdWord, BitVec.toNat_ofNat] at *
  omega

theorem withoutIdx_ok (h : withoutIdx w j = .ok i) : fieldIdx w = 0 ∧ j = i := by
  unfold withoutIdx at h
  split at h
  · exact ⟨‹_›, by simpa using h⟩
  · cases h

theorem withoutInst_ok (h : withoutInst w j = .ok i) : fieldInst w = 0 ∧ withoutIdx w j = .ok i := by
  unfold withoutInst at h
  split at h
  · exact ⟨‹_›, h⟩
  · cases h

/-- A command without an index operand, its unit and operation known. -/
theorem encode_of_withoutIdx (hr : fieldRsv w = 0) (hu : fieldUnit w = unit) (ho : fieldOp w = op)
    (hj : encode j = cmdWord unit op (fieldInst w) 0) (h : withoutIdx w j = .ok i) : encode i = w := by
  obtain ⟨hx, rfl⟩ := withoutIdx_ok h
  rw [hj, cmdWord_eq_of_fields hu ho hx hr]

/-- A `SYS` command, its operation known. -/
theorem encode_of_withoutInst (hr : fieldRsv w = 0) (hu : fieldUnit w = unit) (ho : fieldOp w = op)
    (hj : encode j = cmdWord unit op 0 0) (h : withoutInst w j = .ok i) : encode i = w := by
  obtain ⟨hn, h⟩ := withoutInst_ok h
  exact encode_of_withoutIdx hr hu ho (by rwa [hn]) h

theorem encode_of_decodeOsc (hr : fieldRsv w = 0) (hu : fieldUnit w = 0x0) (h : decodeOsc w = .ok i) :
    encode i = w := by
  unfold decodeOsc at h
  split at h
  · exact encode_of_withoutIdx hr hu ‹_› rfl h
  · exact encode_of_withoutIdx hr hu ‹_› rfl h
  · exact encode_of_withoutIdx hr hu ‹_› rfl h
  · exact encode_of_withoutIdx hr hu ‹_› rfl h
  · cases h

theorem encode_of_decodeEnv (hr : fieldRsv w = 0) (hu : fieldUnit w = 0x1) (h : decodeEnv w = .ok i) :
    encode i = w := by
  unfold decodeEnv at h
  split at h
  · exact encode_of_withoutIdx hr hu ‹_› rfl h
  · exact encode_of_withoutIdx hr hu ‹_› rfl h
  · exact encode_of_withoutIdx hr hu ‹_› rfl h
  · exact encode_of_withoutIdx hr hu ‹_› rfl h
  · exact encode_of_withoutIdx hr hu ‹_› rfl h
  · cases h

theorem encode_of_decodeMix (hr : fieldRsv w = 0) (hu : fieldUnit w = 0x2) (h : decodeMix w = .ok i) :
    encode i = w := by
  unfold decodeMix at h
  split at h
  · cases h; exact cmdWord_eq_of_fields hu ‹_› rfl hr
  · exact encode_of_withoutIdx hr hu ‹_› rfl h
  · exact encode_of_withoutIdx hr hu ‹_› rfl h
  · cases h; exact cmdWord_eq_of_fields hu ‹_› rfl hr
  · cases h

theorem encode_of_decodeHch (hr : fieldRsv w = 0) (hu : fieldUnit w = 0x3) (h : decodeHch w = .ok i) :
    encode i = w := by
  unfold decodeHch at h
  split at h
  · exact encode_of_withoutIdx hr hu ‹_› rfl h
  · exact encode_of_withoutIdx hr hu ‹_› rfl h
  · exact encode_of_withoutIdx hr hu ‹_› rfl h
  · exact encode_of_withoutIdx hr hu ‹_› rfl h
  · exact encode_of_withoutIdx hr hu ‹_› rfl h
  · cases h

theorem encode_of_decodeSys (hr : fieldRsv w = 0) (hu : fieldUnit w = 0xF) (h : decodeSys w = .ok i) :
    encode i = w := by
  unfold decodeSys at h
  split at h
  · exact encode_of_withoutInst hr hu ‹_› rfl h
  · exact encode_of_withoutInst hr hu ‹_› rfl h
  · exact encode_of_withoutInst hr hu ‹_› rfl h
  · cases h

/-- No bit of a word that decodes is dropped. -/
theorem encode_of_decode (h : decode w = .ok i) : encode i = w := by
  unfold decode at h
  split at h
  · cases h
  · next hr =>
    rw [not_not] at hr
    split at h
    · exact encode_of_decodeOsc hr ‹_› h
    · exact encode_of_decodeEnv hr ‹_› h
    · exact encode_of_decodeMix hr ‹_› h
    · exact encode_of_decodeHch hr ‹_› h
    · exact encode_of_decodeSys hr ‹_› h
    · cases h

end

end Sys2Proof
end

section
/-!
SUPPORT. The invariant `StateOk` and the units: every unit operation keeps the unit's own invariant (10_state.md R24,
R26, R28), and every operation on the state keeps `StateOk`.
-/

namespace Sys2Proof.Machine

/-! ### What a valid configuration says -/

theorem rampLen_lt_of_configOk {c : Config} (h : configOk c = true) : rampLen c < 2 ^ 32 := by
  obtain ⟨-, -, -, -, -, -, hr, -⟩ := of_decide_eq_true h
  exact hr

theorem fLimit_le_of_configOk {c : Config} (h : configOk c = true) :
    0 < c.fLimitDen ∧ 2 * c.fLimitNum ≤ c.sampleRate * c.fLimitDen := by
  obtain ⟨-, -, -, -, -, -, -, -, hd, hl, -⟩ := of_decide_eq_true h
  exact ⟨hd, hl⟩

theorem nPort_pos_of_configOk {c : Config} (h : configOk c = true) : 0 < c.nPort := by
  obtain ⟨-, -, -, -, -, -, -, -, -, -, -, -, -, -, -, hp, -⟩ := of_decide_eq_true h
  exact hp

/-! ### Oscillators (R24) -/

/-- A frequency below `F_LIMIT`, at most half the sample rate, gives an increment below `2^31` (R111). -/
theorem freqIncr_lt {c : Config} {f : F32} (hc : configOk c = true) (hf : freqValid c f = true) :
    freqIncr c f < 2 ^ 31 := by
  obtain ⟨hd, hl⟩ := fLimit_le_of_configOk hc
  simp only [freqValid, Bool.and_eq_true, decide_eq_true_eq] at hf
  obtain ⟨⟨-, hpos⟩, hlim⟩ := hf
  have hval : f32Val f = f32Mag f := by
    unfold f32Val at hpos ⊢
    split at hpos
    · omega
    · rw [if_neg ‹_›]
  rw [hval] at hlim
  norm_cast at hlim
  have hmag : 2 * f32Mag f < 2 ^ 150 * c.sampleRate := by
    refine Nat.lt_of_mul_lt_mul_right (a := c.fLimitDen) ?_
    calc 2 * f32Mag f * c.fLimitDen = 2 * (f32Mag f * c.fLimitDen) := by ring
      _ < 2 * (c.fLimitNum * 2 ^ 150) := by omega
      _ = 2 ^ 150 * (2 * c.fLimitNum) := by ring
      _ ≤ 2 ^ 150 * (c.sampleRate * c.fLimitDen) := Nat.mul_le_mul_left _ hl
      _ = 2 ^ 150 * c.sampleRate * c.fLimitDen := by ring
  refine Nat.div_lt_of_lt_mul ?_
  calc f32Mag f * 2 ^ 32 = 2 * f32Mag f * 2 ^ 31 := by ring
    _ < 2 ^ 150 * c.sampleRate * 2 ^ 31 := Nat.mul_lt_mul_of_pos_right hmag (by positivity)

theorem newInc_lt {c : Config} (hc : configOk c = true) (f : F32) : newInc c f < 2 ^ 31 := by
  unfold newInc
  split
  · exact freqIncr_lt hc ‹_›
  · positivity

theorem oscOk_zero : OscOk { pos := 0#32, inc := 0#32 } := by decide

theorem oscSetFreq_ok {c : Config} (hc : configOk c = true) (f : F32) (v : OscState) :
    OscOk (oscSetFreq c f v) := by
  unfold oscSetFreq
  split
  · exact oscOk_zero
  · next h0 =>
    have hlt := newInc_lt hc f
    have hn : (BitVec.ofNat 32 (newInc c f)).toNat = newInc c f := by
      rw [BitVec.toNat_ofNat]; omega
    refine ⟨fun h => absurd ?_ h0, hn.trans_lt hlt⟩
    rw [← hn]; exact congrArg BitVec.toNat h

theorem oscNext_ok {v : OscState} (c : Config) (hv : OscOk v) : OscOk (oscNext c v).2 := by
  obtain ⟨hpos, hinc⟩ := hv
  exact ⟨fun h => by simp_all [oscNext], hinc⟩

theorem oscRender_ok {v : OscState} (c : Config) (n : Nat) (hv : OscOk v) : OscOk (oscRender c n v).2 := by
  induction n generalizing v with
  | zero => exact hv
  | succ n ih => exact ih (oscNext_ok c hv)

/-! ### Envelopes (R26) -/

section
variable {r : Nat} {v : EnvState}

theorem envOk_idle : EnvOk r { stage := .idle, epos := 0#32 } := ⟨Nat.zero_le _, fun _ => rfl, nofun⟩

theorem envNoteOn_ok (hv : EnvOk r v) : EnvOk r (envNoteOn v) := by
  refine ⟨?_, nofun, nofun⟩
  unfold envNoteOn
  simp only
  split
  · exact Nat.zero_le _
  · exact hv.1

theorem envNoteOff_ok (hv : EnvOk r v) : EnvOk r (envNoteOff v) := ⟨hv.1, nofun, nofun⟩

theorem envStep_ok (hr : r < 2 ^ 32) (hv : EnvOk r v) : EnvOk r (envStep r v) := by
  have hle := hv.1
  unfold envStep
  split
  case h_1 => exact hv
  case h_2 => exact hv
  case h_3 =>
    have hp : (BitVec.ofNat 32 (min (v.epos.toNat + 1) r)).toNat = min (v.epos.toNat + 1) r := by
      rw [BitVec.toNat_ofNat]; omega
    simp only [EnvOk, hp]
    split
    · next hend => exact ⟨Nat.min_le_right _ _, nofun, fun _ => hend⟩
    · exact ⟨Nat.min_le_right _ _, nofun, nofun⟩
  case h_4 =>
    have hp : (BitVec.ofNat 32 (v.epos.toNat - 1)).toNat = v.epos.toNat - 1 := by
      rw [BitVec.toNat_ofNat]; omega
    simp only [EnvOk, hp]
    split
    · next hend => exact ⟨by omega, fun _ => hend, nofun⟩
    · exact ⟨by omega, nofun, nofun⟩

theorem envProcs_ok (c : Config) (hr : rampLen c < 2 ^ 32) (k : Nat) (xs : List F32) (hv : EnvOk (rampLen c) v) :
    EnvOk (rampLen c) (envProcs c k xs v).2 := by
  induction xs generalizing k v with
  | nil => exact hv
  | cons x xs ih => exact ih _ (envStep_ok hr hv)

end

/-! ### Lists of units -/

section
variable {α : Type} {P : α → Prop} {l : List α} {v d : α}

theorem forall_mem_set (h : ∀ x ∈ l, P x) (hv : P v) (n : Nat) : ∀ x ∈ l.set n v, P x := by
  intro x hx
  rcases List.mem_or_eq_of_mem_set hx with hx | rfl
  · exact h x hx
  · exact hv

theorem getD_of_forall_mem (h : ∀ x ∈ l, P x) (hd : P d) (n : Nat) : P (l.getD n d) := by
  rw [List.getD_eq_getElem?_getD]
  cases hn : l[n]? with
  | none => exact hd
  | some x => exact h x (List.mem_of_getElem? hn)

end

/-- Setting a gain leaves the number of gains of every mixer. -/
theorem setGain_lengths (m j : Nat) (g : F32) (s : State) :
    (setGain m j g s).gains.map List.length = s.gains.map List.length := by
  rw [setGain_gains, List.map_set, List.length_set, gainsOf]
  apply List.ext_getElem?
  intro n
  rw [List.getElem?_set]
  split
  · next h =>
    subst h
    cases hm : s.gains[m]? with
    | none => simp_all
    | some gs => simp [List.getD_eq_getElem?_getD, hm]; exact (List.getElem?_eq_some_iff.mp hm).1
  · rfl

theorem FaultCode.code_bounds (code : FaultCode) : 1 ≤ code.code ∧ code.code ≤ 7 := by
  cases code <;> decide

/-! ### Reading a unit of a state with the invariant -/

namespace StateOk

section
variable {s : State} (h : StateOk s)
include h

theorem osc_ok (o : Nat) : OscOk (osc s o) := getD_of_forall_mem h.oscs_ok oscOk_zero o

theorem env_ok (e : Nat) : EnvOk (rampLen s.cfg) (env s e) := getD_of_forall_mem h.envs_ok envOk_idle e

theorem chan_ok (c : Nat) : ChanOk s.cfg.block (chan s c) := getD_of_forall_mem h.chans_ok (by nofun) c

theorem chan_open {c : Nat} (hm : chMode s.cfg c = .cell) : (chan s c).popen = true ∧ (chan s c).copen = true := by
  rw [chan, List.getD_eq_getElem?_getD]
  cases hc : s.chans[c]? with
  | none => exact ⟨rfl, rfl⟩
  | some ch => exact h.cells_open c ch hc hm

/-! ### The operations on the state keep the invariant -/

theorem serve {p : Nat} (hp : p < s.cfg.nPort) : StateOk (serve p s) := { h with port_lt := hp }

theorem tick : StateOk (tick s) := { h with }

theorem setDraws (k : Nat) : StateOk (setDraws k s) := { h with }

theorem consume (n : Nat) : StateOk (consume n s) :=
  { h with cmdIn_length := (List.length_set ..).trans h.cmdIn_length }

theorem respond (ws : List Word) : StateOk (respond ws s) :=
  { h with respOut_length := (List.length_set ..).trans h.respOut_length }

theorem refuseHalted : StateOk (refuseHalted s) := (h.consume 1).respond _

theorem complete (i : Instr) (st : Status) (data : List Word) : StateOk (complete i st data s) :=
  (h.consume _).respond _

theorem takeFault (code : FaultCode) (cmd : Word) : StateOk (takeFault code cmd s) := by
  have hcode : (BitVec.ofNat 8 code.code).toNat = code.code := by
    have := code.code_bounds
    rw [BitVec.toNat_ofNat]; omega
  have hrecord : StateOk { s with
      fault := BitVec.ofNat 8 code.code, fport := BitVec.ofNat 8 s.port, fcmd := cmd } :=
    { h with
      fport_lt := (Nat.mod_le _ _).trans_lt h.port_lt
      fault_le := hcode.trans_le code.code_bounds.2
      record_zero := fun h0 => by
        have := code.code_bounds.1
        have : code.code = 0 := hcode.symm.trans (congrArg BitVec.toNat h0)
        omega }
  exact (hrecord.consume 1).respond _

theorem setOsc {v : OscState} (o : Nat) (hv : OscOk v) : StateOk (setOsc o v s) :=
  { h with
    oscs_length := (List.length_set ..).trans h.oscs_length
    oscs_ok := forall_mem_set h.oscs_ok hv o }

theorem setEnv {v : EnvState} (e : Nat) (hv : EnvOk (rampLen s.cfg) v) : StateOk (setEnv e v s) :=
  { h with
    envs_length := (List.length_set ..).trans h.envs_length
    envs_ok := forall_mem_set h.envs_ok hv e }

theorem setGain (m j : Nat) (g : F32) : StateOk (setGain m j g s) :=
  { h with gains_lengths := (setGain_lengths m j g s).trans h.gains_lengths }

theorem setChan {c : Nat} {v : ChanState} (hv : ChanOk s.cfg.block v)
    (ho : chMode s.cfg c = .cell → v.popen = true ∧ v.copen = true) : StateOk (setChan c v s) :=
  { h with
    chans_length := (List.length_set ..).trans h.chans_length
    chans_ok := forall_mem_set h.chans_ok hv c
    cells_open := fun n ch hn hm => by
      rw [setChan_chans, List.getElem?_set] at hn
      split at hn
      · next hc =>
        split at hn
        · cases hn; subst hc; exact ho hm
        · cases hn
      · exact h.cells_open n ch hn hm }

end

end StateOk

/-- A stored payload has `BLOCK` samples. -/
theorem payloadOf_length {i : Instr} {s : State} (hp : plen s.cfg i ≤ (payloadWords s).length) :
    (payloadOf i s).length = plen s.cfg i := List.length_take_of_le hp

/-- Every way a command completes keeps the invariant. -/
theorem Effect.stateOk {s u : State} {i : Instr} {st : Status} {data : List Word} (he : Effect s i st data u)
    (h : StateOk s) (hp : plen s.cfg i ≤ (payloadWords s).length) : StateOk u := by
  have hr := rampLen_lt_of_configOk h.config
  cases he with
  | oscSetf o => exact h.setOsc o (oscSetFreq_ok h.config _ _)
  | oscNext o => exact h.setOsc o (oscNext_ok _ (h.osc_ok o))
  | oscRender o => exact h.setOsc o (oscRender_ok _ _ (h.osc_ok o))
  | envNon e => exact h.setEnv e (envNoteOn_ok (h.env_ok e))
  | envNoff e => exact h.setEnv e (envNoteOff_ok (h.env_ok e))
  | envProc e y k v hv =>
    obtain rfl : envStep (rampLen s.cfg) (env s e) = v := congrArg Prod.snd hv
    exact (h.setEnv e (envStep_ok hr (h.env_ok e))).setDraws k
  | envProcb e ys k v hv =>
    obtain rfl : (envProcs s.cfg s.nanDraws _ (env s e)).2 = v := congrArg Prod.snd hv
    exact (h.setEnv e (envProcs_ok _ hr _ _ (h.env_ok e))).setDraws k
  | mixSetlvl m j _ => exact h.setGain m j _
  | mixMix1 m y k _ => exact h.setDraws k
  | mixRender m ys k _ => exact h.setDraws k
  | hchPush c _ _ =>
    refine h.setChan (fun b hb => ?_) h.chan_open
    cases hb
    exact payloadOf_length hp
  | hchPop c b _ _ => exact h.setChan (by nofun) h.chan_open
  | hchClosep c hm => exact h.setChan (h.chan_ok c) (by simp [hm])
  | hchClosec c hm => exact h.setChan (h.chan_ok c) (by simp [hm])
  | oscRdst | envRdst | mixRdlvl | hchPushGone | hchPopGone | hchRdst | sysNop | sysRdflt | sysRdcfg => exact h

/-- However the head word of the port served ends, the invariant is kept. -/
theorem Served.stateOk {s t : State} (hs : Served s t) (h : StateOk s) : StateOk t := by
  cases hs with
  | refused _ ht => exact ht ▸ h.refuseHalted
  | faults _ code cmd ht => exact ht ▸ h.takeFault code cmd
  | completes w ws i st data u hw _ _ _ hp he ht =>
    exact ht ▸ (he.stateOk h ((payloadWords_eq hw).symm ▸ hp)).complete i st data

/-- The reset state of a valid configuration has the invariant (R33). -/
theorem stateOk_resetWith {c : Config} (hc : configOk c = true) : StateOk (State.resetWith c) where
  config := hc
  cmdIn_length := List.length_replicate
  respOut_length := List.length_replicate
  oscs_length := List.length_map _
  envs_length := List.length_map _
  gains_lengths := List.map_map
  chans_length := List.length_map _
  oscs_ok := List.forall_mem_map.mpr fun _ _ => oscOk_zero
  envs_ok := List.forall_mem_map.mpr fun _ _ => envOk_idle
  chans_ok := List.forall_mem_map.mpr fun _ _ => by nofun
  cells_open := fun n ch hn _ => by
    obtain ⟨_, -, rfl⟩ := List.mem_map.mp (List.mem_of_getElem? hn)
    exact ⟨rfl, rfl⟩
  port_lt := nPort_pos_of_configOk hc
  fport_lt := nPort_pos_of_configOk hc
  fault_le := Nat.zero_le _
  record_zero := fun _ => ⟨rfl, rfl⟩

end Sys2Proof.Machine
end

section
/-!
SUPPORT. What a completed command can do to one channel (43_handoff.md R191 to R197).
-/

namespace Sys2Proof.Machine

/-- `ChanStep s i st data c ch ch'`: the command `i`, completing in `s` with status `st` and words `data`, takes channel
`c` from `ch` to `ch'`. -/
inductive ChanStep (s : State) (i : Instr) (st : Status) (data : List Word) (c : Nat) (ch : ChanState) :
    ChanState → Prop where
  | same : ChanStep s i st data c ch ch
  | pushed (hi : i = .hchPush c) (hslot : ch.slot = none) :
      ChanStep s i st data c ch { ch with slot := some (payloadOf i s) }
  | popped (hi : i = .hchPop c) (hst : st = .ok) (hslot : ch.slot = some data) :
      ChanStep s i st data c ch { ch with slot := none }
  | closedProducer : ChanStep s i st data c ch { ch with popen := false }
  | closedConsumer : ChanStep s i st data c ch { ch with copen := false }

/-- A change of channel `n` as seen from channel `c`. -/
theorem exists_chanStep_setChan {s : State} {i : Instr} {st : Status} {data : List Word} {n c : Nat}
    {v ch : ChanState} (h : s.chans[c]? = some ch) (hv : n = c → ChanStep s i st data c ch v) :
    ∃ ch', (setChan n v s).chans[c]? = some ch' ∧ ChanStep s i st data c ch ch' := by
  by_cases hn : n = c
  · have hlt := (List.getElem?_eq_some_iff.mp h).1
    exact ⟨v, by rw [setChan_chans, hn, List.getElem?_set_self hlt], hv hn⟩
  · exact ⟨ch, by rwa [setChan_chans, List.getElem?_set_ne hn], .same⟩

/-- What a completed command can do to a channel. -/
theorem Effect.chanStep {s u : State} {i : Instr} {st : Status} {data : List Word} {c : Nat} {ch : ChanState}
    (he : Effect s i st data u) (h : s.chans[c]? = some ch) :
    ∃ ch', u.chans[c]? = some ch' ∧ ChanStep s i st data c ch ch' := by
  have hch := chan_eq h
  cases he with
  | hchPush n hslot _ =>
    refine exists_chanStep_setChan h ?_
    rintro rfl
    rw [hch] at hslot ⊢
    exact .pushed rfl hslot
  | hchPop n _ hslot _ =>
    refine exists_chanStep_setChan h ?_
    rintro rfl
    rw [hch] at hslot ⊢
    exact .popped rfl rfl hslot
  | hchClosep n _ =>
    refine exists_chanStep_setChan h ?_
    rintro rfl
    rw [hch]
    exact .closedProducer
  | hchClosec n _ =>
    refine exists_chanStep_setChan h ?_
    rintro rfl
    rw [hch]
    exact .closedConsumer
  | _ => exact ⟨ch, h, .same⟩

theorem isProducer_eq {c : Config} {n p : Nat} {cc : ChannelCfg} (h : c.channels[n]? = some cc)
    (hp : isProducer c n p = true) : cc.prod = p := by
  simpa [isProducer, h] using hp

theorem isConsumer_eq {c : Config} {n p : Nat} {cc : ChannelCfg} (h : c.channels[n]? = some cc)
    (hp : isConsumer c n p = true) : cc.cons = p := by
  simpa [isConsumer, h] using hp

end Sys2Proof.Machine
end

section
/-!
SUPPORT. The fields of the state a reset leaves (70_reset_and_hazards.md R260).
-/

namespace Sys2Proof.Machine

@[simp] theorem resetEvent_cmdIn (s : State) : (resetEvent s).cmdIn = List.replicate s.cfg.nPort [] := rfl
@[simp] theorem resetEvent_oscs (s : State) :
    (resetEvent s).oscs = s.cfg.ownOsc.map fun _ => { pos := 0#32, inc := 0#32 } := rfl
@[simp] theorem resetEvent_envs (s : State) :
    (resetEvent s).envs = s.cfg.ownEnv.map fun _ => { stage := .idle, epos := 0#32 } := rfl
@[simp] theorem resetEvent_gains (s : State) : (resetEvent s).gains = s.cfg.mixers.map fun m => m.gainInit := rfl
@[simp] theorem resetEvent_chans (s : State) :
    (resetEvent s).chans = s.cfg.channels.map fun _ => { slot := none, popen := true, copen := true } := rfl
@[simp] theorem resetEvent_fault (s : State) : (resetEvent s).fault = 0#8 := rfl
@[simp] theorem resetEvent_fport (s : State) : (resetEvent s).fport = 0#8 := rfl
@[simp] theorem resetEvent_fcmd (s : State) : (resetEvent s).fcmd = 0#32 := rfl
@[simp] theorem resetEvent_cfg (s : State) : (resetEvent s).cfg = s.cfg := rfl

end Sys2Proof.Machine
end

section
/-!
OBLIGATIONS. The state of the block (10_state.md): the invariant, the permanent halt, the channels and the reset values.
-/

namespace Sys2Proof.Machine

/-- Settles O55: choosing a port keeps the invariant, and so does serving its head word. -/
theorem stepKeepsTheInvariant : Obligations.StepKeepsTheInvariant := by
  intro s t hs h
  obtain ⟨p, hp, hserved⟩ := step_served h
  exact ⟨hserved.stateOk (hs.tick.serve hp), step_cfg h⟩

/-- Settles O11: in a halted block a word is refused, or it is `SYS.RDFLT`, which changes no unit. -/
theorem haltIsPermanent : Obligations.HaltIsPermanent := by
  intro s t hf h
  obtain ⟨p, -, hserved⟩ := step_served h
  cases hserved with
  | refused _ ht => subst ht; exact ⟨rfl, rfl, rfl, rfl, rfl, rfl, rfl⟩
  | faults h0 => exact absurd h0 hf
  | completes w ws i st data u _ _ hrun _ _ he ht =>
    obtain rfl := hrun.resolve_left hf
    cases he
    subst ht
    exact ⟨rfl, rfl, rfl, rfl, rfl, rfl, rfl⟩

/-- Settles O50: of the changes of a channel only a push fills the slot and only a pop empties it, and the port served
is the producer's or the consumer's because it owns the command. -/
theorem slotChangesOnlyByPushAndPop : Obligations.SlotChangesOnlyByPushAndPop := by
  intro s t c cc ch h hcc hch
  obtain ⟨p, -, hserved⟩ := step_served h
  have unchanged : ∀ b, ch.slot = none → ch.slot = some b →
      b.length = s.cfg.block ∧ ∃ rest, s.cmdIn[cc.prod]? = some (encode (.hchPush c) :: (b ++ rest)) :=
    fun b h0 h1 => by simp [h0] at h1
  cases hserved with
  | refused _ ht => exact ⟨ch, ht ▸ hch, fun _ => .inl, unchanged⟩
  | faults _ _ _ ht => exact ⟨ch, ht ▸ hch, fun _ => .inl, unchanged⟩
  | completes w ws i st data u hw hd _ ho hp he ht =>
    have hhead : s.cmdIn[p]? = some (encode i :: ws) := encode_of_decode hd ▸ getElem?_of_pending_cons hw
    obtain ⟨ch', hch', hstep⟩ := he.chanStep hch
    refine ⟨ch', ht ▸ hch', ?_⟩
    cases hstep with
    | same => exact ⟨fun _ => .inl, unchanged⟩
    | closedProducer => exact ⟨fun _ => .inl, unchanged⟩
    | closedConsumer => exact ⟨fun _ => .inl, unchanged⟩
    | pushed hi hslot =>
      subst hi
      refine ⟨fun b hb => by simp [hslot] at hb, fun b _ hb => ?_⟩
      obtain rfl : cc.prod = p := isProducer_eq hcc ho
      obtain rfl : ws.take s.cfg.block = b := payloadWords_eq hw ▸ Option.some.inj hb
      exact ⟨List.length_take_of_le hp, ws.drop s.cfg.block, by rw [List.take_append_drop]; exact hhead⟩
    | popped hi hst hslot =>
      subst hi hst
      refine ⟨fun b hb => .inr ⟨rfl, ?_⟩, fun b _ hb => by simp at hb⟩
      obtain rfl : cc.cons = p := isConsumer_eq hcc ho
      obtain rfl : data = b := by simpa [hslot] using hb
      obtain ⟨-, hrespOut, -, -, -, -, hport, -⟩ := he.frame
      refine ⟨⟨ws, hhead⟩, ?_⟩
      rw [ht, complete_respOut, hrespOut, hport]
      rfl

/-- Settles O51: no change of a channel sets a flag. -/
theorem closedSidesStayClosed : Obligations.ClosedSidesStayClosed := by
  intro s t c ch h hch
  obtain ⟨p, -, hserved⟩ := step_served h
  cases hserved with
  | refused _ ht => exact ⟨ch, ht ▸ hch, id, id⟩
  | faults _ _ _ ht => exact ⟨ch, ht ▸ hch, id, id⟩
  | completes w ws i st data u _ _ _ _ _ he ht =>
    obtain ⟨ch', hch', hstep⟩ := he.chanStep hch
    refine ⟨ch', ht ▸ hch', ?_⟩
    cases hstep with
    | same | pushed | popped => exact ⟨id, id⟩
    | closedProducer => exact ⟨fun _ => rfl, id⟩
    | closedConsumer => exact ⟨id, fun _ => rfl⟩

/-- Settles O56. -/
theorem resetHasTheInvariant : Obligations.ResetHasTheInvariant :=
  ⟨stateOk_resetWith (by decide), fun _ => stateOk_resetWith⟩

/-- Settles O57, one group of state at a time. -/
theorem resetValues : Obligations.ResetValues := by
  rintro s _ rfl
  refine ⟨fun o ho => ?oscs, fun e he => ?envs, fun m mc hm => ?gains, fun c hc => ?chans, rfl, rfl, rfl,
    fun p hp => ?cmdIn, rfl⟩
  case oscs => simp [ho]
  case envs => simp [he]
  case gains => simp [hm]
  case chans => simp [hc]
  case cmdIn => simp [hp]

end Sys2Proof.Machine
end

section
/-!
SUPPORT. The step by cases of the port chosen (20_memory.md R66): which port there is, and what the step then is.
-/

namespace Sys2Proof.Machine

/-- Whatever the arbiter draws, some port is chosen as soon as one is enabled. -/
theorem chosenPort_eq_none_iff {s : State} :
    chosenPort s = none ↔ ∀ p, p < s.cfg.nPort → enabled s p = false := by
  have hempty : chosenPort s = none ↔ enabledPorts s = [] := by
    unfold chosenPort
    split
    · next h => simp [h]
    · next h => simp [h]
    · next q r qs h =>
      have hlt : Config.arbiter s.arbTurn % (qs.length + 2) < (q :: r :: qs).length := Nat.mod_lt _ (by omega)
      simp [h, List.getElem?_eq_getElem hlt]
  rw [hempty, enabledPorts, List.filter_eq_nil_iff]
  simp

theorem step_of_configInvalid {s : State} (hc : configOk s.cfg = false) : step s = .refused .configInvalid := by
  simp [step_eq, hc]

theorem step_of_no_port {s : State} (hc : configOk s.cfg = true) (h : chosenPort s = none) :
    step s = .fault .noEnabledPort := by
  simp [step_eq, hc, h]

theorem step_of_chosenPort {s : State} {p : Nat} (hc : configOk s.cfg = true) (h : chosenPort s = some p) :
    step s = portStep p (tick s) := by
  simp [step_eq, hc, h]

/-- Counting the choice before a port's step puts the new count in the next state and changes nothing else. -/
theorem portStep_tick_next_iff {s t : State} {p : Nat} :
    portStep p (tick s) = .next t ↔ ∃ u, portStep p s = .next u ∧ t = withTurn (s.arbTurn + 1) u := by
  rw [portStep_tick]
  cases portStep p s <;> simp [turnNext, eq_comm]

/-- A head word that is a command is executed on its port (30_encoding.md R86). -/
theorem portStep_of_decode {s : State} {p : Nat} {w : Word} {ws : List Word} {i : Instr}
    (hw : s.cmdIn[p]? = some (w :: ws)) (hd : decode w = .ok i) : portStep p s = exec i (serve p s) := by
  simp [portStep, pending_eq_of_getElem? hw, hd]

end Sys2Proof.Machine
end

section
/-!
SUPPORT. What a port's step leaves to the other ports (20_memory.md R73): every unit the port does not own, and the
streams of the other ports.
-/

namespace Sys2Proof.Machine

/-- From `s` to `t` no unit changes that port `p` does not own: an oscillator, envelope or mixer of another owner, or a
channel of which `p` is neither side. -/
structure ForeignUnitsKept (p : Nat) (s t : State) : Prop where
  oscs : ∀ o : Nat, s.cfg.ownOsc[o]? ≠ some p → t.oscs[o]? = s.oscs[o]?
  envs : ∀ e : Nat, s.cfg.ownEnv[e]? ≠ some p → t.envs[e]? = s.envs[e]?
  gains : ∀ (m : Nat) (mc : MixerCfg), s.cfg.mixers[m]? = some mc → mc.owner ≠ p → t.gains[m]? = s.gains[m]?
  chans : ∀ (c : Nat) (cc : ChannelCfg), s.cfg.channels[c]? = some cc → cc.prod ≠ p → cc.cons ≠ p →
    t.chans[c]? = s.chans[c]?

namespace ForeignUnitsKept

variable {s u : State} {p : Nat}

theorem refl (p : Nat) (s : State) : ForeignUnitsKept p s s :=
  ⟨fun _ _ => rfl, fun _ _ => rfl, fun _ _ _ _ => rfl, fun _ _ _ _ _ => rfl⟩

theorem setDraws (h : ForeignUnitsKept p s u) (k : Nat) : ForeignUnitsKept p s (setDraws k u) := { h with }

theorem complete (h : ForeignUnitsKept p s u) (i : Instr) (st : Status) (data : List Word) :
    ForeignUnitsKept p s (complete i st data u) := { h with }

theorem setOsc {o : Nat} (ho : ownsOsc s.cfg o p = true) (v : OscState) : ForeignUnitsKept p s (setOsc o v s) :=
  { refl p s with
    oscs := fun n hn => by
      have hne : o ≠ n := fun heq => hn (heq ▸ of_decide_eq_true ho)
      rw [setOsc_oscs, List.getElem?_set_ne hne] }

theorem setEnv {e : Nat} (ho : ownsEnv s.cfg e p = true) (v : EnvState) : ForeignUnitsKept p s (setEnv e v s) :=
  { refl p s with
    envs := fun n hn => by
      have hne : e ≠ n := fun heq => hn (heq ▸ of_decide_eq_true ho)
      rw [setEnv_envs, List.getElem?_set_ne hne] }

theorem setGain {m : Nat} (ho : ownsMix s.cfg m p = true) (j : Nat) (g : F32) :
    ForeignUnitsKept p s (setGain m j g s) :=
  { refl p s with
    gains := fun n mc hn hforeign => by
      have hne : m ≠ n := by
        rintro rfl
        exact hforeign (by simpa [ownsMix, hn] using ho)
      rw [setGain_gains, List.getElem?_set_ne hne] }

theorem setChan {c : Nat} (ho : isProducer s.cfg c p = true ∨ isConsumer s.cfg c p = true) (v : ChanState) :
    ForeignUnitsKept p s (setChan c v s) :=
  { refl p s with
    chans := fun n cc hn hprod hcons => by
      have hne : c ≠ n := by
        rintro rfl
        exact ho.elim (hprod ∘ isProducer_eq hn) (hcons ∘ isConsumer_eq hn)
      rw [setChan_chans, List.getElem?_set_ne hne] }

end ForeignUnitsKept

/-- A command changes no unit but the one it names, which the port owns (60_exceptions.md R236). -/
theorem Effect.foreignUnitsKept {s u : State} {i : Instr} {st : Status} {data : List Word} {p : Nat}
    (he : Effect s i st data u) (ho : portOwns s.cfg p i = true) : ForeignUnitsKept p s u := by
  cases he with
  | oscSetf | oscNext | oscRender => exact .setOsc ho _
  | envNon | envNoff => exact .setEnv ho _
  | envProc | envProcb => exact (ForeignUnitsKept.setEnv ho _).setDraws _
  | mixSetlvl => exact .setGain ho _ _
  | mixMix1 | mixRender => exact (ForeignUnitsKept.refl p s).setDraws _
  | hchPush | hchClosep => exact .setChan (.inl ho) _
  | hchPop | hchClosec => exact .setChan (.inr ho) _
  | oscRdst | envRdst | mixRdlvl | hchPushGone | hchPopGone | hchRdst | sysNop | sysRdflt | sysRdcfg =>
    exact .refl p s

/-- However the head word ends: a refusal and a fault change no unit at all. -/
theorem Served.foreignUnitsKept {s t : State} (hs : Served s t) : ForeignUnitsKept s.port s t := by
  cases hs with
  | refused _ ht => subst ht; exact { ForeignUnitsKept.refl s.port s with }
  | faults _ code cmd ht => subst ht; exact { ForeignUnitsKept.refl s.port s with }
  | completes w ws i st data u _ _ _ ho _ he ht => exact ht ▸ (he.foreignUnitsKept ho).complete i st data

/-- However the head word ends, words are taken from and sent on the stream of the port served only (R62). -/
theorem Served.streams_eq_set {s t : State} (hs : Served s t) :
    (∃ ws, t.cmdIn = s.cmdIn.set s.port ws) ∧ ∃ ws, t.respOut = s.respOut.set s.port ws := by
  cases hs with
  | refused _ ht => subst ht; exact ⟨⟨_, rfl⟩, _, rfl⟩
  | faults _ code cmd ht => subst ht; exact ⟨⟨_, rfl⟩, _, rfl⟩
  | completes w ws i st data u _ _ _ _ _ he ht =>
    obtain ⟨hcmdIn, hrespOut, -, -, -, -, hport, -⟩ := he.frame
    subst ht
    rw [complete_cmdIn, complete_respOut, hcmdIn, hrespOut, hport]
    exact ⟨⟨_, rfl⟩, _, rfl⟩

end Sys2Proof.Machine
end

section
/-!
OBLIGATIONS. The ports of the block (20_memory.md): which step the block takes, when it has one, and what a port's step
leaves to the other ports.
-/

namespace Sys2Proof.Machine

/-- Settles O7: the port is the chosen one, and its step does not depend on the arbiter's counter. -/
theorem stepServesAnEnabledPort : Obligations.StepServesAnEnabledPort := by
  refine ⟨fun s t h => ?port, fun c b t => ?argument, fun i s t => exec_cfg⟩
  case port =>
    obtain ⟨-, p, -, hlt, henabled, hstep⟩ := step_next h
    obtain ⟨u, hu, rfl⟩ := portStep_tick_next_iff.mp hstep
    exact ⟨p, u, hlt, henabled, hu, rfl⟩
  case argument => exact mapNext_eq_next

/-- Settles O8: an enabled port means a chosen one, which is enabled and so has a step. -/
theorem stepStopsOnlyWithoutAnEnabledPort : Obligations.StepStopsOnlyWithoutAnEnabledPort := by
  refine fun s => ⟨step_of_configInvalid, fun hc p hp henabled => ?next, fun hc hnone => ?stop⟩
  case next =>
    cases hq : chosenPort s with
    | none => simp [chosenPort_eq_none_iff.mp hq p hp] at henabled
    | some q =>
      obtain ⟨-, hqenabled⟩ := mem_enabledPorts.mp (chosenPort_mem hq)
      obtain ⟨u, hu⟩ := enabled_iff.mp hqenabled
      exact ⟨_, (step_of_chosenPort hc hq).trans (portStep_tick_next_iff.mpr ⟨u, hu, rfl⟩)⟩
  case stop => exact step_of_no_port hc (chosenPort_eq_none_iff.mpr hnone)

/-- Settles O58: the port owns the one unit its command changes, and its streams are the only ones touched. -/
theorem portsAreIsolated : Obligations.PortsAreIsolated := by
  intro s t p h
  have hserved := portStep_served h
  obtain ⟨hoscs, henvs, hgains, hchans⟩ := hserved.foreignUnitsKept
  refine ⟨hoscs, henvs, hgains, hchans, fun q hq => ?_⟩
  obtain ⟨⟨ws, hcmdIn⟩, ws', hrespOut⟩ := hserved.streams_eq_set
  rw [hcmdIn, hrespOut]
  exact ⟨List.getElem?_set_ne hq.symm, List.getElem?_set_ne hq.symm⟩

/-- Settles O6. -/
theorem stepRunsTheDecodedCommand : Obligations.StepRunsTheDecodedCommand := by
  intro s p w ws i hc hp hw hd
  calc step s = portStep p (tick s) := step_of_chosenPort hc hp
    _ = exec i (serve p (tick s)) := portStep_of_decode hw hd

end Sys2Proof.Machine
end

section
/-!
SUPPORT. Decoding from the fields of a word (30_encoding.md R80 to R91): which operation table a unit selects, the
commands a word decodes to, and the words each unit rejects.
-/

namespace Sys2Proof

section
variable {w : Word} {i j : Instr}

/-! ### The fields of a word -/

theorem fieldUnit_lt (w : Word) : fieldUnit w < 16 := Nat.mod_lt _ (by decide)
theorem fieldOp_lt (w : Word) : fieldOp w < 16 := Nat.mod_lt _ (by decide)
theorem fieldInst_lt (w : Word) : fieldInst w < 256 := Nat.mod_lt _ (by decide)
theorem fieldIdx_lt (w : Word) : fieldIdx w < 256 := Nat.mod_lt _ (by decide)
theorem fieldRsv_lt (w : Word) : fieldRsv w < 256 := Nat.mod_lt _ (by decide)

/-- A bit range of a word as a natural number (R10). -/
theorem extractLsb'_toNat_eq_cmdField (w : Word) {lo len hi : Nat} (h : hi + 1 - lo = len) :
    (w.extractLsb' lo len).toNat = cmdField w hi lo := by
  rw [BitVec.extractLsb'_toNat, Nat.shiftRight_eq_div_pow, cmdField, h]

/-! ### The operation table of each unit -/

theorem decode_eq_decodeOsc (hr : fieldRsv w = 0) (hu : fieldUnit w = 0x0) : decode w = decodeOsc w := by
  simp [decode, hr, hu]

theorem decode_eq_decodeEnv (hr : fieldRsv w = 0) (hu : fieldUnit w = 0x1) : decode w = decodeEnv w := by
  simp [decode, hr, hu]

theorem decode_eq_decodeMix (hr : fieldRsv w = 0) (hu : fieldUnit w = 0x2) : decode w = decodeMix w := by
  simp [decode, hr, hu]

theorem decode_eq_decodeHch (hr : fieldRsv w = 0) (hu : fieldUnit w = 0x3) : decode w = decodeHch w := by
  simp [decode, hr, hu]

theorem decode_eq_decodeSys (hr : fieldRsv w = 0) (hu : fieldUnit w = 0xF) : decode w = decodeSys w := by
  simp [decode, hr, hu]

theorem decode_of_rsv_ne_zero (hr : fieldRsv w ≠ 0) : decode w = .error .rsvNonzero := by
  simp [decode, hr]

theorem decode_of_reservedUnit (hr : fieldRsv w = 0) (h4 : 0x4 ≤ fieldUnit w) (hE : fieldUnit w ≤ 0xE) :
    decode w = .error .reservedUnit := by
  unfold decode
  rw [if_neg (not_not.mpr hr)]
  split
  · omega
  · omega
  · omega
  · omega
  · omega
  · rfl

/-- A word names one of the five units or a reserved one (R81). -/
theorem unit_cases (w : Word) :
    fieldUnit w = 0x0 ∨ fieldUnit w = 0x1 ∨ fieldUnit w = 0x2 ∨ fieldUnit w = 0x3 ∨ fieldUnit w = 0xF ∨
      (0x4 ≤ fieldUnit w ∧ fieldUnit w ≤ 0xE) := by
  have := fieldUnit_lt w
  omega

/-! ### A command word decodes to its command -/

section
variable {unit op inst idx : Nat} (hu : unit < 16) (ho : op < 16) (hn : inst < 256) (hx : idx < 256)
include hu ho hn hx

@[simp] theorem fieldUnit_cmdWord : fieldUnit (cmdWord unit op inst idx) = unit :=
  let ⟨h, _⟩ := cmdWord_fields hu ho hn hx; h
@[simp] theorem fieldOp_cmdWord : fieldOp (cmdWord unit op inst idx) = op :=
  let ⟨_, h, _⟩ := cmdWord_fields hu ho hn hx; h
@[simp] theorem fieldInst_cmdWord : fieldInst (cmdWord unit op inst idx) = inst :=
  let ⟨_, _, h, _⟩ := cmdWord_fields hu ho hn hx; h
@[simp] theorem fieldIdx_cmdWord : fieldIdx (cmdWord unit op inst idx) = idx :=
  let ⟨_, _, _, h, _⟩ := cmdWord_fields hu ho hn hx; h
@[simp] theorem fieldRsv_cmdWord : fieldRsv (cmdWord unit op inst idx) = 0 :=
  let ⟨_, _, _, _, h⟩ := cmdWord_fields hu ho hn hx; h

end

theorem withoutIdx_of_zero (h : fieldIdx w = 0) : withoutIdx w i = .ok i := if_pos h

theorem withoutInst_of_zero (hn : fieldInst w = 0) (hx : fieldIdx w = 0) : withoutInst w i = .ok i :=
  (if_pos hn).trans (withoutIdx_of_zero hx)

/-- Each command is found in the operation table of its unit (R90). -/
theorem decode_encode (h : i.wellFormed = true) : decode (encode i) = .ok i := by
  cases i with
  | oscSetf o | oscNext o | oscRender o | oscRdst o =>
    have h : o < 256 := of_decide_eq_true h
    simp [encode, decode_eq_decodeOsc, decodeOsc, withoutIdx_of_zero, h]
  | envNon e | envNoff e | envProc e | envProcb e | envRdst e =>
    have h : e < 256 := of_decide_eq_true h
    simp [encode, decode_eq_decodeEnv, decodeEnv, withoutIdx_of_zero, h]
  | mixSetlvl m k | mixRdlvl m k =>
    obtain ⟨hm, hk⟩ : m < 256 ∧ k < 256 := by simpa [Instr.wellFormed] using h
    simp [encode, decode_eq_decodeMix, decodeMix, hm, hk]
  | mixMix1 m | mixRender m =>
    have h : m < 256 := of_decide_eq_true h
    simp [encode, decode_eq_decodeMix, decodeMix, withoutIdx_of_zero, h]
  | hchPush c | hchPop c | hchClosep c | hchClosec c | hchRdst c =>
    have h : c < 256 := of_decide_eq_true h
    simp [encode, decode_eq_decodeHch, decodeHch, withoutIdx_of_zero, h]
  | sysNop | sysRdflt | sysRdcfg =>
    simp [encode, decode_eq_decodeSys, decodeSys, withoutInst_of_zero]

/-- A word with the fields of a command decodes to it. -/
theorem decode_of_encode_eq (h : i.wellFormed = true) (hw : encode i = w) : decode w = .ok i :=
  hw ▸ decode_encode h

/-! ### What a word decodes to is well-formed -/

theorem wellFormed_of_withoutIdx (h : withoutIdx w j = .ok i) (hj : j.wellFormed = true) : i.wellFormed = true := by
  obtain ⟨-, rfl⟩ := withoutIdx_ok h
  exact hj

theorem wellFormed_of_decodeOsc (h : decodeOsc w = .ok i) : i.wellFormed = true := by
  have hn := decide_eq_true (fieldInst_lt w)
  unfold decodeOsc at h
  split at h
  · exact wellFormed_of_withoutIdx h hn
  · exact wellFormed_of_withoutIdx h hn
  · exact wellFormed_of_withoutIdx h hn
  · exact wellFormed_of_withoutIdx h hn
  · cases h

theorem wellFormed_of_decodeEnv (h : decodeEnv w = .ok i) : i.wellFormed = true := by
  have hn := decide_eq_true (fieldInst_lt w)
  unfold decodeEnv at h
  split at h
  · exact wellFormed_of_withoutIdx h hn
  · exact wellFormed_of_withoutIdx h hn
  · exact wellFormed_of_withoutIdx h hn
  · exact wellFormed_of_withoutIdx h hn
  · exact wellFormed_of_withoutIdx h hn
  · cases h

theorem wellFormed_of_decodeMix (h : decodeMix w = .ok i) : i.wellFormed = true := by
  have hn := decide_eq_true (fieldInst_lt w)
  have hx := decide_eq_true (fieldIdx_lt w)
  unfold decodeMix at h
  split at h
  · cases h; exact Bool.and_eq_true_iff.mpr ⟨hn, hx⟩
  · exact wellFormed_of_withoutIdx h hn
  · exact wellFormed_of_withoutIdx h hn
  · cases h; exact Bool.and_eq_true_iff.mpr ⟨hn, hx⟩
  · cases h

theorem wellFormed_of_decodeHch (h : decodeHch w = .ok i) : i.wellFormed = true := by
  have hn := decide_eq_true (fieldInst_lt w)
  unfold decodeHch at h
  split at h
  · exact wellFormed_of_withoutIdx h hn
  · exact wellFormed_of_withoutIdx h hn
  · exact wellFormed_of_withoutIdx h hn
  · exact wellFormed_of_withoutIdx h hn
  · exact wellFormed_of_withoutIdx h hn
  · cases h

theorem wellFormed_of_decodeSys (h : decodeSys w = .ok i) : i.wellFormed = true := by
  unfold decodeSys at h
  split at h
  · exact wellFormed_of_withoutIdx (withoutInst_ok h).2 rfl
  · exact wellFormed_of_withoutIdx (withoutInst_ok h).2 rfl
  · exact wellFormed_of_withoutIdx (withoutInst_ok h).2 rfl
  · cases h

/-- The indices of a decoded command are 8-bit fields of the word (R83, R84). -/
theorem wellFormed_of_decode (h : decode w = .ok i) : i.wellFormed = true := by
  unfold decode at h
  split at h
  · cases h
  · split at h
    · exact wellFormed_of_decodeOsc h
    · exact wellFormed_of_decodeEnv h
    · exact wellFormed_of_decodeMix h
    · exact wellFormed_of_decodeHch h
    · exact wellFormed_of_decodeSys h
    · cases h

/-! ### The words each unit rejects -/

theorem withoutIdx_error_iff : (∃ e, withoutIdx w i = .error e) ↔ fieldIdx w ≠ 0 := by
  unfold withoutIdx
  split <;> simp [*]

theorem withoutInst_error_iff : (∃ e, withoutInst w i = .error e) ↔ fieldInst w ≠ 0 ∨ fieldIdx w ≠ 0 := by
  unfold withoutInst
  split
  · simp [withoutIdx_error_iff, *]
  · simp [*]

theorem decodeOsc_error_iff : (∃ e, decodeOsc w = .error e) ↔ 4 ≤ fieldOp w ∨ fieldIdx w ≠ 0 := by
  unfold decodeOsc
  split
  · rw [withoutIdx_error_iff]; omega
  · rw [withoutIdx_error_iff]; omega
  · rw [withoutIdx_error_iff]; omega
  · rw [withoutIdx_error_iff]; omega
  · exact iff_of_true ⟨_, rfl⟩ (.inl (by simp only [imp_false] at *; omega))

theorem decodeEnv_error_iff : (∃ e, decodeEnv w = .error e) ↔ 5 ≤ fieldOp w ∨ fieldIdx w ≠ 0 := by
  unfold decodeEnv
  split
  · rw [withoutIdx_error_iff]; omega
  · rw [withoutIdx_error_iff]; omega
  · rw [withoutIdx_error_iff]; omega
  · rw [withoutIdx_error_iff]; omega
  · rw [withoutIdx_error_iff]; omega
  · exact iff_of_true ⟨_, rfl⟩ (.inl (by simp only [imp_false] at *; omega))

theorem decodeMix_error_iff :
    (∃ e, decodeMix w = .error e) ↔ 4 ≤ fieldOp w ∨ (fieldIdx w ≠ 0 ∧ fieldOp w ≠ 0 ∧ fieldOp w ≠ 3) := by
  unfold decodeMix
  split
  · exact iff_of_false (by simp) (by omega)
  · rw [withoutIdx_error_iff]; omega
  · rw [withoutIdx_error_iff]; omega
  · exact iff_of_false (by simp) (by omega)
  · exact iff_of_true ⟨_, rfl⟩ (.inl (by simp only [imp_false] at *; omega))

theorem decodeHch_error_iff : (∃ e, decodeHch w = .error e) ↔ 5 ≤ fieldOp w ∨ fieldIdx w ≠ 0 := by
  unfold decodeHch
  split
  · rw [withoutIdx_error_iff]; omega
  · rw [withoutIdx_error_iff]; omega
  · rw [withoutIdx_error_iff]; omega
  · rw [withoutIdx_error_iff]; omega
  · rw [withoutIdx_error_iff]; omega
  · exact iff_of_true ⟨_, rfl⟩ (.inl (by simp only [imp_false] at *; omega))

theorem decodeSys_error_iff :
    (∃ e, decodeSys w = .error e) ↔ 3 ≤ fieldOp w ∨ fieldInst w ≠ 0 ∨ fieldIdx w ≠ 0 := by
  unfold decodeSys
  split
  · rw [withoutInst_error_iff]; omega
  · rw [withoutInst_error_iff]; omega
  · rw [withoutInst_error_iff]; omega
  · exact iff_of_true ⟨_, rfl⟩ (.inl (by simp only [imp_false] at *; omega))

end

end Sys2Proof
end

section
/-!
SUPPORT. The opcode map as the spec prints it (30_encoding.md R90): which words a row accepts, field by field, and the
row of each command.
-/

namespace Sys2Proof

section
variable {w : Word} {i : Instr}

/-- Masking a word masks each of its bit fields. -/
theorem cmdField_and (v m : Word) (hi lo : Nat) : cmdField (v &&& m) hi lo = cmdField v hi lo &&& cmdField m hi lo := by
  simp only [cmdField, BitVec.toNat_and, Nat.and_div_two_pow, Nat.and_mod_two_pow]

/-- A word is its five fields. -/
theorem eq_iff_fields (v w : Word) : v = w ↔ fieldUnit v = fieldUnit w ∧ fieldOp v = fieldOp w ∧
    fieldInst v = fieldInst w ∧ fieldIdx v = fieldIdx w ∧ fieldRsv v = fieldRsv w := by
  constructor
  · rintro rfl; exact ⟨rfl, rfl, rfl, rfl, rfl⟩
  · rintro ⟨hu, ho, hn, hx, hr⟩
    apply BitVec.eq_of_toNat_eq
    have := v.isLt
    have := w.isLt
    simp only [fieldUnit, fieldOp, fieldInst, fieldIdx, fieldRsv, cmdField] at *
    omega

theorem fieldUnit_and (v m : Word) : fieldUnit (v &&& m) = fieldUnit v &&& fieldUnit m := cmdField_and v m 31 28
theorem fieldOp_and (v m : Word) : fieldOp (v &&& m) = fieldOp v &&& fieldOp m := cmdField_and v m 27 24
theorem fieldInst_and (v m : Word) : fieldInst (v &&& m) = fieldInst v &&& fieldInst m := cmdField_and v m 23 16
theorem fieldIdx_and (v m : Word) : fieldIdx (v &&& m) = fieldIdx v &&& fieldIdx m := cmdField_and v m 15 8
theorem fieldRsv_and (v m : Word) : fieldRsv (v &&& m) = fieldRsv v &&& fieldRsv m := cmdField_and v m 7 0

/-- The words accepted under a mask that selects `UNIT`, `OP`, `RSV` and nothing of `INST`. -/
theorem and_eq_cmdWord_iff {m : Word} (unit op : Nat) (hu : unit < 16) (ho : op < 16) (hmu : fieldUnit m = 2 ^ 4 - 1)
    (hmo : fieldOp m = 2 ^ 4 - 1) (hmn : fieldInst m = 0) (hmr : fieldRsv m = 2 ^ 8 - 1) :
    w &&& m = cmdWord unit op 0 0 ↔
      fieldUnit w = unit ∧ fieldOp w = op ∧ fieldIdx w &&& fieldIdx m = 0 ∧ fieldRsv w = 0 := by
  have hU : fieldUnit w &&& fieldUnit m = fieldUnit w :=
    hmu ▸ Nat.and_two_pow_sub_one_of_lt_two_pow (fieldUnit_lt w)
  have hO : fieldOp w &&& fieldOp m = fieldOp w := hmo ▸ Nat.and_two_pow_sub_one_of_lt_two_pow (fieldOp_lt w)
  have hR : fieldRsv w &&& fieldRsv m = fieldRsv w := hmr ▸ Nat.and_two_pow_sub_one_of_lt_two_pow (fieldRsv_lt w)
  simp [eq_iff_fields, fieldUnit_and, fieldOp_and, fieldInst_and, fieldIdx_and, fieldRsv_and, hU, hO, hR, hmn, hu, ho]

/-- A row for commands with `INST`: `IDX` and `RSV` are zero. -/
theorem and_inst_iff (unit op : Nat) (hu : unit < 16) (ho : op < 16) :
    w &&& 0xFF00FFFF#32 = cmdWord unit op 0 0 ↔
      fieldUnit w = unit ∧ fieldOp w = op ∧ fieldIdx w = 0 ∧ fieldRsv w = 0 := by
  have hX : fieldIdx w &&& fieldIdx 0xFF00FFFF#32 = fieldIdx w :=
    Nat.and_two_pow_sub_one_of_lt_two_pow (n := 8) (fieldIdx_lt w)
  rw [and_eq_cmdWord_iff unit op hu ho rfl rfl rfl rfl, hX]

/-- A row for commands with `INST` and `IDX`: `RSV` is zero. -/
theorem and_inst_idx_iff (unit op : Nat) (hu : unit < 16) (ho : op < 16) :
    w &&& 0xFF0000FF#32 = cmdWord unit op 0 0 ↔ fieldUnit w = unit ∧ fieldOp w = op ∧ fieldRsv w = 0 := by
  have hX : fieldIdx w &&& fieldIdx 0xFF0000FF#32 = 0 := Nat.and_zero _
  rw [and_eq_cmdWord_iff unit op hu ho rfl rfl rfl rfl]
  simp only [hX, true_and]

/-! ### A word a row accepts is that row's command -/

theorem accepts_iff {mnemonic : String} {pattern mask : Word} :
    OpcodeRow.accepts ⟨mnemonic, pattern, mask⟩ w = true ↔ w &&& mask = pattern := beq_iff_eq

theorem decode_of_accepts_inst {mnemonic : String} (unit op : Nat)
    (h : OpcodeRow.accepts ⟨mnemonic, cmdWord unit op 0 0, 0xFF00FFFF#32⟩ w = true)
    (hi : encode i = cmdWord unit op (fieldInst w) 0) (hwf : i.wellFormed = true)
    (hu : unit < 16 := by decide) (ho : op < 16 := by decide) : decode w = .ok i := by
  obtain ⟨hunit, hop, hidx, hrsv⟩ := (and_inst_iff unit op hu ho).mp (accepts_iff.mp h)
  exact decode_of_encode_eq hwf (hi.trans (cmdWord_eq_of_fields hunit hop hidx hrsv))

theorem decode_of_accepts_inst_idx {mnemonic : String} (unit op : Nat)
    (h : OpcodeRow.accepts ⟨mnemonic, cmdWord unit op 0 0, 0xFF0000FF#32⟩ w = true)
    (hi : encode i = cmdWord unit op (fieldInst w) (fieldIdx w)) (hwf : i.wellFormed = true)
    (hu : unit < 16 := by decide) (ho : op < 16 := by decide) : decode w = .ok i := by
  obtain ⟨hunit, hop, hrsv⟩ := (and_inst_idx_iff unit op hu ho).mp (accepts_iff.mp h)
  exact decode_of_encode_eq hwf (hi.trans (cmdWord_eq_of_fields hunit hop rfl hrsv))

theorem decode_of_accepts_all {mnemonic : String}
    (h : OpcodeRow.accepts ⟨mnemonic, encode i, 0xFFFFFFFF#32⟩ w = true) (hwf : i.wellFormed = true) :
    decode w = .ok i :=
  decode_of_encode_eq hwf ((accepts_iff.mp h).symm.trans BitVec.and_allOnes)

/-- A word that some row of the opcode map accepts decodes to the command of that row. -/
theorem decode_of_accepts {r : OpcodeRow} (hr : r ∈ opcodeRows) (h : r.accepts w = true) :
    ∃ i, decode w = .ok i ∧ i.mnemonic = r.mnemonic := by
  have hn := decide_eq_true (fieldInst_lt w)
  have hnx := Bool.and_eq_true_iff.mpr ⟨hn, decide_eq_true (fieldIdx_lt w)⟩
  simp only [opcodeRows, List.mem_cons, List.not_mem_nil, or_false] at hr
  rcases hr with rfl | rfl | rfl | rfl | rfl | rfl | rfl | rfl | rfl | rfl | rfl | rfl | rfl | rfl | rfl | rfl | rfl |
    rfl | rfl | rfl | rfl
  · exact ⟨.oscSetf (fieldInst w), decode_of_accepts_inst 0x0 0 h rfl hn, rfl⟩
  · exact ⟨.oscNext (fieldInst w), decode_of_accepts_inst 0x0 1 h rfl hn, rfl⟩
  · exact ⟨.oscRender (fieldInst w), decode_of_accepts_inst 0x0 2 h rfl hn, rfl⟩
  · exact ⟨.oscRdst (fieldInst w), decode_of_accepts_inst 0x0 3 h rfl hn, rfl⟩
  · exact ⟨.envNon (fieldInst w), decode_of_accepts_inst 0x1 0 h rfl hn, rfl⟩
  · exact ⟨.envNoff (fieldInst w), decode_of_accepts_inst 0x1 1 h rfl hn, rfl⟩
  · exact ⟨.envProc (fieldInst w), decode_of_accepts_inst 0x1 2 h rfl hn, rfl⟩
  · exact ⟨.envProcb (fieldInst w), decode_of_accepts_inst 0x1 3 h rfl hn, rfl⟩
  · exact ⟨.envRdst (fieldInst w), decode_of_accepts_inst 0x1 4 h rfl hn, rfl⟩
  · exact ⟨.mixSetlvl (fieldInst w) (fieldIdx w), decode_of_accepts_inst_idx 0x2 0 h rfl hnx, rfl⟩
  · exact ⟨.mixMix1 (fieldInst w), decode_of_accepts_inst 0x2 1 h rfl hn, rfl⟩
  · exact ⟨.mixRender (fieldInst w), decode_of_accepts_inst 0x2 2 h rfl hn, rfl⟩
  · exact ⟨.mixRdlvl (fieldInst w) (fieldIdx w), decode_of_accepts_inst_idx 0x2 3 h rfl hnx, rfl⟩
  · exact ⟨.hchPush (fieldInst w), decode_of_accepts_inst 0x3 0 h rfl hn, rfl⟩
  · exact ⟨.hchPop (fieldInst w), decode_of_accepts_inst 0x3 1 h rfl hn, rfl⟩
  · exact ⟨.hchClosep (fieldInst w), decode_of_accepts_inst 0x3 2 h rfl hn, rfl⟩
  · exact ⟨.hchClosec (fieldInst w), decode_of_accepts_inst 0x3 3 h rfl hn, rfl⟩
  · exact ⟨.hchRdst (fieldInst w), decode_of_accepts_inst 0x3 4 h rfl hn, rfl⟩
  · exact ⟨.sysNop, decode_of_accepts_all h rfl, rfl⟩
  · exact ⟨.sysRdflt, decode_of_accepts_all h rfl, rfl⟩
  · exact ⟨.sysRdcfg, decode_of_accepts_all h rfl, rfl⟩

/-! ### The row of each command -/

/-- The bits of the command word that a row fixes: all but `INST`, all but `INST` and `IDX`, or all (R90). -/
def Instr.rowMask : Instr → Word
  | .mixSetlvl _ _ | .mixRdlvl _ _ => 0xFF0000FF#32
  | .sysNop | .sysRdflt | .sysRdcfg => 0xFFFFFFFF#32
  | _ => 0xFF00FFFF#32

/-- The row of a command: its mnemonic, its word without the operands, and the bits that are fixed. -/
def Instr.row (i : Instr) : OpcodeRow := ⟨i.mnemonic, encode i &&& i.rowMask, i.rowMask⟩

theorem row_accepts_encode (i : Instr) : i.row.accepts (encode i) = true := beq_self_eq_true _

theorem cmdWord_and_inst {unit op inst : Nat} (hu : unit < 16) (ho : op < 16) (hn : inst < 256) :
    cmdWord unit op inst 0 &&& 0xFF00FFFF#32 = cmdWord unit op 0 0 :=
  (and_inst_iff unit op hu ho).mpr (by simp [hu, ho, hn])

theorem cmdWord_and_inst_idx {unit op inst idx : Nat} (hu : unit < 16) (ho : op < 16) (hn : inst < 256)
    (hx : idx < 256) : cmdWord unit op inst idx &&& 0xFF0000FF#32 = cmdWord unit op 0 0 :=
  (and_inst_idx_iff unit op hu ho).mpr (by simp [hu, ho, hn, hx])

/-- The row of a well-formed command stands in the opcode map. -/
theorem row_mem_opcodeRows (h : i.wellFormed = true) : i.row ∈ opcodeRows := by
  cases i with
  | oscSetf n | oscNext n | oscRender n | oscRdst n | envNon n | envNoff n | envProc n | envProcb n | envRdst n
  | mixMix1 n | mixRender n | hchPush n | hchPop n | hchClosep n | hchClosec n | hchRdst n =>
    have h : n < 256 := of_decide_eq_true h
    simp only [Instr.row, Instr.rowMask, encode]
    rw [cmdWord_and_inst (by decide) (by decide) h]
    simp only [Instr.mnemonic]
    decide
  | mixSetlvl m k | mixRdlvl m k =>
    obtain ⟨hm, hk⟩ : m < 256 ∧ k < 256 := by simpa [Instr.wellFormed] using h
    simp only [Instr.row, Instr.rowMask, encode]
    rw [cmdWord_and_inst_idx (by decide) (by decide) hm hk]
    simp only [Instr.mnemonic]
    decide
  | sysNop | sysRdflt | sysRdcfg => decide

/-- A word that decodes is accepted by the row of its command only: another row would make it another command. -/
theorem accepts_iff_eq_row (hd : decode w = .ok i) {r : OpcodeRow} (hr : r ∈ opcodeRows) :
    r.accepts w = true ↔ r = i.row := by
  constructor
  · intro h
    obtain ⟨j, hj, hjr⟩ := decode_of_accepts hr h
    obtain rfl : i = j := Except.ok.inj (hd.symm.trans hj)
    have hinj : ∀ a ∈ opcodeRows, ∀ b ∈ opcodeRows, a.mnemonic = b.mnemonic → a = b := by decide
    exact hinj r hr _ (row_mem_opcodeRows (wellFormed_of_decode hd)) hjr.symm
  · rintro rfl
    exact encode_of_decode hd ▸ row_accepts_encode i

theorem filter_accepts_eq (hd : decode w = .ok i) :
    (opcodeRows.filter fun r => r.accepts w) = [i.row] := by
  have hnodup : opcodeRows.Nodup := by decide
  calc (opcodeRows.filter fun r => r.accepts w)
      = opcodeRows.filter (· == i.row) :=
        List.filter_congr fun r hr => Bool.eq_iff_iff.mpr ((accepts_iff_eq_row hd hr).trans beq_iff_eq.symm)
    _ = [i.row] := by
      rw [List.filter_beq, List.count_eq_one_of_mem hnodup (row_mem_opcodeRows (wellFormed_of_decode hd))]
      rfl

end

end Sys2Proof
end

section
/-!
OBLIGATIONS. The command word (30_encoding.md).
-/

namespace Sys2Proof

/-- Settles O1: the operation table of its unit holds every command. -/
theorem decodeOfEncodeIsTheCommand : Obligations.DecodeOfEncodeIsTheCommand :=
  fun _ => decode_encode

/-- Settles O2: the operands are 8-bit fields of the word, and the fields put together are the word. -/
theorem encodeOfDecodeIsTheWord : Obligations.EncodeOfDecodeIsTheWord :=
  fun _ _ h => ⟨wellFormed_of_decode h, encode_of_decode h⟩

/-- Settles O3: only its command's row accepts a word that decodes, and a word that a row accepts does decode. -/
theorem decoderAgreesWithOpcodeMap : Obligations.DecoderAgreesWithOpcodeMap := by
  refine fun w => ⟨fun i hd => congrArg (List.map OpcodeRow.mnemonic) (filter_accepts_eq hd), fun e he => ?_⟩
  refine List.filter_eq_nil_iff.mpr fun r hr haccepts => ?_
  obtain ⟨i, hi, -⟩ := decode_of_accepts hr haccepts
  cases he.symm.trans hi

/-- Settles O4, one unit at a time. -/
theorem illegalWordsAreThoseOfTheSpec : Obligations.IllegalWordsAreThoseOfTheSpec := by
  intro w unit op inst idx rsv hunit hop hinst hidx hrsv
  obtain rfl : fieldUnit w = unit := (hunit.trans (extractLsb'_toNat_eq_cmdField w rfl)).symm
  obtain rfl : fieldOp w = op := (hop.trans (extractLsb'_toNat_eq_cmdField w rfl)).symm
  obtain rfl : fieldInst w = inst := (hinst.trans (extractLsb'_toNat_eq_cmdField w rfl)).symm
  obtain rfl : fieldIdx w = idx := (hidx.trans (extractLsb'_toNat_eq_cmdField w rfl)).symm
  obtain rfl : fieldRsv w = rsv := (hrsv.trans (extractLsb'_toNat_eq_cmdField w rfl)).symm
  by_cases hr : fieldRsv w = 0
  · rcases unit_cases w with hu | hu | hu | hu | hu | ⟨h4, hE⟩
    · rw [decode_eq_decodeOsc hr hu, decodeOsc_error_iff]; omega
    · rw [decode_eq_decodeEnv hr hu, decodeEnv_error_iff]; omega
    · rw [decode_eq_decodeMix hr hu, decodeMix_error_iff]; omega
    · rw [decode_eq_decodeHch hr hu, decodeHch_error_iff]; omega
    · rw [decode_eq_decodeSys hr hu, decodeSys_error_iff]; omega
    · exact iff_of_true ⟨_, decode_of_reservedUnit hr h4 hE⟩ (.inl ⟨h4, hE⟩)
  · exact iff_of_true ⟨_, decode_of_rsv_ne_zero hr⟩ (by omega)

/-- Settles O5: the decoder is evaluated on each word. -/
theorem specWordsDecode : Obligations.SpecWordsDecode :=
  ⟨rfl, rfl, rfl, rfl, rfl, rfl, rfl, rfl⟩

end Sys2Proof
end

section
/-!
SUPPORT. The lanes of `MIX.RENDER` one after the other (42_mixer.md R175): each lane is mixed with the count of NaN
draws that the lanes before it left.
-/

namespace Sys2Proof.Machine

section
variable (c : Config) (gains ws : List F32) (n : Nat)

/-- The last of the listed lanes is mixed last. -/
theorem mixLanes_concat (k l : Nat) (ls : List Nat) :
    mixLanes c gains ws n k (ls ++ [l]) =
      ((mixLanes c gains ws n k ls).1 ++ [(mixSum c (mixLanes c gains ws n k ls).2 gains (lane ws n c.block l)).1],
        (mixSum c (mixLanes c gains ws n k ls).2 gains (lane ws n c.block l)).2) := by
  induction ls generalizing k with
  | nil => rfl
  | cons j ls ih => simp [mixLanes, ih]

/-- The count of NaN draws before lane `l`, when it was `k` before lane 0 (log entry 4). -/
def laneDraws (k l : Nat) : Nat := (mixLanes c gains ws n k (List.range l)).2

/-- Sample `l` of the mixed block is the mix of lane `l`, however many lanes follow. -/
theorem mixLanes_range_getD (k : Nat) {l b : Nat} (hl : l < b) :
    mixSum c (laneDraws c gains ws n k l) gains (lane ws n c.block l) =
      ((mixLanes c gains ws n k (List.range b)).1.getD l 0#32, laneDraws c gains ws n k (l + 1)) := by
  induction b with
  | zero => omega
  | succ b ih =>
    have hlen : (mixLanes c gains ws n k (List.range b)).1.length = b := by rw [mixLanes_length, List.length_range]
    rw [List.range_succ, mixLanes_concat]
    rcases Nat.lt_succ_iff_lt_or_eq.mp hl with hlt | rfl
    · rw [List.getD_append _ _ _ _ (by omega)]
      exact ih hlt
    · rw [List.getD_append_right _ _ _ _ (by omega), hlen, Nat.sub_self, laneDraws, laneDraws, List.range_succ,
        mixLanes_concat]
      rfl

end

theorem lt_nMix {c : Config} {m : Nat} {mc : MixerCfg} (hm : c.mixers[m]? = some mc) : m < nMix c :=
  (List.getElem?_eq_some_iff.mp hm).1

theorem ownsMix_of_owner {c : Config} {m p : Nat} {mc : MixerCfg} (hm : c.mixers[m]? = some mc) (ho : mc.owner = p) :
    ownsMix c m p = true := by
  simp [ownsMix, hm, ho]

/-- A command whose payload stands behind it on its port runs with that payload (R86). -/
theorem withPayload_atHead {i : Instr} {s : State} {run : List Word → State} {cmd : Word}
    {payload rest out : List Word} (h : AtHead s cmd payload rest out) (hl : payload.length = plen s.cfg i) :
    withPayload i s run = .next (run payload) := by
  rw [withPayload_ready (by rw [h.payloadWords, List.length_append]; omega), h.payloadWords, ← hl, List.take_left]

end Sys2Proof.Machine
end

section
/-!
SUPPORT. The one response of a step (30_encoding.md R85 to R87): which data words follow each status.
-/

namespace Sys2Proof.Machine

/-- The data words of a response, by its status (R85, R87). -/
inductive DataWords (c : Config) (i : Instr) : Status → List Word → Prop where
  | ok (data : List Word) (h : data.length = rlen c i) : DataWords c i .ok data
  | eos : DataWords c i .eos (List.replicate c.block 0#32)
  | disconnected : DataWords c i .disconnected []

/-- Every effect answers as many words as its status calls for; a block delivered has `BLOCK` samples by the invariant
(10_state.md R28). -/
theorem Effect.dataWords {s u : State} {i : Instr} {st : Status} {data : List Word} (he : Effect s i st data u)
    (h : StateOk s) (hp : plen s.cfg i ≤ (payloadWords s).length) : DataWords s.cfg i st data := by
  cases he with
  | oscRender o => exact .ok _ (oscRender_length ..)
  | envProcb e _ k v hv =>
    obtain rfl : (envProcs s.cfg s.nanDraws _ (env s e)).1.1 = data := congrArg (·.1.1) hv
    exact .ok _ ((envProcs_length ..).trans (payloadOf_length hp))
  | mixRender m _ k hk =>
    obtain rfl : (mixLanes s.cfg (gainsOf s m) _ _ s.nanDraws _).1 = data := congrArg Prod.fst hk
    exact .ok _ ((mixLanes_length ..).trans List.length_range)
  | hchPop c _ hslot _ => exact .ok _ (h.chan_ok c data hslot)
  | hchPushGone => exact .disconnected
  | hchPopGone => exact .eos
  | oscSetf | oscNext | oscRdst | envNon | envNoff | envProc | envRdst | mixSetlvl | mixMix1 | mixRdlvl | hchPush
  | hchClosep | hchClosec | hchRdst | sysNop | sysRdflt | sysRdcfg => exact .ok _ rfl

end Sys2Proof.Machine
end

section
/-!
OBLIGATIONS. The words on the ports (30_encoding.md R85 to R89): the payload of `MIX.RENDER`, and the response of a
step.
-/

namespace Sys2Proof.Machine

/-- Settles O37: the samples are those of the lanes mixed in order, the draws those counted up to each lane. -/
theorem mixRenderResult : Obligations.MixRenderResult := by
  intro s m mc gs ws rest out h0 hm ho hgs hlen hhead
  have hgains := gainsOf_eq hgs
  have hsrc := nSrc_eq hm
  have hplen : ws.length = plen s.cfg (.mixRender m) := by rw [plen, hsrc, hlen]
  refine ⟨(mixLanes s.cfg gs ws mc.gainInit.length s.nanDraws (List.range s.cfg.block)).1,
    laneDraws s.cfg gs ws mc.gainInit.length s.nanDraws, ?_, rfl, fun l hl => mixLanes_range_getD _ _ _ _ _ hl, ?_⟩
  · rw [mixLanes_length, List.length_range]
  · have hexists : instanceExists s.cfg (.mixRender m) = true := decide_eq_true (lt_nMix hm)
    rw [exec, execMixRender, checked_pass h0 hexists (ownsMix_of_owner hm ho), withPayload_atHead hhead hplen]
    simp only [hgains, hsrc]
    exact congrArg Host.Outcome.next (complete_eq hhead hplen rfl rfl rfl rfl)

/-- Settles O59: the head word of the port is refused, faults, or completes with the words of its effect. -/
theorem everyStepSendsOneResponse : Obligations.EveryStepSendsOneResponse := by
  intro s t p w rest out hs hc ho h
  have hhead := atHead_serve hc ho
  have hp : p < s.cfg.nPort := hs.cmdIn_length ▸ (List.getElem?_eq_some_iff.mp hc).1
  cases portStep_served h with
  | refused _ ht =>
    rw [refuseHalted_eq hhead] at ht
    subst ht
    exact .inr ⟨rfl, .inr rfl⟩
  | faults _ code cmd ht =>
    subst ht
    obtain ⟨hcode1, hcode7⟩ := code.code_bounds
    refine .inr ⟨?_, .inl ⟨code.code, hcode1, hcode7, ?_⟩⟩
    · rw [takeFault_cmdIn, hhead.pending]; rfl
    · rw [takeFault_respOut, hhead.sent]; rfl
  | completes w' ws i st data u hw hd _ _ hl he ht =>
    obtain ⟨rfl, rfl⟩ : w = w' ∧ rest = ws := List.cons.inj ((hhead.pending).symm.trans hw)
    obtain ⟨hcmdIn, hrespOut, -, -, -, hcfg, hport, -⟩ := he.frame
    have hsplit : AtHead (serve p s) w (rest.take (plen s.cfg i)) (rest.drop (plen s.cfg i)) out :=
      ⟨by rw [List.take_append_drop]; exact hc, ho⟩
    rw [complete_eq hsplit (List.length_take_of_le hl) hcmdIn hrespOut hport hcfg] at ht
    subst ht
    refine .inl ⟨i, data, hd, hl, rfl, ?_⟩
    cases he.dataWords (hs.serve hp) ((payloadWords_eq hw).symm ▸ hl) with
    | ok _ hlen => exact .inl ⟨hlen, rfl⟩
    | eos => exact .inr (.inl ⟨rfl, rfl⟩)
    | disconnected => exact .inr (.inr ⟨rfl, rfl⟩)

end Sys2Proof.Machine
end

section
/-!
SUPPORT. The increment of a frequency on exact rationals: the natural quotient `freqIncr` is the floor of R111, the
validity test compares exact values, and when `NEWINC` is not zero (40_oscillator.md R111, R112).
-/

namespace Sys2Proof.Machine

/-! ### The exact floor (R111) -/

/-- `real(f) * 2^32 / SAMPLE_RATE`, the increment of `f` before it is rounded down. -/
def exactIncr (c : Config) (f : F32) : ℚ := realOf f * 2 ^ 32 / c.sampleRate

theorem f32Val_pos_iff (f : F32) : 0 < f32Val f ↔ 0 < realOf f := by
  rw [realOf_eq, div_pos_iff_of_pos_right (by positivity), Int.cast_pos]

/-- A positive pattern has no sign bit: its value is its magnitude. -/
theorem realOf_of_pos {f : F32} (h : 0 < realOf f) : realOf f = (f32Mag f : ℚ) / 2 ^ 150 := by
  have hpos := (f32Val_pos_iff f).mpr h
  have hneg : f32Neg f = false := by
    by_contra hneg
    rw [f32Val, if_pos (by simpa using hneg)] at hpos
    omega
  rw [realOf_eq, f32Val, hneg]; simp

/-- The natural quotient of R111 is the quotient of the exact rationals. -/
theorem exactIncr_of_pos (c : Config) {f : F32} (h : 0 < realOf f) :
    exactIncr c f = ((f32Mag f * 2 ^ 32 : ℕ) : ℚ) / ((2 ^ 150 * c.sampleRate : ℕ) : ℚ) := by
  rw [exactIncr, realOf_of_pos h, div_mul_eq_mul_div, div_div]
  simp only [Nat.cast_mul, Nat.cast_pow, Nat.cast_ofNat]

theorem freqIncr_eq_floor (c : Config) {f : F32} (h : 0 < realOf f) : (freqIncr c f : ℤ) = ⌊exactIncr c f⌋ := by
  rw [exactIncr_of_pos c h, Rat.floor_natCast_div_natCast, freqIncr, Int.natCast_ediv]

/-- Below half the sample rate the increment is less than half a cycle. -/
theorem freqIncr_lt_of_lt_half {c : Config} {f : F32} (hc : 1 ≤ c.sampleRate) (h : 0 < realOf f)
    (hlt : realOf f < (c.sampleRate : ℚ) / 2) : freqIncr c f < 2 ^ 31 := by
  have hrate : (0 : ℚ) < c.sampleRate := Nat.cast_pos.mpr hc
  have hexact : exactIncr c f < 2 ^ 31 := by
    rw [exactIncr, div_lt_iff₀ hrate]; linarith
  have hfloor : (freqIncr c f : ℚ) ≤ exactIncr c f := by
    have := Int.floor_le (exactIncr c f)
    rwa [← freqIncr_eq_floor c h] at this
  exact_mod_cast hfloor.trans_lt hexact

/-! ### Validity and the new increment (R112) -/

theorem freqValid_iff {c : Config} (f : F32) (hd : 0 < c.fLimitDen) :
    freqValid c f = true ↔ FiniteF32 f ∧ 0 < realOf f ∧ realOf f < fLimit c := by
  have hlimit : f32Val f * (c.fLimitDen : ℤ) < (c.fLimitNum : ℤ) * 2 ^ 150 ↔ realOf f < fLimit c := by
    rw [realOf_eq, fLimit, div_lt_div_iff₀ (by positivity) (Nat.cast_pos.mpr hd)]
    exact_mod_cast Iff.rfl
  simp only [freqValid, f32IsFinite, Bool.and_eq_true, decide_eq_true_eq, hlimit, f32Val_pos_iff, finite_iff, and_assoc]

theorem newInc_of_valid {c : Config} {f : F32} (h : freqValid c f = true) : newInc c f = freqIncr c f := if_pos h

theorem newInc_of_not_valid {c : Config} {f : F32} (h : freqValid c f = false) : newInc c f = 0 := by
  simp [newInc, h]

theorem oscSetFreq_silence {c : Config} {f : F32} (h : newInc c f = 0) (v : OscState) :
    oscSetFreq c f v = { pos := 0#32, inc := 0#32 } := if_pos h

theorem oscSetFreq_sound {c : Config} {f : F32} (h : newInc c f ≠ 0) (v : OscState) :
    oscSetFreq c f v = { pos := v.pos, inc := BitVec.ofNat 32 (newInc c f) } := if_neg h

/-- The patterns that make an oscillator sound: valid ones with an exact increment of at least 1 (R112). -/
theorem newInc_ne_zero_iff {c : Config} (f : F32) (hd : 0 < c.fLimitDen) :
    newInc c f ≠ 0 ↔ FiniteF32 f ∧ 0 < realOf f ∧ realOf f < fLimit c ∧ 1 ≤ exactIncr c f := by
  have hone (hpos : 0 < realOf f) : freqIncr c f ≠ 0 ↔ 1 ≤ exactIncr c f := by
    rw [← Nat.one_le_iff_ne_zero, ← Nat.cast_le (α := ℤ), freqIncr_eq_floor c hpos, Int.le_floor]
    norm_num
  by_cases hv : freqValid c f = true
  · obtain ⟨hfin, hpos, hlim⟩ := (freqValid_iff f hd).mp hv
    rw [newInc_of_valid hv, hone hpos]
    exact ⟨fun h => ⟨hfin, hpos, hlim, h⟩, fun ⟨_, _, _, h⟩ => h⟩
  · rw [newInc_of_not_valid (by simpa using hv)]
    exact ⟨fun h => absurd rfl h, fun ⟨hfin, hpos, hlim, _⟩ => absurd ((freqValid_iff f hd).mpr ⟨hfin, hpos, hlim⟩) hv⟩

end Sys2Proof.Machine
end

section
/-!
SUPPORT. The phase of an oscillator after a number of samples, and a rendered block in closed form (40_oscillator.md
R115, R116, R118).
-/

namespace Sys2Proof.Machine

/-- The phase after `k` samples (R116). -/
def phaseAfter (v : OscState) (k : Nat) : Word := BitVec.ofNat 32 ((v.pos.toNat + k * v.inc.toNat) % 2 ^ 32)

@[simp] theorem phaseAfter_zero (v : OscState) : phaseAfter v 0 = v.pos := by
  rw [phaseAfter, Nat.zero_mul, Nat.add_zero, Nat.mod_eq_of_lt v.pos.isLt, BitVec.ofNat_toNat, BitVec.setWidth_eq]

theorem phaseAfter_oscNext (c : Config) (v : OscState) (k : Nat) :
    phaseAfter (oscNext c v).2 k = phaseAfter v (k + 1) := by
  apply BitVec.eq_of_toNat_eq
  simp only [phaseAfter, oscNext, BitVec.toNat_ofNat, BitVec.toNat_add, Nat.mod_mod, Nat.mod_add_mod]
  rw [Nat.add_assoc, Nat.succ_mul, Nat.add_comm (k * _)]

/-- `n` samples in closed form: sample `k` is `SINE` at the phase after `k` samples (R116). -/
theorem oscRender_eq (c : Config) (n : Nat) (v : OscState) :
    oscRender c n v =
      ((List.range n).map fun k => sine c (phaseAfter v k), { pos := phaseAfter v n, inc := v.inc }) := by
  induction n generalizing v with
  | zero => simp [oscRender]
  | succ n ih =>
    simp only [oscRender, ih, phaseAfter_oscNext, List.range_succ_eq_map, List.map_cons, List.map_map,
      phaseAfter_zero]
    rfl

/-- Rendering in two parts: the second part goes on from where the first one stopped. -/
theorem oscRender_add (c : Config) (m n : Nat) (v : OscState) :
    (oscRender c (m + n) v).1 = (oscRender c m v).1 ++ (oscRender c n (oscRender c m v).2).1 := by
  induction m generalizing v with
  | zero => simp [oscRender]
  | succ m ih => rw [Nat.succ_add]; simp [oscRender, ih]

/-- After `2^32 / gcd(INC, 2^32)` samples a whole number of cycles has passed (R118). -/
theorem phaseAfter_period (v : OscState) : phaseAfter v (2 ^ 32 / Nat.gcd v.inc.toNat (2 ^ 32)) = v.pos := by
  obtain ⟨cycles, hcycles⟩ : 2 ^ 32 ∣ 2 ^ 32 / Nat.gcd v.inc.toNat (2 ^ 32) * v.inc.toNat := by
    rw [Nat.div_mul_right_comm (Nat.gcd_dvd_right _ _), Nat.mul_comm]
    exact Nat.dvd_lcm_right _ _
  rw [phaseAfter, hcycles, Nat.add_mul_mod_self_left, Nat.mod_eq_of_lt v.pos.isLt, BitVec.ofNat_toNat,
    BitVec.setWidth_eq]

theorem oscRender_period (c : Config) (v : OscState) :
    (oscRender c (2 ^ 32 / Nat.gcd v.inc.toNat (2 ^ 32)) v).2 = v := by
  rw [oscRender_eq, phaseAfter_period]

end Sys2Proof.Machine
end

section
/-!
SUPPORT. A command that passes its checks, the oscillator commands among them: the whole next state (30_encoding.md
R86, R87).
-/

namespace Sys2Proof.Machine

theorem lt_nOsc {c : Config} {o p : Nat} (h : c.ownOsc[o]? = some p) : o < nOsc c :=
  (List.getElem?_eq_some_iff.mp h).1

theorem ownsOsc_of_owner {c : Config} {o p : Nat} (h : c.ownOsc[o]? = some p) : ownsOsc c o p = true :=
  decide_eq_true h

/-- A command on a ready port that passes the checks and completes, having changed the units as in `u`. -/
theorem command_completes {s u : State} {i : Instr} {payload rest out data : List Word} {st : Status}
    {run : List Word → State} (h0 : s.fault = 0#8) (hexists : instanceExists s.cfg i = true)
    (howns : portOwns s.cfg s.port i = true) (hhead : AtHead s (encode i) payload rest out)
    (hplen : payload.length = plen s.cfg i) (hrun : run payload = complete i st data u) (hcmdIn : u.cmdIn = s.cmdIn)
    (hrespOut : u.respOut = s.respOut) (hport : u.port = s.port) (hcfg : u.cfg = s.cfg) :
    checked i s (withPayload i s run) =
      .next { u with cmdIn := s.cmdIn.set s.port rest, respOut := s.respOut.set s.port (out ++ st.word :: data) } := by
  rw [checked_pass h0 hexists howns, withPayload_atHead hhead hplen, hrun]
  exact congrArg Host.Outcome.next (complete_eq hhead hplen hcmdIn hrespOut hport hcfg)

/-- The same for a command that completes with a new state of oscillator `o`. -/
theorem osc_command_completes {s : State} {i : Instr} {o : Nat} {payload rest out data : List Word} {w : OscState}
    {run : List Word → State} (h0 : s.fault = 0#8) (hexists : instanceExists s.cfg i = true)
    (howns : portOwns s.cfg s.port i = true) (hhead : AtHead s (encode i) payload rest out)
    (hplen : payload.length = plen s.cfg i) (hrun : run payload = complete i .ok data (setOsc o w s)) :
    checked i s (withPayload i s run) =
      .next { answered s rest (out ++ 0x00#32 :: data) with oscs := s.oscs.set o w } :=
  command_completes h0 hexists howns hhead hplen hrun rfl rfl rfl rfl

end Sys2Proof.Machine
end

section
/-!
SUPPORT. The waveform function (40_oscillator.md R113): every sample is a sign and a magnitude of at most 1.0, and the
reference is the first quarter wave folded and narrowed to the nearest value.
-/

namespace Sys2Proof.Machine

/-- The magnitude pattern of 1.0. -/
def oneMag : Nat := 0x3F800000

theorem magReal_oneMag : magReal oneMag = 1 := by norm_num [magReal, magUnits, oneMag]

/-! ### Every implementation -/

theorem sine_zero (c : Config) : sine c 0#32 = 0#32 := if_pos rfl

/-- Whatever the implementation, a sample is packed from a magnitude of at most 1.0 (R113 (b)). -/
theorem sine_eq_pack (c : Config) (p : Word) : ∃ neg m, m ≤ oneMag ∧ sine c p = f32Pack neg m := by
  unfold sine
  split
  · exact ⟨false, 0, Nat.zero_le _, rfl⟩
  · split
    · exact ⟨_, _, Nat.min_le_right _ _, rfl⟩
    · exact ⟨_, _, Nat.min_le_right _ _, rfl⟩

/-- A magnitude of at most 1.0 is a finite pattern between -1 and 1. -/
theorem finite_and_le_one_of_le_oneMag (neg : Bool) {m : Nat} (hm : m ≤ oneMag) :
    FiniteF32 (f32Pack neg m) ∧ |realOf (f32Pack neg m)| ≤ 1 := by
  have hlt : m < 2 ^ 31 := hm.trans_lt (by decide)
  refine ⟨(finite_pack_iff neg hlt).mpr (hm.trans_lt (by decide)), ?_⟩
  rw [realOf_pack neg hlt, abs_signFactor_mul, abs_of_nonneg (magReal_nonneg m), ← magReal_oneMag]
  exact magReal_strictMono.monotone hm

/-! ### The reference -/

/-- The phase in the first quarter wave that a phase is folded to: the half waves onto each other, and each at its
peak. -/
def foldedPhase (p : Nat) : Nat := if 2 ^ 30 < p % 2 ^ 31 then 2 ^ 31 - p % 2 ^ 31 else p % 2 ^ 31

theorem foldedPhase_le (p : Nat) : foldedPhase p ≤ 2 ^ 30 := by
  unfold foldedPhase; split <;> omega

/-- Both half waves are symmetric about their peaks. -/
theorem foldedPhase_neg {p : Nat} (hp : p ≤ 2 ^ 32) : foldedPhase (2 ^ 32 - p) = foldedPhase p := by
  unfold foldedPhase; split <;> split <;> omega

theorem sineRefMag_eq (p : Nat) :
    sineRefMag p = roundMag .reference false (quarterSine (foldedPhase p)) (2 ^ 160) := rfl

/-- The reference sample as a sign and a magnitude. -/
theorem sine_reference {c : Config} (hc : c.sineImpl = .reference) {p : Word} (hp : p ≠ 0#32) :
    sine c p = f32Pack (decide (2 ^ 31 < p.toNat)) (min (sineRefMag p.toNat) oneMag) := by
  have hlt : sineRefMag p.toNat < 2 ^ 31 := (roundMag_le ..).trans_lt (by decide)
  rw [sine, if_neg hp, hc]
  simp only [clampUnit, sineRef, f32Neg_pack _ hlt, f32Pack_mag _ hlt]
  rfl

theorem realOf_sine_reference {c : Config} (hc : c.sineImpl = .reference) {p : Word} (hp : p ≠ 0#32) :
    realOf (sine c p) = signFactor (decide (2 ^ 31 < p.toNat)) * magReal (min (sineRefMag p.toNat) oneMag) := by
  rw [sine_reference hc hp, realOf_pack _ ((Nat.min_le_right _ _).trans_lt (by decide))]

/-- The sample at half the cycle is zero, so that its sign does not matter. -/
theorem sineRefMag_half : sineRefMag (2 ^ 31) = 0 := roundMag_zero _ _ (by positivity)

/-- The reference sine is odd (R113). -/
theorem realOf_sine_neg {c : Config} (hc : c.sineImpl = .reference) {p : Word} (hp : p ≠ 0#32) :
    realOf (sine c (-p)) = -realOf (sine c p) := by
  have hpos : p.toNat ≠ 0 := fun h => hp (BitVec.eq_of_toNat_eq h)
  have hneg : (-p).toNat = 2 ^ 32 - p.toNat := by
    rw [BitVec.toNat_neg, Nat.mod_eq_of_lt (by omega)]
  rw [realOf_sine_reference hc (by simpa using hp), realOf_sine_reference hc hp, hneg, sineRefMag_eq,
    foldedPhase_neg p.isLt.le, ← sineRefMag_eq]
  rcases lt_trichotomy p.toNat (2 ^ 31) with h | h | h
  · rw [decide_eq_true (by omega), decide_eq_false (by omega)]; simp
  · rw [h, sineRefMag_half]; simp
  · rw [decide_eq_false (by omega), decide_eq_true (by omega)]; simp

/-! ### The nearest value to a rational of at most 1 -/

/-- Up to 1.0, neighbouring binary32 values are at most `2^-24` apart. -/
theorem magReal_gap_le {m : Nat} (hm : m < oneMag) : magReal (m + 1) - magReal m ≤ 1 / 2 ^ 24 := by
  obtain ⟨s, L, rfl, hL, hs⟩ : ∃ s L, m = L + s * 2 ^ 23 ∧ L < 2 ^ 24 ∧ (s = 0 ∨ 2 ^ 23 ≤ L) :=
    ⟨m / 2 ^ 23 - 1, m - (m / 2 ^ 23 - 1) * 2 ^ 23, by omega, by omega, by omega⟩
  have hshift : s + 1 ≤ 126 := by rw [oneMag] at hm; omega
  have hgap : magReal (L + s * 2 ^ 23 + 1) - magReal (L + s * 2 ^ 23) = 2 ^ (s + 1) / 2 ^ 150 := by
    rw [magReal, magReal, Nat.add_right_comm, magUnits_significand hL (by omega), magUnits_significand hL.le hs]
    simp only [Nat.cast_mul, Nat.cast_pow, Nat.cast_ofNat, Nat.cast_succ]
    ring
  calc magReal (L + s * 2 ^ 23 + 1) - magReal (L + s * 2 ^ 23) = 2 ^ (s + 1) / 2 ^ 150 := hgap
    _ ≤ 2 ^ 126 / 2 ^ 150 := by gcongr; norm_num
    _ = 1 / 2 ^ 24 := by norm_num

/-- Below 1 the nearest value is at most half a gap away. -/
theorem RoundsToNearest.dist_le {x : ℚ} {n : Nat} (h : RoundsToNearest x n) (hr : Rounds x n) (h0 : 0 ≤ x)
    (h1 : x < 1) : |magReal n - x| ≤ 1 / 2 ^ 25 := by
  have hn : n ≤ oneMag := (hr oneMag).1 (magReal_oneMag ▸ h1.le)
  rcases le_or_gt (magReal n) x with hle | hgt
  · have hlt : n < oneMag := magReal_strictMono.lt_iff_lt.mp (magReal_oneMag ▸ hle.trans_lt h1)
    have hnext : x < magReal (n + 1) := not_le.mp fun hx => absurd ((hr (n + 1)).2 hx) (by omega)
    have hgap := magReal_gap_le hlt
    have hnear := (h (n + 1)).1
    rw [abs_of_nonneg (sub_nonneg.mpr hnext.le)] at hnear
    rw [abs_of_nonpos (by linarith)] at hnear ⊢
    linarith
  · obtain ⟨m, rfl⟩ : ∃ m, n = m + 1 :=
      Nat.exists_eq_succ_of_ne_zero fun hzero => by rw [hzero, magReal_zero] at hgt; linarith
    have hprev : magReal m < x := not_le.mp fun hx => absurd ((hr m).1 hx) (by omega)
    have hgap := magReal_gap_le hn
    have hnear := (h m).1
    rw [abs_of_nonpos (a := magReal m - x) (by linarith)] at hnear
    rw [abs_of_nonneg (by linarith)] at hnear ⊢
    linarith

/-- Capping at 1 keeps the rounded value near the rational, capped likewise. -/
theorem RoundsToNearest.capped_dist_le {x : ℚ} {n : Nat} (h : RoundsToNearest x n) (hr : Rounds x n) (h0 : 0 ≤ x) :
    |magReal (min n oneMag) - min x 1| ≤ 1 / 2 ^ 25 := by
  rcases lt_or_ge x 1 with h1 | h1
  · have hn : n ≤ oneMag := (hr oneMag).1 (magReal_oneMag ▸ h1.le)
    rw [min_eq_left hn, min_eq_left h1.le]
    exact h.dist_le hr h0 h1
  · have hn : oneMag ≤ n := (hr oneMag).2 (magReal_oneMag ▸ h1)
    rw [min_eq_right hn, min_eq_right h1, magReal_oneMag, sub_self, abs_zero]
    positivity

/-- The reference's narrowing, capped at 1. -/
theorem roundMag_reference_near (up : Bool) (num : Nat) {den : Nat} (hd : 0 < den) :
    |magReal (min (roundMag .reference up num den) oneMag) - min ((num : ℚ) / den) 1| ≤ 1 / 2 ^ 25 := by
  obtain ⟨n, hn, hround, hnear⟩ := roundMag_spec .reference up (num := num) hd
  rw [hn, min_assoc, min_eq_right (by decide : oneMag ≤ infMag)]
  exact (hnear rfl).capped_dist_le hround (by positivity)

/-! ### Beside the real sine -/

/-- The real sine at a phase. -/
noncomputable def phaseSin (p : Nat) : ℝ := Real.sin (2 * Real.pi * p / 2 ^ 32)

theorem phaseSin_zero : phaseSin 0 = 0 := by simp [phaseSin]

theorem phaseSin_add_half (p : Nat) : phaseSin (p + 2 ^ 31) = -phaseSin p := by
  rw [phaseSin, phaseSin, ← Real.sin_add_pi]
  congr 1; push_cast; ring

theorem phaseSin_half_sub {p : Nat} (hp : p ≤ 2 ^ 31) : phaseSin (2 ^ 31 - p) = phaseSin p := by
  rw [phaseSin, phaseSin, ← Real.sin_pi_sub, Nat.cast_sub hp]
  congr 1; push_cast; ring

theorem phaseSin_foldedPhase (p : Nat) : phaseSin (foldedPhase p) = phaseSin (p % 2 ^ 31) := by
  unfold foldedPhase
  split
  · exact phaseSin_half_sub (Nat.mod_lt _ (by positivity)).le
  · rfl

/-- The real sine by its sign and the folded phase. -/
theorem phaseSin_eq_sign_folded {p : Nat} (hp : p < 2 ^ 32) :
    phaseSin p = (signFactor (decide (2 ^ 31 < p)) : ℝ) * phaseSin (foldedPhase p) := by
  rw [phaseSin_foldedPhase]
  rcases lt_trichotomy p (2 ^ 31) with h | h | h
  · rw [decide_eq_false (by omega), Nat.mod_eq_of_lt h]; simp
  · have hhalf := phaseSin_add_half 0
    rw [zero_add, phaseSin_zero, neg_zero] at hhalf
    rw [h, Nat.mod_self, hhalf, phaseSin_zero, mul_zero]
  · obtain ⟨q, rfl⟩ := Nat.exists_eq_add_of_le' h.le
    rw [decide_eq_true h, Nat.add_mod_right, Nat.mod_eq_of_lt (by omega), phaseSin_add_half]; simp

/-- The magnitude of a reference sample is near the real sine of the folded phase: half a gap for narrowing and the
error of the series. -/
theorem sineRefMag_near (p : Nat) :
    |((magReal (min (sineRefMag p) oneMag) : ℚ) : ℝ) - phaseSin (foldedPhase p)| ≤ 1 / 2 ^ 25 + 1 / 2 ^ 30 := by
  have hmag := roundMag_reference_near false (quarterSine (foldedPhase p)) (den := 2 ^ 160) (by positivity)
  have hseries := quarterSine_err (foldedPhase_le p)
  rw [← phaseSin] at hseries
  have hmin : |min ((quarterSine (foldedPhase p) : ℝ) / 2 ^ 160) 1 - phaseSin (foldedPhase p)| ≤ 1 / 2 ^ 30 := by
    have hle : phaseSin (foldedPhase p) ≤ 1 := Real.sin_le_one _
    rw [← min_eq_left hle]
    refine (abs_min_sub_min_le_max _ _ _ _).trans (max_le hseries ?_)
    rw [sub_self, abs_zero]; positivity
  rw [← sineRefMag_eq, ← Rat.cast_le (K := ℝ)] at hmag
  simp only [Rat.cast_abs, Rat.cast_sub, Rat.cast_min, Rat.cast_div, Rat.cast_natCast, Rat.cast_one, Rat.cast_pow,
    Rat.cast_ofNat, Nat.cast_pow, Nat.cast_ofNat] at hmag
  exact (abs_sub_le _ _ _).trans (add_le_add hmag hmin)

theorem sine_reference_near {c : Config} (hc : c.sineImpl = .reference) (p : Word) :
    |((realOf (sine c p) : ℚ) : ℝ) - phaseSin p.toNat| ≤ 1 / 2 ^ 24 := by
  by_cases hp : p = 0#32
  · subst hp
    have hzero : realOf 0#32 = 0 := by rw [realOf_eq_zero_iff]; rfl
    rw [sine_zero, hzero, BitVec.toNat_ofNat, Nat.zero_mod, phaseSin_zero]
    norm_num
  · have hsign : |(signFactor (decide (2 ^ 31 < p.toNat)) : ℝ)| = 1 := by
      cases decide (2 ^ 31 < p.toNat) <;> simp
    rw [realOf_sine_reference hc hp, phaseSin_eq_sign_folded p.isLt, Rat.cast_mul, ← mul_sub, abs_mul, hsign, one_mul]
    exact (sineRefMag_near p.toNat).trans (by norm_num)

end Sys2Proof.Machine
end

section
/-!
OBLIGATIONS. The oscillator (40_oscillator.md): the increment and the waveform function, then the commands.
-/

namespace Sys2Proof.Machine

/-! ### The increment and the waveform -/

/-- Settles O23: the quotient of the model is the exact quotient rounded down. -/
theorem incrementIsTheExactFloor : Obligations.IncrementIsTheExactFloor :=
  fun c _ hc _ hpos => ⟨freqIncr_eq_floor c hpos, freqIncr_lt_of_lt_half hc hpos⟩

/-- Settles O24: the integer comparisons are those of the exact values. -/
theorem frequencyValidity : Obligations.FrequencyValidity := by
  intro c f v hd
  refine ⟨?_, newInc_of_valid, newInc_of_not_valid, fun h => oscSetFreq_silence h v⟩
  rw [freqValid_iff f hd]
  exact ⟨fun h => ⟨fun hnan => h.1 hnan.1, h⟩, And.right⟩

/-- Settles O25: every sample is packed from a magnitude of at most 1.0. -/
theorem sineMeetsItsRequiredProperties : Obligations.SineMeetsItsRequiredProperties := by
  intro c
  refine ⟨sine_zero c, fun p => ?_⟩
  obtain ⟨neg, m, hm, hsine⟩ := sine_eq_pack c p
  obtain ⟨hfinite, hle⟩ := finite_and_le_one_of_le_oneMag neg hm
  rw [hsine]
  exact ⟨hfinite, abs_le.mp hle⟩

/-- Settles O26: the four patterns are the series evaluated; oddness is the symmetry of the folded phase. -/
theorem referenceSineFacts : Obligations.ReferenceSineFacts := by
  intro c hc
  refine ⟨sine_zero c, ?_, ?_, ?_, ?_, fun p hp => realOf_sine_neg hc hp⟩
  all_goals
    rw [sine_reference hc (by decide)]
    decide +kernel

/-- Settles O60: the series is near the real sine in the first quarter wave, narrowing moves it by half a gap, and
folding keeps the sine. -/
theorem referenceSineIsNearTheRealSine : Obligations.ReferenceSineIsNearTheRealSine :=
  fun _ p hc => sine_reference_near hc p

/-- Settles O27: after the period the oscillator is where it was, so the second half repeats the first. -/
theorem oscillatorOutputRepeats : Obligations.OscillatorOutputRepeats := by
  rintro c v n - rfl
  have hback := oscRender_period c v
  refine ⟨hback, ?_⟩
  rw [two_mul, oscRender_add, hback]

/-! ### The commands -/

/-- Settles O19: the new increment is non-zero exactly for the frequencies of the first clause. -/
theorem oscSetfResult : Obligations.OscSetfResult := by
  intro s o v f rest out h0 hc hown hv hhead
  have hd := (fLimit_le_of_configOk hc).1
  have hexec : exec (.oscSetf o) s = .next { answered s rest (out ++ [0x00#32]) with
      oscs := s.oscs.set o (oscSetFreq s.cfg f v) } :=
    osc_command_completes h0 (decide_eq_true (lt_nOsc hown)) (ownsOsc_of_owner hown) hhead rfl
      (by rw [osc_eq hv]; rfl)
  rw [hexec]
  refine ⟨fun h => ⟨newInc s.cfg f, ?_, newInc_lt hc f, ?_⟩, fun h => ?_⟩
  · obtain ⟨hfinite, hpos, hlim, -⟩ := h
    rw [newInc_of_valid ((freqValid_iff f hd).mpr ⟨hfinite, hpos, hlim⟩)]
    exact freqIncr_eq_floor s.cfg hpos
  · rw [oscSetFreq_sound ((newInc_ne_zero_iff f hd).mpr h)]
  · rw [oscSetFreq_silence (not_not.mp fun hne => h ((newInc_ne_zero_iff f hd).mp hne))]

/-- Settles O21: the closed form of a rendered block. -/
theorem oscRenderResult : Obligations.OscRenderResult := by
  intro s o v rest out h0 hown hv hhead
  exact osc_command_completes h0 (decide_eq_true (lt_nOsc hown)) (ownsOsc_of_owner hown) hhead rfl
    (by simp only [osc_eq hv, oscRender_eq]; rfl)

/-- Settles O20: the phase sent is the one before the advance. -/
theorem oscNextResult : Obligations.OscNextResult := by
  intro s o v rest out h0 hown hv hhead
  have hadvance : v.pos + v.inc = BitVec.ofNat 32 ((v.pos.toNat + v.inc.toNat) % 2 ^ 32) := by
    apply BitVec.eq_of_toNat_eq; simp
  exact osc_command_completes h0 (decide_eq_true (lt_nOsc hown)) (ownsOsc_of_owner hown) hhead rfl
    (by rw [osc_eq hv, ← hadvance]; rfl)

/-- Settles O22: the command completes with the units as they are. -/
theorem oscRdstResult : Obligations.OscRdstResult := by
  intro s o v rest out h0 hown hv hhead
  exact command_completes (u := s) (st := .ok) h0 (decide_eq_true (lt_nOsc hown)) (ownsOsc_of_owner hown) hhead rfl
    (by rw [osc_eq hv]) rfl rfl rfl rfl

end Sys2Proof.Machine
end

section
/-!
SUPPORT. The envelope: its step in every stage, the run of a full attack and of a full release, samples processed in
order, and an envelope command that passes its checks (41_envelope.md R141 to R148).
-/

namespace Sys2Proof.Machine

/-! ### The step and the note events (R142 to R144) -/

theorem envStep_attacking {r p : Nat} (hr : r < 2 ^ 32) (hp : p ≤ r) :
    envStep r { stage := .attacking, epos := BitVec.ofNat 32 p } =
      { stage := if min (p + 1) r = r then .sustaining else .attacking, epos := BitVec.ofNat 32 (min (p + 1) r) } := by
  simp only [envStep, BitVec.toNat_ofNat, Nat.mod_eq_of_lt (hp.trans_lt hr)]

theorem envStep_releasing {p : Nat} (r : Nat) (hp : p < 2 ^ 32) :
    envStep r { stage := .releasing, epos := BitVec.ofNat 32 p } =
      { stage := if p - 1 = 0 then .idle else .releasing, epos := BitVec.ofNat 32 (p - 1) } := by
  simp only [envStep, BitVec.toNat_ofNat, Nat.mod_eq_of_lt hp]

theorem envNoteOn_of_idle {v : EnvState} (h : v.stage = .idle) :
    envNoteOn v = { stage := .attacking, epos := 0#32 } := by
  rw [envNoteOn, if_pos h]

theorem envNoteOn_of_not_idle {v : EnvState} (h : v.stage ≠ .idle) :
    envNoteOn v = { stage := .attacking, epos := v.epos } := by
  rw [envNoteOn, if_neg h]

/-! ### A full attack and a full release (R148 (a)) -/

/-- The envelope `k` samples into an attack from position 0 that takes `r` samples. -/
def attackAt (r k : Nat) : EnvState :=
  { stage := if k = r then .sustaining else .attacking, epos := BitVec.ofNat 32 k }

/-- The envelope `k` samples into a release from position `r`. -/
def releaseAt (r k : Nat) : EnvState :=
  { stage := if k = r then .idle else .releasing, epos := BitVec.ofNat 32 (r - k) }

theorem envStep_attackAt {r k : Nat} (hr : r < 2 ^ 32) (hk : k < r) :
    envStep r (attackAt r k) = attackAt r (k + 1) := by
  rw [attackAt, if_neg hk.ne, envStep_attacking hr hk.le, Nat.min_eq_left hk]
  rfl

theorem envStep_releaseAt {r k : Nat} (hr : r < 2 ^ 32) (hk : k < r) :
    envStep r (releaseAt r k) = releaseAt r (k + 1) := by
  have hend : r - (k + 1) = 0 ↔ k + 1 = r := by omega
  rw [releaseAt, if_neg hk.ne, envStep_releasing r (by omega), releaseAt, Nat.sub_sub]
  simp only [hend]

theorem iterate_envStep_noteOn {r k : Nat} {v : EnvState} (hr1 : 1 ≤ r) (hr : r < 2 ^ 32) (hk : k ≤ r)
    (hv : v.stage = .idle) : (envStep r)^[k] (envNoteOn v) = attackAt r k := by
  induction k with
  | zero => rw [Function.iterate_zero_apply, envNoteOn_of_idle hv, attackAt, if_neg (by omega)]
  | succ k ih => rw [Function.iterate_succ_apply', ih (by omega), envStep_attackAt hr hk]

theorem iterate_envStep_noteOff {r k : Nat} (hr1 : 1 ≤ r) (hr : r < 2 ^ 32) (hk : k ≤ r) :
    (envStep r)^[k] (envNoteOff (attackAt r r)) = releaseAt r k := by
  induction k with
  | zero => rw [Function.iterate_zero_apply, releaseAt, if_neg (by omega)]; rfl
  | succ k ih => rw [Function.iterate_succ_apply', ih (by omega), envStep_releaseAt hr hk]

theorem attackAt_epos {r k : Nat} (hr : r < 2 ^ 32) (hk : k ≤ r) : (attackAt r k).epos.toNat = k :=
  (BitVec.toNat_ofNat ..).trans (Nat.mod_eq_of_lt (hk.trans_lt hr))

theorem releaseAt_epos {r : Nat} (k : Nat) (hr : r < 2 ^ 32) : (releaseAt r k).epos.toNat = r - k :=
  (BitVec.toNat_ofNat ..).trans (Nat.mod_eq_of_lt ((Nat.sub_le r k).trans_lt hr))

theorem attackAt_sustaining_iff {r k : Nat} : (attackAt r k).stage = .sustaining ↔ k = r := by
  simp [attackAt]

theorem releaseAt_idle_iff {r k : Nat} : (releaseAt r k).stage = .idle ↔ k = r := by
  simp [releaseAt]

theorem attackAt_attacking {r k : Nat} (hk : k < r) : (attackAt r k).stage = .attacking := if_neg hk.ne

theorem releaseAt_releasing {r k : Nat} (hk : k < r) : (releaseAt r k).stage = .releasing := if_neg hk.ne

/-! ### Samples (R145, R146) -/

theorem envProc_eq {c : Config} {k k' : Nat} {x y : F32} {v : EnvState}
    (hy : fmul c k x (fdivU c (envStep (rampLen c) v).epos.toNat (rampLen c)) = (y, k')) :
    envProc c k x v = ((y, k'), envStep (rampLen c) v) :=
  congrArg (·, envStep (rampLen c) v) hy

/-- The samples of a block are a run: each one goes on from the draw count and the envelope the one before left. -/
theorem envRun_envProcs (c : Config) (k : Nat) (xs : List F32) (v : EnvState) :
    EnvRun c k v xs (envProcs c k xs v).1.1 (envProcs c k xs v).1.2 (envProcs c k xs v).2 := by
  induction xs generalizing k v with
  | nil => exact .nil k v
  | cons x xs ih => exact .cons k _ _ v _ x _ xs _ rfl (ih _ _)

/-! ### The stage code (R25, R147) -/

theorem stageCode_of_mem {st : Stage} {code : Word}
    (h : (st, code) ∈ [(Stage.idle, 0#32), (.attacking, 1#32), (.sustaining, 2#32), (.releasing, 3#32)]) :
    stageCode st = code := by
  simp only [List.mem_cons, Prod.mk.injEq, List.not_mem_nil, or_false] at h
  obtain ⟨rfl, rfl⟩ | ⟨rfl, rfl⟩ | ⟨rfl, rfl⟩ | ⟨rfl, rfl⟩ := h <;> rfl

/-! ### A command that passes its checks -/

theorem lt_nEnv {c : Config} {e p : Nat} (h : c.ownEnv[e]? = some p) : e < nEnv c :=
  (List.getElem?_eq_some_iff.mp h).1

theorem ownsEnv_of_owner {c : Config} {e p : Nat} (h : c.ownEnv[e]? = some p) : ownsEnv c e p = true :=
  decide_eq_true h

/-- A command on a ready port that completes with a new state of envelope `e`, and NaNs drawn up to `k`. -/
theorem env_command_completes {s : State} {i : Instr} {e k : Nat} {payload rest out data : List Word} {w : EnvState}
    {run : List Word → State} (h0 : s.fault = 0#8) (hexists : instanceExists s.cfg i = true)
    (howns : portOwns s.cfg s.port i = true) (hhead : AtHead s (encode i) payload rest out)
    (hplen : payload.length = plen s.cfg i)
    (hrun : run payload = complete i .ok data (setDraws k (setEnv e w s))) :
    checked i s (withPayload i s run) =
      .next { answered s rest (out ++ 0x00#32 :: data) with envs := s.envs.set e w, nanDraws := k } :=
  command_completes h0 hexists howns hhead hplen hrun rfl rfl rfl rfl

end Sys2Proof.Machine
end

section
/-!
OBLIGATIONS. The envelope (41_envelope.md): its step, the full ramps, then the commands.
-/

namespace Sys2Proof.Machine

/-! ### The step and the ramps -/

/-- Settles O29: the two stages that move are those of the step's equations, the other two stay. -/
theorem envelopeStepTable : Obligations.EnvelopeStepTable := by
  intro r p hr1 hr hp
  refine ⟨rfl, rfl, ?_, ?_⟩
  · rw [envStep_attacking hr hp]
    by_cases hend : min (p + 1) r = r
    · rw [if_pos hend, if_pos hend, hend]
    · rw [if_neg hend, if_neg hend, Nat.min_eq_left (by omega)]
  · rw [envStep_releasing r (hp.trans_lt hr)]
    by_cases hend : p ≤ 1
    · rw [if_pos hend, Nat.sub_eq_zero_of_le hend, if_pos rfl]
    · rw [if_neg hend, if_neg (by omega)]

/-- Settles O33: the envelope is followed sample by sample up the ramp, and from its end down again. -/
theorem fullAttackAndRelease : Obligations.FullAttackAndRelease := by
  rintro r k v a b hr1 hr hk - hv rfl rfl
  rw [iterate_envStep_noteOn hr1 hr le_rfl hv, iterate_envStep_noteOn hr1 hr hk hv, iterate_envStep_noteOff hr1 hr hk]
  exact ⟨attackAt_epos hr hk, attackAt_sustaining_iff, attackAt_attacking,
    releaseAt_epos k hr, releaseAt_idle_iff, releaseAt_releasing⟩

/-! ### The commands -/

/-- Settles O28: both events are commands without payload that draw no NaN. -/
theorem envNoteEventResults : Obligations.EnvNoteEventResults := by
  intro s e v rest out h0 hown hv
  have hexists : decide (e < nEnv s.cfg) = true := decide_eq_true (lt_nEnv hown)
  have howns := ownsEnv_of_owner hown
  refine ⟨fun hhead hidle => ?_, fun hhead hidle => ?_, fun hhead => ?_⟩
  · exact env_command_completes (k := s.nanDraws) h0 hexists howns hhead rfl
      (by rw [env_eq hv, envNoteOn_of_idle hidle]; rfl)
  · exact env_command_completes (k := s.nanDraws) h0 hexists howns hhead rfl
      (by rw [env_eq hv, envNoteOn_of_not_idle hidle]; rfl)
  · exact env_command_completes (k := s.nanDraws) h0 hexists howns hhead rfl (by rw [env_eq hv]; rfl)

/-- Settles O30: the product is taken with the gain of the envelope after its step. -/
theorem envProcResult : Obligations.EnvProcResult := by
  rintro s e v w x y k rest out h0 hown hv hhead rfl hy
  exact env_command_completes h0 (decide_eq_true (lt_nEnv hown)) (ownsEnv_of_owner hown) hhead rfl
    (by rw [env_eq hv]; simp only [payloadAt, List.getD_cons_zero, envProc_eq hy.symm])

/-- Settles O31: the outputs and the last envelope are those of the run over the payload. -/
theorem envProcbResult : Obligations.EnvProcbResult := by
  intro s e v xs rest out h0 hown hv hlen hhead
  exact ⟨_, _, _, envRun_envProcs s.cfg s.nanDraws xs v, (envProcs_length ..).trans hlen,
    env_command_completes h0 (decide_eq_true (lt_nEnv hown)) (ownsEnv_of_owner hown) hhead hlen (by rw [env_eq hv])⟩

/-- Settles O32: the command completes with the units as they are. -/
theorem envRdstResult : Obligations.EnvRdstResult := by
  intro s e v code rest out h0 hown hv hhead hcode
  exact command_completes (u := s) (st := .ok) h0 (decide_eq_true (lt_nEnv hown)) (ownsEnv_of_owner hown) hhead rfl
    (by rw [env_eq hv, stageCode_of_mem hcode]; rfl) rfl rfl rfl rfl

end Sys2Proof.Machine
end

section
/-!
SUPPORT. The mixer: the mix as a fold over the sources, and what a source that adds silence leaves of the running sum
(42_mixer.md R172, R173, R177); the index check of the two commands that name one gain (60_exceptions.md R234).
-/

namespace Sys2Proof.Machine

/-! ### The running sum (R172, R173) -/

/-- One source mixed in: the running sum and the count of NaN draws after the sample times the gain is added. -/
def mixStep (c : Config) (acc : F32 × Nat) (xg : F32 × F32) : F32 × Nat :=
  fadd c (fmul c acc.2 xg.1 xg.2).2 acc.1 (fmul c acc.2 xg.1 xg.2).1

theorem mixFrom_eq_foldl (c : Config) (k : Nat) (acc : F32) (pairs : List (F32 × F32)) :
    mixFrom c k acc pairs = pairs.foldl (mixStep c) (acc, k) := by
  induction pairs generalizing k acc with
  | nil => rfl
  | cons xg pairs ih => exact ih _ _

theorem mixSum_eq_foldl (c : Config) (k : Nat) (gains xs : List F32) :
    mixSum c k gains xs = (xs.zip gains).foldl (mixStep c) (0x00000000#32, k) :=
  mixFrom_eq_foldl c k _ _

/-! ### Silence (R177) -/

theorem IsZeroF32.finite {x : F32} (h : IsZeroF32 x) : FiniteF32 x := ((isZero_iff x).mp h).1

theorem IsZeroF32.realOf_eq_zero {x : F32} (h : IsZeroF32 x) : realOf x = 0 :=
  (realOf_eq_zero_iff x).mpr ((isZero_iff x).mp h).2

theorem isZero_pack_zero (neg : Bool) : IsZeroF32 (f32Pack neg 0) := by
  cases neg
  · exact .inl rfl
  · exact .inr rfl

/-- A sample and a gain whose product is a zero of either sign. -/
structure Muted (xg : F32 × F32) : Prop where
  sample : FiniteF32 xg.1
  gain : FiniteF32 xg.2
  product : realOf xg.1 * realOf xg.2 = 0

theorem muted_of_zero_sample {x g : F32} (hx : IsZeroF32 x) (hg : FiniteF32 g) : Muted (x, g) :=
  ⟨hx.finite, hg, by rw [hx.realOf_eq_zero, zero_mul]⟩

theorem muted_of_zero_gain {x g : F32} (hx : FiniteF32 x) (hg : IsZeroF32 g) : Muted (x, g) :=
  ⟨hx, hg.finite, by rw [hg.realOf_eq_zero, mul_zero]⟩

/-- A sum that starts at `+0.0` stays there when a zero is added, a negative one too. -/
theorem fadd_posZero_zero (c : Config) (k : Nat) {p : F32} (hp : IsZeroF32 p) :
    fadd c k 0x00000000#32 p = (0x00000000#32, k) := by
  have h0 : IsZeroF32 0x00000000#32 := .inl rfl
  rw [fadd_zero c k h0.finite hp.finite (by rw [h0.realOf_eq_zero, hp.realOf_eq_zero, add_zero])]
  rfl

theorem mixStep_muted (c : Config) (k : Nat) {xg : F32 × F32} (h : Muted xg) :
    mixStep c (0x00000000#32, k) xg = (0x00000000#32, k) := by
  rw [mixStep, fmul_zero c k h.sample h.gain h.product]
  exact fadd_posZero_zero c k (isZero_pack_zero _)

theorem foldl_mixStep_muted (c : Config) (k : Nat) {pairs : List (F32 × F32)} (h : ∀ xg ∈ pairs, Muted xg) :
    pairs.foldl (mixStep c) (0x00000000#32, k) = (0x00000000#32, k) := by
  induction pairs with
  | nil => rfl
  | cons xg pairs ih =>
    obtain ⟨hhead, htail⟩ := List.forall_mem_cons.mp h
    rw [List.foldl_cons, mixStep_muted c k hhead, ih htail]

/-- Sources that are all muted mix to `+0.0`, and no NaN is drawn. -/
theorem mixSum_muted (c : Config) (k : Nat) {gains xs : List F32} (h : ∀ x ∈ xs, ∀ g ∈ gains, Muted (x, g)) :
    mixSum c k gains xs = (0x00000000#32, k) := by
  rw [mixSum_eq_foldl]
  refine foldl_mixStep_muted c k fun xg hmem => ?_
  obtain ⟨hx, hg⟩ := List.of_mem_zip hmem
  exact h _ hx _ hg

/-! ### One gain (R171, R176) -/

theorem gain_eq {s : State} {m i : Nat} {gs : List F32} {g : F32} (hgs : s.gains[m]? = some gs)
    (hg : gs[i]? = some g) : gain s m i = g := by
  rw [gain, gainsOf_eq hgs, List.getD_eq_getElem?_getD, hg]; rfl

theorem setGain_eq {s : State} {m : Nat} {gs : List F32} (hgs : s.gains[m]? = some gs) (i : Nat) (g : F32) :
    setGain m i g s = { s with gains := s.gains.set m (gs.set i g) } := by
  rw [setGain, gainsOf_eq hgs]

/-- An index of a source that the mixer has passes the check (R234). -/
theorem mixIndexChecked_pass {i : Instr} {m idx : Nat} {mc : MixerCfg} {s : State} {run : Result}
    (hm : s.cfg.mixers[m]? = some mc) (h : idx < mc.gainInit.length) : mixIndexChecked i m idx s run = run := by
  rw [mixIndexChecked, nSrc_eq hm, if_neg h.not_ge]

end Sys2Proof.Machine
end

section
/-!
OBLIGATIONS. The mixer (42_mixer.md): the mix of one sample from every source, then the gain commands.
-/

namespace Sys2Proof.Machine

/-! ### The mix -/

/-- Settles O39: in both cases every source is muted. -/
theorem silenceMixesToSilence : Obligations.SilenceMixesToSilence := by
  intro c k gs xs
  constructor
  · rintro ⟨hxs, hgs⟩
    exact mixSum_muted c k fun x hx g hg => muted_of_zero_sample (hxs x hx) (hgs g hg)
  · rintro ⟨hxs, hgs⟩
    exact mixSum_muted c k fun x hx g hg => muted_of_zero_gain (hxs x hx) (hgs g hg)

/-- Settles O36: the running sum of the model is the fold over the sources. -/
theorem mixMix1Result : Obligations.MixMix1Result := by
  intro s m mc gs xs y k rest out h0 hm ho hgs hlen hhead hy
  have hsum : mixSum s.cfg s.nanDraws gs xs = (y, k) := (mixSum_eq_foldl ..).trans hy.symm
  exact command_completes (u := setDraws k s) (st := .ok) h0 (decide_eq_true (lt_nMix hm)) (ownsMix_of_owner hm ho)
    hhead (hlen.trans (nSrc_eq hm).symm) (by rw [gainsOf_eq hgs, hsum]) rfl rfl rfl rfl

/-! ### The gains -/

/-- Settles O35: the index passes the check, and the command completes with the one gain replaced. -/
theorem mixSetlvlResult : Obligations.MixSetlvlResult := by
  intro s m i mc gs g rest out h0 hm ho hi hgs hhead
  rw [exec, execMixSetlvl, mixIndexChecked_pass hm hi]
  exact command_completes (u := { s with gains := s.gains.set m (gs.set i g) }) (st := .ok) h0
    (decide_eq_true (lt_nMix hm)) (ownsMix_of_owner hm ho) hhead rfl (by rw [setGain_eq hgs]; rfl) rfl rfl rfl rfl

/-- Settles O38: the index passes the check, and the command completes with the units as they are. -/
theorem mixRdlvlResult : Obligations.MixRdlvlResult := by
  intro s m i mc gs g rest out h0 hm ho hi hgs hg hhead
  rw [exec, execMixRdlvl, mixIndexChecked_pass hm hi]
  exact command_completes (u := s) (st := .ok) h0 (decide_eq_true (lt_nMix hm)) (ownsMix_of_owner hm ho) hhead rfl
    (by rw [gain_eq hgs hg]) rfl rfl rfl rfl

end Sys2Proof.Machine
end

section
/-!
SUPPORT. The Handoff Channel: the way each command takes when it does not fault and is not held, a command that
completes with a new state of one channel, and the bits of the channel status word (43_handoff.md R192 to R198).
-/

namespace Sys2Proof.Machine

/-! ### The checks (R233, R236) -/

theorem lt_nCh {c : Config} {n : Nat} {cc : ChannelCfg} (h : c.channels[n]? = some cc) : n < nCh c :=
  (List.getElem?_eq_some_iff.mp h).1

theorem isProducer_of_prod {c : Config} {n p : Nat} {cc : ChannelCfg} (h : c.channels[n]? = some cc)
    (hp : cc.prod = p) : isProducer c n p = true := by
  simp [isProducer, h, hp]

theorem isConsumer_of_cons {c : Config} {n p : Nat} {cc : ChannelCfg} (h : c.channels[n]? = some cc)
    (hp : cc.cons = p) : isConsumer c n p = true := by
  simp [isConsumer, h, hp]

/-! ### The mode (R190) -/

section
variable {s : State} {c : Nat} {cc : ChannelCfg} (hcc : s.cfg.channels[c]? = some cc)
include hcc

theorem execHchPush_cell (hm : cc.mode = .cell) : execHchPush c s = checked (.hchPush c) s (pushCell c s) := by
  rw [execHchPush, chMode_eq hcc, hm]

theorem execHchPush_rdv (hm : cc.mode = .rdv) : execHchPush c s = checked (.hchPush c) s (pushRdv c s) := by
  rw [execHchPush, chMode_eq hcc, hm]

theorem execHchPop_cell (hm : cc.mode = .cell) : execHchPop c s = checked (.hchPop c) s (popCell c s) := by
  rw [execHchPop, chMode_eq hcc, hm]

theorem execHchPop_rdv (hm : cc.mode = .rdv) : execHchPop c s = checked (.hchPop c) s (popRdv c s) := by
  rw [execHchPop, chMode_eq hcc, hm]

theorem rdvOnly_rdv (i : Instr) (run : Result) (hm : cc.mode = .rdv) : rdvOnly i c s run = run := by
  rw [rdvOnly, chMode_eq hcc, hm]

end

/-! ### Push and pop that neither fault nor hold (R192 to R195) -/

section
variable {s : State} {c : Nat} {ch : ChanState} (hch : s.chans[c]? = some ch)
include hch

theorem storeBlock_eq (b : Block) :
    storeBlock c b s = complete (.hchPush c) .ok [] (setChan c { ch with slot := some b } s) := by
  rw [storeBlock, chan_eq hch]

theorem deliverBlock_eq (b : Block) :
    deliverBlock c b s = complete (.hchPop c) .ok b (setChan c { ch with slot := none } s) := by
  rw [deliverBlock, chan_eq hch]

theorem pushCell_empty (hslot : ch.slot = none) :
    pushCell c s = withPayload (.hchPush c) s fun b => storeBlock c b s := by
  simp [pushCell, chan_eq hch, hslot]

theorem pushRdv_empty (hp : ch.popen = true) (hc : ch.copen = true) (hslot : ch.slot = none) :
    pushRdv c s = withPayload (.hchPush c) s fun b => storeBlock c b s := by
  simp [pushRdv, pushHolds, chan_eq hch, hp, hc, hslot]

/-- With the consumer gone a push does not look at the slot. -/
theorem pushRdv_gone (hp : ch.popen = true) (hc : ch.copen = false) :
    pushRdv c s = withPayload (.hchPush c) s fun _ => complete (.hchPush c) .disconnected [] s := by
  simp [pushRdv, pushHolds, chan_eq hch, hp, hc]

theorem popCell_full {b : Block} (hslot : ch.slot = some b) :
    popCell c s = withPayload (.hchPop c) s fun _ => deliverBlock c b s := by
  rw [popCell, chan_eq hch, hslot]

/-- With a block in the slot a pop does not ask whether the producer has gone. -/
theorem popRdv_full {b : Block} (hc : ch.copen = true) (hslot : ch.slot = some b) :
    popRdv c s = withPayload (.hchPop c) s fun _ => deliverBlock c b s := by
  simp [popRdv, popHolds, chan_eq hch, hc, hslot]

theorem popRdv_gone (hc : ch.copen = true) (hp : ch.popen = false) (hslot : ch.slot = none) :
    popRdv c s = withPayload (.hchPop c) s fun _ => complete (.hchPop c) .eos (silence s.cfg) s := by
  simp [popRdv, popHolds, chan_eq hch, hc, hp, hslot]

end

/-! ### A command that passes its checks -/

/-- A command on a ready port that completes with a new state of channel `c`. -/
theorem chan_command_completes {s : State} {i : Instr} {c : Nat} {payload rest out data : List Word} {v : ChanState}
    {run : List Word → State} (h0 : s.fault = 0#8) (hexists : instanceExists s.cfg i = true)
    (howns : portOwns s.cfg s.port i = true) (hhead : AtHead s (encode i) payload rest out)
    (hplen : payload.length = plen s.cfg i) (hrun : run payload = complete i .ok data (setChan c v s)) :
    checked i s (withPayload i s run) =
      .next { answered s rest (out ++ 0x00#32 :: data) with chans := s.chans.set c v } :=
  command_completes h0 hexists howns hhead hplen hrun rfl rfl rfl rfl

/-- A command on a ready port that completes with the units as they are. -/
theorem readonly_command_completes {s : State} {i : Instr} {st : Status} {payload rest out data : List Word}
    {run : List Word → State} (h0 : s.fault = 0#8) (hexists : instanceExists s.cfg i = true)
    (howns : portOwns s.cfg s.port i = true) (hhead : AtHead s (encode i) payload rest out)
    (hplen : payload.length = plen s.cfg i) (hrun : run payload = complete i st data s) :
    checked i s (withPayload i s run) = .next (answered s rest (out ++ st.word :: data)) :=
  command_completes h0 hexists howns hhead hplen hrun rfl rfl rfl rfl

/-! ### The channel status word (R198) -/

/-- Four flags in bits 0 to 3 can be read back, and there is no other bit. -/
theorem testBit_bitAt_sum (b0 b1 b2 b3 : Bool) (j : Nat) :
    (bitAt b0 0 + bitAt b1 1 + bitAt b2 2 + bitAt b3 3).testBit j = [b0, b1, b2, b3].getD j false := by
  have hlow : ∀ b0 b1 b2 b3 : Bool, ∀ j < 4,
      (bitAt b0 0 + bitAt b1 1 + bitAt b2 2 + bitAt b3 3).testBit j = [b0, b1, b2, b3].getD j false := by decide
  have hsum : ∀ b0 b1 b2 b3 : Bool, bitAt b0 0 + bitAt b1 1 + bitAt b2 2 + bitAt b3 3 < 2 ^ 4 := by decide
  rcases Nat.lt_or_ge j 4 with hj | hj
  · exact hlow b0 b1 b2 b3 j hj
  · rw [Nat.testBit_lt_two_pow ((hsum b0 b1 b2 b3).trans_le (Nat.pow_le_pow_right two_pos hj)),
      List.getD_eq_default _ _ hj]

theorem channelWord_getLsbD (mode : ChMode) (ch : ChanState) {j : Nat} (hj : j < 32) :
    (channelWord mode ch).getLsbD j = [ch.slot.isSome, ch.popen, ch.copen, decide (mode = .rdv)].getD j false := by
  rw [channelWord, BitVec.getLsbD_ofNat, testBit_bitAt_sum, decide_eq_true hj, Bool.true_and]

theorem channelWord_high (mode : ChMode) (ch : ChanState) {j : Nat} (hj : 4 ≤ j) :
    (channelWord mode ch).getLsbD j = false := by
  rw [channelWord, BitVec.getLsbD_ofNat, testBit_bitAt_sum, List.getD_eq_default _ _ hj, Bool.and_false]

end Sys2Proof.Machine
end

section
/-!
OBLIGATIONS. The Handoff Channel (43_handoff.md): push and pop in both modes, the disconnects, and the status word.
-/

namespace Sys2Proof.Machine

/-! ### Push -/

/-- Settles O44: the cell is empty, so the push stores its payload. -/
theorem hchPushCellResult : Obligations.HchPushCellResult := by
  intro s c cc ch b rest out h0 hcc hm hprod hch hslot hlen hhead
  rw [exec, execHchPush_cell hcc hm, pushCell_empty hch hslot]
  exact chan_command_completes h0 (decide_eq_true (lt_nCh hcc)) (isProducer_of_prod hcc hprod) hhead hlen
    (storeBlock_eq hch b)

/-- Settles O45: no clause is held, as the slot is empty in the one and the consumer gone in the other. -/
theorem hchPushRdvResult : Obligations.HchPushRdvResult := by
  intro s c cc ch b rest out h0 hcc hm hprod hch hpopen hlen hhead
  have hexists : decide (c < nCh s.cfg) = true := decide_eq_true (lt_nCh hcc)
  have howns := isProducer_of_prod hcc hprod
  rw [exec, execHchPush_rdv hcc hm]
  refine ⟨fun hcopen hslot => ?_, fun hcopen => ?_⟩
  · rw [pushRdv_empty hch hpopen hcopen hslot]
    exact chan_command_completes h0 hexists howns hhead hlen (storeBlock_eq hch b)
  · rw [pushRdv_gone hch hpopen hcopen]
    exact readonly_command_completes (st := .disconnected) h0 hexists howns hhead hlen rfl

/-! ### Pop -/

/-- Settles O46: the cell is full, so the pop delivers its block. -/
theorem hchPopCellResult : Obligations.HchPopCellResult := by
  intro s c cc ch b rest out h0 hcc hm hcons hch hslot hhead
  rw [exec, execHchPop_cell hcc hm, popCell_full hch hslot]
  exact chan_command_completes h0 (decide_eq_true (lt_nCh hcc)) (isConsumer_of_cons hcc hcons) hhead rfl
    (deliverBlock_eq hch b)

/-- Settles O47: no clause is held, as the slot is full in the one and the producer gone in the other. -/
theorem hchPopRdvResult : Obligations.HchPopRdvResult := by
  intro s c cc ch rest out h0 hcc hm hcons hch hcopen hhead
  have hexists : decide (c < nCh s.cfg) = true := decide_eq_true (lt_nCh hcc)
  have howns := isConsumer_of_cons hcc hcons
  rw [exec, execHchPop_rdv hcc hm]
  refine ⟨fun b hslot => ?_, fun hslot hpopen => ?_⟩
  · rw [popRdv_full hch hcopen hslot]
    exact chan_command_completes h0 hexists howns hhead rfl (deliverBlock_eq hch b)
  · rw [popRdv_gone hch hcopen hpopen hslot]
    exact readonly_command_completes (st := .eos) h0 hexists howns hhead rfl rfl

/-! ### Disconnect and status -/

/-- Settles O48: each side clears its own flag, whatever the flag was. -/
theorem hchCloseResults : Obligations.HchCloseResults := by
  intro s c cc ch rest out h0 hcc hm hch
  have hexists : decide (c < nCh s.cfg) = true := decide_eq_true (lt_nCh hcc)
  refine ⟨fun hprod hhead => ?_, fun hcons hhead => ?_⟩
  · rw [exec, execHchClosep, rdvOnly_rdv hcc _ _ hm, chan_eq hch]
    exact chan_command_completes h0 hexists (isProducer_of_prod hcc hprod) hhead rfl rfl
  · rw [exec, execHchClosec, rdvOnly_rdv hcc _ _ hm, chan_eq hch]
    exact chan_command_completes h0 hexists (isConsumer_of_cons hcc hcons) hhead rfl rfl

/-- Settles O49: either side may ask, and the answer is the channel word. -/
theorem hchRdstResult : Obligations.HchRdstResult := by
  intro s c cc ch rest out h0 hcc hside hch hhead
  have howns : (isProducer s.cfg c s.port || isConsumer s.cfg c s.port) = true :=
    Bool.or_eq_true_iff.mpr (hside.imp (isProducer_of_prod hcc) (isConsumer_of_cons hcc))
  refine ⟨channelWord cc.mode ch, ?_, channelWord_getLsbD _ _ (by decide), channelWord_getLsbD _ _ (by decide),
    channelWord_getLsbD _ _ (by decide), ?_, fun _ => channelWord_high _ _⟩
  · rw [exec, execHchRdst, chMode_eq hcc, chan_eq hch]
    exact readonly_command_completes (st := .ok) h0 (decide_eq_true (lt_nCh hcc)) howns hhead rfl rfl
  · rw [channelWord_getLsbD _ _ (by decide)]
    exact decide_eq_true_iff

end Sys2Proof.Machine
end

section
/-!
SUPPORT. The block-level commands (44_system.md): the bytes of the two packed words they answer, and what a valid
configuration says of the fields `SYS.RDCFG` sends.
-/

namespace Sys2Proof.Machine

/-! ### A word from a number (R221, R222) -/

theorem toNat_ofNat_of_fits {n : Nat} (h : n < 2 ^ 32) : (BitVec.ofNat 32 n : Word).toNat = n :=
  (BitVec.toNat_ofNat ..).trans (Nat.mod_eq_of_lt h)

/-- A bit range of a word given by its number. Rewriting with this equation, not with `BitVec.toNat_ofNat` under `simp`,
keeps the kernel from computing the modulus by definition. -/
theorem toNat_extractLsb'_ofNat (n lo len : Nat) :
    ((BitVec.ofNat 32 n).extractLsb' lo len).toNat = n % 2 ^ 32 / 2 ^ lo % 2 ^ len := by
  rw [BitVec.extractLsb'_toNat, BitVec.toNat_ofNat, Nat.shiftRight_eq_div_pow]

theorem faultWord_fields (s : State) :
    (faultWord s).extractLsb' 0 8 = s.fault ∧ (faultWord s).extractLsb' 8 8 = s.fport ∧
      (faultWord s).extractLsb' 16 16 = 0#16 := by
  have hfault := s.fault.isLt
  have hfport := s.fport.isLt
  simp only [← BitVec.toNat_inj, faultWord, toNat_extractLsb'_ofNat, BitVec.toNat_ofNat]
  omega

/-! ### The fields of a valid configuration (R6, R7) -/

theorem scalars_lt_of_configOk {c : Config} (h : configOk c = true) :
    c.sampleRate < 2 ^ 32 ∧ c.block < 2 ^ 32 ∧ c.rampTimeMs < 2 ^ 32 := by
  obtain ⟨-, hrate, -, hblock, hramp, -⟩ := of_decide_eq_true h
  exact ⟨hrate, hblock.trans_lt (by decide), hramp⟩

theorem counts_lt_of_configOk {c : Config} (h : configOk c = true) :
    nOsc c < 256 ∧ nEnv c < 256 ∧ nMix c < 256 ∧ nCh c < 256 := by
  obtain ⟨-, -, -, -, -, -, -, -, -, -, hosc, henv, hmix, hch, -⟩ := of_decide_eq_true h
  exact ⟨Nat.lt_succ_of_le hosc, Nat.lt_succ_of_le henv, Nat.lt_succ_of_le hmix, Nat.lt_succ_of_le hch⟩

theorem countsWord_bytes {c : Config} (h : configOk c = true) :
    ((countsWord c).extractLsb' 0 8).toNat = nOsc c ∧ ((countsWord c).extractLsb' 8 8).toNat = nEnv c ∧
      ((countsWord c).extractLsb' 16 8).toNat = nMix c ∧ ((countsWord c).extractLsb' 24 8).toNat = nCh c := by
  obtain ⟨hosc, henv, hmix, hch⟩ := counts_lt_of_configOk h
  simp only [countsWord, toNat_extractLsb'_ofNat]
  omega

end Sys2Proof.Machine
end

section
/-!
OBLIGATIONS. The block-level commands (44_system.md). Every port may send them: no instance is named, so none is missing
and none has another owner.
-/

namespace Sys2Proof.Machine

/-- Settles O52: with no instance to check, only a halt could stop it, and its response is the status word alone. -/
theorem sysNopResult : Obligations.SysNopResult := by
  intro s rest out h0 hhead
  rw [exec, execSysNop]
  exact readonly_command_completes (st := .ok) h0 rfl rfl hhead rfl rfl

/-- Settles O53: the command is not among the `checked` ones, so the halt is never asked for. -/
theorem sysRdfltResult : Obligations.SysRdfltResult := by
  intro s rest out hhead
  obtain ⟨hfault, hfport, hzero⟩ := faultWord_fields s
  refine ⟨faultWord s, hfault, hfport, hzero, ?_⟩
  rw [exec, execSysRdflt, withPayload_atHead hhead rfl]
  exact congrArg Host.Outcome.next (complete_eq hhead rfl rfl rfl rfl rfl)

/-- Settles O54: every field of a valid configuration fits where the answer puts it. -/
theorem sysRdcfgResult : Obligations.SysRdcfgResult := by
  intro s rest out h0 hconfig hhead
  obtain ⟨hrate, hblock, hramp⟩ := scalars_lt_of_configOk hconfig
  obtain ⟨hosc, henv, hmix, hch⟩ := countsWord_bytes hconfig
  refine ⟨BitVec.ofNat 32 s.cfg.sampleRate, BitVec.ofNat 32 s.cfg.block, BitVec.ofNat 32 s.cfg.rampTimeMs,
    BitVec.ofNat 32 (rampLen s.cfg), countsWord s.cfg, toNat_ofNat_of_fits hrate,
    toNat_ofNat_of_fits hblock, toNat_ofNat_of_fits hramp, toNat_ofNat_of_fits (rampLen_lt_of_configOk hconfig),
    hosc, henv, hmix, hch, ?_⟩
  rw [exec, execSysRdcfg]
  exact readonly_command_completes (st := .ok) h0 rfl rfl hhead rfl rfl

end Sys2Proof.Machine
end

section
/-!
SUPPORT. Faults and the halt (60_exceptions.md R231 to R242): which commands are checked, the whole next state when a
check fails, and the way each command takes to a fault of its own.
-/

namespace Sys2Proof.Machine

/-! ### Illegal words (R232) -/

/-- A head word that is no command is rejected on its port. -/
theorem portStep_of_reject {s : State} {p : Nat} {w : Word} {ws : List Word} {e : DecodeReject}
    (hw : s.cmdIn[p]? = some (w :: ws)) (hd : decode w = .error e) :
    portStep p s = .next (rejectWord w (serve p s)) := by
  simp [portStep, pending_eq_of_getElem? hw, hd]

theorem rejectWord_halted {w : Word} {s : State} (h0 : s.fault ≠ 0#8) : rejectWord w s = refuseHalted s :=
  if_pos ((halted_iff s).mpr h0)

theorem rejectWord_unhalted {w : Word} {s : State} (h0 : s.fault = 0#8) :
    rejectWord w s = takeFault .illegalCmd w s :=
  if_neg (Bool.eq_false_iff.mp ((not_halted_iff s).mpr h0))

/-! ### The checks (R242) -/

/-- Every command but `SYS.RDFLT` asks for the halt, the instance and the owner before it does anything of its own. -/
theorem exec_eq_checked {i : Instr} (hi : i ≠ .sysRdflt) (s : State) : ∃ run, exec i s = checked i s run := by
  cases i with
  | sysRdflt => exact absurd rfl hi
  | _ => exact ⟨_, rfl⟩

theorem exec_halted {i : Instr} {s : State} (hi : i ≠ .sysRdflt) (h0 : s.fault ≠ 0#8) :
    exec i s = .next (refuseHalted s) := by
  obtain ⟨run, hrun⟩ := exec_eq_checked hi s
  rw [hrun, checked_halted h0]

theorem checked_missing {i : Instr} {s : State} {run : Result} (h0 : s.fault = 0#8)
    (hexists : instanceExists s.cfg i = false) :
    checked i s run = .next (takeFault .badInstance (encode i) s) := by
  simp [checked, halted, h0, hexists]

theorem checked_foreign {i : Instr} {s : State} {run : Result} (h0 : s.fault = 0#8)
    (hexists : instanceExists s.cfg i = true) (howns : portOwns s.cfg s.port i = false) :
    checked i s run = .next (takeFault .owner (encode i) s) := by
  simp [checked, halted, h0, hexists, howns]

section
variable {i : Instr} {s : State} {rest out : List Word} (h0 : s.fault = 0#8)
  (hhead : AtHead s (encode i) [] rest out)
include h0 hhead

/-- A command for a missing instance, whatever its port (R233). -/
theorem exec_missing (hexists : instanceExists s.cfg i = false) :
    exec i s = .next (faulted s 2 (encode i) rest out) := by
  have hi : i ≠ .sysRdflt := by rintro rfl; cases hexists
  obtain ⟨run, hrun⟩ := exec_eq_checked hi s
  rw [hrun, checked_missing h0 hexists, takeFault_eq hhead]
  rfl

/-- A command for an instance of another port (R236). -/
theorem exec_foreign (hexists : instanceExists s.cfg i = true) (howns : portOwns s.cfg s.port i = false) :
    exec i s = .next (faulted s 6 (encode i) rest out) := by
  have hi : i ≠ .sysRdflt := by rintro rfl; cases howns
  obtain ⟨run, hrun⟩ := exec_eq_checked hi s
  rw [hrun, checked_foreign h0 hexists howns, takeFault_eq hhead]
  rfl

/-- A command that passes the checks and then raises a fault of its own (R240). -/
theorem checked_faults {run : Result} {code : FaultCode} (hexists : instanceExists s.cfg i = true)
    (howns : portOwns s.cfg s.port i = true) (hrun : run = .next (takeFault code (encode i) s)) :
    checked i s run = .next (faulted s code.code (encode i) rest out) := by
  rw [checked_pass h0 hexists howns, hrun, takeFault_eq hhead]

end

/-! ### Which instance a command names, and who owns it (R233, R236) -/

abbrev oscCommands (n : Nat) : List Instr := [.oscSetf n, .oscNext n, .oscRender n, .oscRdst n]

abbrev envCommands (n : Nat) : List Instr := [.envNon n, .envNoff n, .envProc n, .envProcb n, .envRdst n]

abbrev hchCommands (n : Nat) : List Instr := [.hchPush n, .hchPop n, .hchClosep n, .hchClosec n, .hchRdst n]

/-- `i` is a command of mixer `n`, of the two that use `IDX` with any index. -/
abbrev IsMixCommand (n : Nat) (i : Instr) : Prop :=
  i ∈ [Instr.mixMix1 n, .mixRender n] ∨ ∃ k, i ∈ [Instr.mixSetlvl n k, .mixRdlvl n k]

section
variable {i : Instr} {n : Nat} (c : Config) (port : Nat)

theorem checks_of_oscCommand (hi : i ∈ oscCommands n) :
    instanceExists c i = decide (n < nOsc c) ∧ portOwns c port i = ownsOsc c n port := by
  simp only [List.mem_cons, List.not_mem_nil, or_false] at hi
  rcases hi with rfl | rfl | rfl | rfl <;> exact ⟨rfl, rfl⟩

theorem checks_of_envCommand (hi : i ∈ envCommands n) :
    instanceExists c i = decide (n < nEnv c) ∧ portOwns c port i = ownsEnv c n port := by
  simp only [List.mem_cons, List.not_mem_nil, or_false] at hi
  rcases hi with rfl | rfl | rfl | rfl | rfl <;> exact ⟨rfl, rfl⟩

theorem checks_of_mixCommand (hi : IsMixCommand n i) :
    instanceExists c i = decide (n < nMix c) ∧ portOwns c port i = ownsMix c n port := by
  simp only [IsMixCommand, List.mem_cons, List.not_mem_nil, or_false] at hi
  rcases hi with (rfl | rfl) | ⟨k, rfl | rfl⟩ <;> exact ⟨rfl, rfl⟩

/-- The side of a channel that owns a command differs between its commands, so only the existence is one fact. -/
theorem instanceExists_of_hchCommand (hi : i ∈ hchCommands n) : instanceExists c i = decide (n < nCh c) := by
  simp only [List.mem_cons, List.not_mem_nil, or_false] at hi
  rcases hi with rfl | rfl | rfl | rfl | rfl <;> rfl

end

section
variable {c : Config} {n own p : Nat}

theorem ownsOsc_of_foreign (h : c.ownOsc[n]? = some own) (hp : own ≠ p) : ownsOsc c n p = false := by
  simp [ownsOsc, h, hp]

theorem ownsEnv_of_foreign (h : c.ownEnv[n]? = some own) (hp : own ≠ p) : ownsEnv c n p = false := by
  simp [ownsEnv, h, hp]

theorem ownsMix_of_foreign {mc : MixerCfg} (h : c.mixers[n]? = some mc) (hp : mc.owner ≠ p) :
    ownsMix c n p = false := by
  simp [ownsMix, h, hp]

theorem isProducer_of_foreign {cc : ChannelCfg} (h : c.channels[n]? = some cc) (hp : cc.prod ≠ p) :
    isProducer c n p = false :=
  Bool.eq_false_iff.mpr (hp ∘ isProducer_eq h)

theorem isConsumer_of_foreign {cc : ChannelCfg} (h : c.channels[n]? = some cc) (hp : cc.cons ≠ p) :
    isConsumer c n p = false :=
  Bool.eq_false_iff.mpr (hp ∘ isConsumer_eq h)

end

/-! ### The faults of a command's own (R231, R234, R235, R237) -/

theorem mixIndexChecked_fails {i : Instr} {m idx : Nat} {mc : MixerCfg} {s : State} {run : Result}
    (hm : s.cfg.mixers[m]? = some mc) (h : mc.gainInit.length ≤ idx) :
    mixIndexChecked i m idx s run = .next (takeFault .mixIndex (encode i) s) := by
  rw [mixIndexChecked, nSrc_eq hm, if_pos h]

theorem rdvOnly_cell {s : State} {c : Nat} {cc : ChannelCfg} (i : Instr) (run : Result)
    (hcc : s.cfg.channels[c]? = some cc) (hm : cc.mode = .cell) :
    rdvOnly i c s run = .next (takeFault .channelMisuse (encode i) s) := by
  rw [rdvOnly, chMode_eq hcc, hm]

section
variable {s : State} {c : Nat} {ch : ChanState} (hch : s.chans[c]? = some ch)
include hch

theorem pushCell_full (hslot : ch.slot ≠ none) :
    pushCell c s = .next (takeFault .cellOverwrite (encode (.hchPush c)) s) := by
  rw [pushCell, chan_eq hch, if_pos (Option.isSome_iff_ne_none.mpr hslot)]

theorem popCell_empty (hslot : ch.slot = none) :
    popCell c s = .next (takeFault .cellEmptyRead (encode (.hchPop c)) s) := by
  rw [popCell, chan_eq hch, hslot]

/-- After the producer's own close a push faults, whatever the slot and the consumer. -/
theorem pushRdv_closed (hp : ch.popen = false) :
    pushRdv c s = .next (takeFault .channelMisuse (encode (.hchPush c)) s) := by
  rw [pushRdv, chan_eq hch, if_pos hp]

/-- After the consumer's own close a pop faults, whatever the slot and the producer. -/
theorem popRdv_closed (hc : ch.copen = false) :
    popRdv c s = .next (takeFault .channelMisuse (encode (.hchPop c)) s) := by
  rw [popRdv, chan_eq hch, if_pos hc]

end

end Sys2Proof.Machine
end

section
/-!
OBLIGATIONS. Faults and the halt (60_exceptions.md): what every word does on a halted block, what every fault leaves
unchanged, then the causes of the seven codes.
-/

namespace Sys2Proof.Machine

/-! ### Every word, every fault -/

/-- Settles O10: a word that is no command is refused, and so is every command that is checked for the halt; the one
that is not has the word left out. -/
theorem haltedBlockRefusesEveryWord : Obligations.HaltedBlockRefusesEveryWord := by
  intro s p w rest out h0 hw hout hne
  have hrefuse : portStep p s = .next (refuseHalted (serve p s)) := by
    cases hd : decode w with
    | error e => rw [portStep_of_reject hw hd, rejectWord_halted (s := serve p s) h0]
    | ok i =>
      have hi : i ≠ .sysRdflt := by
        rintro rfl
        exact hne (encode_of_decode hd).symm
      rw [portStep_of_decode hw hd, exec_halted (s := serve p s) hi h0]
  rw [hrefuse, refuseHalted_eq (atHead_serve hw hout)]
  rfl

/-- Settles O13: a command that completes leaves the record as it was, so the command has faulted. -/
theorem faultChangesOnlyTheRecord : Obligations.FaultChangesOnlyTheRecord := by
  intro i s t rest out h0 hhead h hfault
  cases exec_next h with
  | refused hf => exact absurd h0 hf
  | faults _ _ code ht =>
    obtain ⟨hlow, hhigh⟩ := code.code_bounds
    exact ⟨code.code, hlow, hhigh, ht.trans (takeFault_eq hhead)⟩
  | completes st data u _ _ _ _ he ht =>
    obtain ⟨-, -, hu, -⟩ := he.frame
    exact absurd (ht ▸ hu.trans h0) hfault

/-! ### The causes -/

/-- Settles O14: the existence check of each unit kind compares with the length of its part of the configuration. -/
theorem missingInstanceFaults : Obligations.MissingInstanceFaults := by
  intro s n i rest out h0 hhead
  refine ⟨fun hi hn => ?osc, fun hi hn => ?env, fun hi hn => ?mix, fun hi hn => ?hch⟩ <;>
    refine exec_missing h0 hhead (Eq.trans ?_ (decide_eq_false hn.not_gt))
  case osc => exact (checks_of_oscCommand s.cfg s.port hi).1
  case env => exact (checks_of_envCommand s.cfg s.port hi).1
  case mix => exact (checks_of_mixCommand s.cfg s.port hi).1
  case hch => exact instanceExists_of_hchCommand s.cfg hi

/-- Settles O15: the instance is there, so the owner check is the one that decides. -/
theorem foreignPortFaults : Obligations.ForeignPortFaults := by
  intro s n own mc cc i rest out h0 hhead
  refine ⟨fun hi hown hne => ?osc, fun hi hown hne => ?env, fun hi hmc hne => ?mix, fun hi hcc hne => ?producer,
    fun hi hcc hne => ?consumer, fun hi hcc hprod hcons => ?either⟩
  case osc =>
    obtain ⟨hexists, howns⟩ := checks_of_oscCommand s.cfg s.port hi
    exact exec_foreign h0 hhead (hexists.trans (decide_eq_true (lt_nOsc hown)))
      (howns.trans (ownsOsc_of_foreign hown hne))
  case env =>
    obtain ⟨hexists, howns⟩ := checks_of_envCommand s.cfg s.port hi
    exact exec_foreign h0 hhead (hexists.trans (decide_eq_true (lt_nEnv hown)))
      (howns.trans (ownsEnv_of_foreign hown hne))
  case mix =>
    obtain ⟨hexists, howns⟩ := checks_of_mixCommand s.cfg s.port hi
    exact exec_foreign h0 hhead (hexists.trans (decide_eq_true (lt_nMix hmc)))
      (howns.trans (ownsMix_of_foreign hmc hne))
  case producer =>
    simp only [List.mem_cons, List.not_mem_nil, or_false] at hi
    rcases hi with rfl | rfl <;>
      exact exec_foreign h0 hhead (decide_eq_true (lt_nCh hcc)) (isProducer_of_foreign hcc hne)
  case consumer =>
    simp only [List.mem_cons, List.not_mem_nil, or_false] at hi
    rcases hi with rfl | rfl <;>
      exact exec_foreign h0 hhead (decide_eq_true (lt_nCh hcc)) (isConsumer_of_foreign hcc hne)
  case either =>
    subst hi
    exact exec_foreign h0 hhead (decide_eq_true (lt_nCh hcc))
      (Bool.or_eq_false_iff.mpr ⟨isProducer_of_foreign hcc hprod, isConsumer_of_foreign hcc hcons⟩)

/-- Settles O9: on an unhalted block rejecting a word is taking fault 1, which leaves the words behind it. -/
theorem illegalWordFaults : Obligations.IllegalWordFaults := by
  intro s p w rest out e h0 hw hout hd
  rw [portStep_of_reject hw hd, rejectWord_unhalted (s := serve p s) h0, takeFault_eq (atHead_serve hw hout)]
  rfl

/-- Settles O16: both commands ask for the index before their payload and before any gain. -/
theorem mixerIndexFaults : Obligations.MixerIndexFaults := by
  intro s m k mc i rest out h0 hhead hi hm howner hk
  simp only [List.mem_cons, List.not_mem_nil, or_false] at hi
  rcases hi with rfl | rfl <;>
    exact checked_faults (code := .mixIndex) h0 hhead (decide_eq_true (lt_nMix hm)) (ownsMix_of_owner hm howner)
      (mixIndexChecked_fails hm hk)

/-- Settles O17: the slot is looked at before the payload of a push is. -/
theorem cellMisuseFaults : Obligations.CellMisuseFaults := by
  intro s c cc ch rest out h0 hcc hm hch
  have hexists : decide (c < nCh s.cfg) = true := decide_eq_true (lt_nCh hcc)
  refine ⟨fun hhead hcons hslot => ?_, fun hhead hprod hslot => ?_⟩
  · rw [exec, execHchPop_cell hcc hm]
    exact checked_faults (code := .cellEmptyRead) h0 hhead hexists (isConsumer_of_cons hcc hcons)
      (popCell_empty hch hslot)
  · rw [exec, execHchPush_cell hcc hm]
    exact checked_faults (code := .cellOverwrite) h0 hhead hexists (isProducer_of_prod hcc hprod)
      (pushCell_full hch hslot)

/-- Settles O18: a cell has no disconnect, and the other two faults come before the hold condition is looked at. -/
theorem channelMisuseFaults : Obligations.ChannelMisuseFaults := by
  intro s c cc ch i rest out h0 hhead hcc hch
  have hexists : decide (c < nCh s.cfg) = true := decide_eq_true (lt_nCh hcc)
  refine ⟨?closep, ?closec, ?push, ?pop⟩
  case closep =>
    rintro rfl hm hprod
    exact checked_faults (code := .channelMisuse) h0 hhead hexists (isProducer_of_prod hcc hprod)
      (rdvOnly_cell _ _ hcc hm)
  case closec =>
    rintro rfl hm hcons
    exact checked_faults (code := .channelMisuse) h0 hhead hexists (isConsumer_of_cons hcc hcons)
      (rdvOnly_cell _ _ hcc hm)
  case push =>
    rintro rfl hm hprod hpopen
    rw [exec, execHchPush_rdv hcc hm]
    exact checked_faults (code := .channelMisuse) h0 hhead hexists (isProducer_of_prod hcc hprod)
      (pushRdv_closed hch hpopen)
  case pop =>
    rintro rfl hm hcons hcopen
    rw [exec, execHchPop_rdv hcc hm]
    exact checked_faults (code := .channelMisuse) h0 hhead hexists (isConsumer_of_cons hcc hcons)
      (popRdv_closed hch hcopen)

end Sys2Proof.Machine
end

section
/-!
SUPPORT. The waits of a command (70_reset_and_hazards.md R272, 30_encoding.md R86): what it means that a command stops
without a step, and the way each command takes to its wait.
-/

namespace Sys2Proof.Machine

/-! ### The hold conditions (R193, R195) -/

theorem pushHolds_iff {ch : ChanState} : pushHolds ch = true ↔ ch.slot ≠ none ∧ ch.copen = true := by
  rw [pushHolds, Bool.and_eq_true, Option.isSome_iff_ne_none]

theorem popHolds_iff {ch : ChanState} : popHolds ch = true ↔ ch.slot = none ∧ ch.popen = true := by
  rw [popHolds, Bool.and_eq_true, Option.isNone_iff_eq_none]

/-- A channel in rendezvous mode is one of the configuration's. -/
theorem exists_of_chMode_rdv {c : Config} {n : Nat} (h : chMode c n = .rdv) :
    ∃ cc, c.channels[n]? = some cc ∧ cc.mode = .rdv := by
  cases hcc : c.channels[n]? with
  | none => simp [chMode, hcc] at h
  | some cc => exact ⟨cc, rfl, chMode_eq hcc ▸ h⟩

/-! ### What a stop means -/

/-- Why a command that passes its checks has no step: words of its payload are missing, or it is a push or a pop whose
hold condition stands. -/
inductive Waits (s : State) : Instr → Fault → Prop where
  | payload (i : Instr) (hshort : (payloadWords s).length < plen s.cfg i) : Waits s i .payloadIncomplete
  | push (c : Nat) (hm : chMode s.cfg c = .rdv) (hhold : pushHolds (chan s c) = true) : Waits s (.hchPush c) .held
  | pop (c : Nat) (hm : chMode s.cfg c = .rdv) (hhold : popHolds (chan s c) = true) : Waits s (.hchPop c) .held

section
variable {s : State} {i : Instr} {f : Fault} {run : Result}

theorem waits_of_withPayload {body : List Word → State} (h : withPayload i s body = .fault f) :
    Waits s i f := by
  rw [withPayload] at h
  split at h
  · cases h
    exact .payload i ‹_›
  · cases h

/-- A failed check is answered by a step, so only the command's own part can stop. -/
theorem checked_stops (h : checked i s run = .fault f) : s.fault = 0#8 ∧ run = .fault f := by
  rcases checked_cases i s run with ⟨-, e⟩ | ⟨-, -, e⟩ | ⟨-, -, -, e⟩ | ⟨h0, -, -, e⟩ <;> rw [e] at h
  case inr.inr.inr => exact ⟨h0, h⟩
  all_goals cases h

theorem mixIndexChecked_stops {m idx : Nat} (h : mixIndexChecked i m idx s run = .fault f) : run = .fault f := by
  rw [mixIndexChecked] at h
  split at h
  · cases h
  · exact h

theorem rdvOnly_stops {c : Nat} (h : rdvOnly i c s run = .fault f) : run = .fault f := by
  rw [rdvOnly] at h
  split at h
  · cases h
  · exact h

theorem waits_of_pushCell {c : Nat} (h : pushCell c s = .fault f) : Waits s (.hchPush c) f := by
  rw [pushCell] at h
  split at h
  · cases h
  · exact waits_of_withPayload h

theorem waits_of_pushRdv {c : Nat} (hm : chMode s.cfg c = .rdv) (h : pushRdv c s = .fault f) :
    Waits s (.hchPush c) f := by
  rw [pushRdv] at h
  split at h
  · cases h
  · split at h
    · cases h
      exact .push c hm ‹_›
    · exact waits_of_withPayload h

theorem waits_of_popCell {c : Nat} (h : popCell c s = .fault f) : Waits s (.hchPop c) f := by
  rw [popCell] at h
  split at h
  · cases h
  · exact waits_of_withPayload h

theorem waits_of_popRdv {c : Nat} (hm : chMode s.cfg c = .rdv) (h : popRdv c s = .fault f) :
    Waits s (.hchPop c) f := by
  rw [popRdv] at h
  split at h
  · cases h
  · split at h
    · cases h
      exact .pop c hm ‹_›
    · exact waits_of_withPayload h

/-- The stop of a checked command is the stop of its own part, and the block is not halted. -/
theorem waits_of_checked (h : checked i s run = .fault f) (hrun : run = .fault f → Waits s i f) :
    s.fault = 0#8 ∧ Waits s i f := by
  obtain ⟨h0, hstop⟩ := checked_stops h
  exact ⟨h0, hrun hstop⟩

/-- Whatever the command, a stop is one of the waits of an unhalted block. -/
theorem exec_stops (h : exec i s = .fault f) : s.fault = 0#8 ∧ Waits s i f := by
  cases i with
  | hchPush c =>
    refine waits_of_checked h fun hrun => ?_
    cases hm : chMode s.cfg c with
    | cell => exact waits_of_pushCell (by simpa only [hm] using hrun)
    | rdv => exact waits_of_pushRdv hm (by simpa only [hm] using hrun)
  | hchPop c =>
    refine waits_of_checked h fun hrun => ?_
    cases hm : chMode s.cfg c with
    | cell => exact waits_of_popCell (by simpa only [hm] using hrun)
    | rdv => exact waits_of_popRdv hm (by simpa only [hm] using hrun)
  | mixSetlvl | mixRdlvl => exact waits_of_checked h fun hrun => waits_of_withPayload (mixIndexChecked_stops hrun)
  | hchClosep | hchClosec => exact waits_of_checked h fun hrun => waits_of_withPayload (rdvOnly_stops hrun)
  | sysRdflt =>
    rw [exec, execSysRdflt, withPayload_none rfl] at h
    cases h
  | _ => exact waits_of_checked h waits_of_withPayload

end

/-! ### The way of a push and of a pop (R193, R195, R272) -/

section
variable {s : State} {c : Nat} {ch : ChanState} (hch : s.chans[c]? = some ch)
include hch

theorem pushRdv_held {b : Block} (hslot : ch.slot = some b) (hp : ch.popen = true) (hc : ch.copen = true) :
    pushRdv c s = .fault .held := by
  have hhold : pushHolds ch = true := pushHolds_iff.mpr ⟨by simp [hslot], hc⟩
  simp [pushRdv, chan_eq hch, hp, hhold]

theorem popRdv_held (hslot : ch.slot = none) (hp : ch.popen = true) (hc : ch.copen = true) :
    popRdv c s = .fault .held := by
  have hhold : popHolds ch = true := popHolds_iff.mpr ⟨hslot, hp⟩
  simp [popRdv, chan_eq hch, hc, hhold]

/-- A push that neither faults nor holds asks for its payload next, in both modes. -/
theorem execHchPush_asks_payload {cc : ChannelCfg} (hcc : s.cfg.channels[c]? = some cc)
    (hfree : (cc.mode = .cell ∧ ch.slot = none) ∨
      (cc.mode = .rdv ∧ ch.popen = true ∧ (ch.slot = none ∨ ch.copen = false))) :
    ∃ run, execHchPush c s = checked (.hchPush c) s (withPayload (.hchPush c) s run) := by
  rcases hfree with ⟨hm, hslot⟩ | ⟨hm, hp, hopen⟩
  · exact ⟨_, by rw [execHchPush_cell hcc hm, pushCell_empty hch hslot]⟩
  · rw [execHchPush_rdv hcc hm]
    cases hc : ch.copen with
    | false => exact ⟨_, by rw [pushRdv_gone hch hp hc]⟩
    | true =>
      have hslot : ch.slot = none := hopen.resolve_right (by simp [hc])
      exact ⟨_, by rw [pushRdv_empty hch hp hc hslot]⟩

end

/-! ### The missing payload (R86) -/

theorem withPayload_incomplete {i : Instr} {s : State} {cmd : Word} {ws : List Word} {run : List Word → State}
    (hw : s.cmdIn[s.port]? = some (cmd :: ws)) (hshort : ws.length < plen s.cfg i) :
    withPayload i s run = .fault .payloadIncomplete := by
  rw [withPayload, payloadWords_eq (pending_eq_of_getElem? hw), if_pos hshort]

/-- A command that passes the checks waits for its payload: it neither completes nor faults. -/
theorem command_waits {i : Instr} {s : State} {cmd : Word} {ws : List Word} {run : List Word → State}
    (h0 : s.fault = 0#8) (hw : s.cmdIn[s.port]? = some (cmd :: ws)) (hexists : instanceExists s.cfg i = true)
    (howns : portOwns s.cfg s.port i = true) (hshort : ws.length < plen s.cfg i) :
    checked i s (withPayload i s run) = .fault .payloadIncomplete := by
  rw [checked_pass h0 hexists howns, withPayload_incomplete hw hshort]

end Sys2Proof.Machine
end

section
/-!
OBLIGATIONS. Reset and hazards (70_reset_and_hazards.md): the two ways a command can wait.
-/

namespace Sys2Proof.Machine

/-- Settles O12: a stop is a hold or a missing payload; and each command that passes its checks comes to its hold
condition, then to its payload. -/
theorem onlyPushAndPopHold : Obligations.OnlyPushAndPopHold := by
  refine ⟨?held, ?holds, ?incomplete, ?waits⟩
  case held =>
    intro i s h
    obtain ⟨h0, hwait⟩ := exec_stops h
    cases hwait with
    | push c hm hhold =>
      obtain ⟨cc, hcc, hrdv⟩ := exists_of_chMode_rdv hm
      exact ⟨c, cc, hcc, hrdv, h0, .inl ⟨rfl, pushHolds_iff.mp hhold⟩⟩
    | pop c hm hhold =>
      obtain ⟨cc, hcc, hrdv⟩ := exists_of_chMode_rdv hm
      exact ⟨c, cc, hcc, hrdv, h0, .inr ⟨rfl, popHolds_iff.mp hhold⟩⟩
  case holds =>
    intro s c cc ch b h0 hcc hm hch
    have hexists : decide (c < nCh s.cfg) = true := decide_eq_true (lt_nCh hcc)
    refine ⟨fun hprod hslot hp hc => ?_, fun hcons hslot hp hc => ?_⟩
    · rw [exec, execHchPush_rdv hcc hm, checked_pass (i := .hchPush c) h0 hexists (isProducer_of_prod hcc hprod)]
      exact pushRdv_held hch hslot hp hc
    · rw [exec, execHchPop_rdv hcc hm, checked_pass (i := .hchPop c) h0 hexists (isConsumer_of_cons hcc hcons)]
      exact popRdv_held hch hslot hp hc
  case incomplete =>
    intro i s cmd ws h hw
    obtain ⟨h0, hwait⟩ := exec_stops h
    cases hwait with
    | payload _ hshort => exact ⟨h0, payloadWords_eq (pending_eq_of_getElem? hw) ▸ hshort⟩
  case waits =>
    intro s n k mc cc ch cmd ws h0 hw
    refine ⟨fun hown hshort => ?oscSetf, fun hown hshort => ?envProc, fun hown hshort => ?envProcb,
      fun hm ho hk hshort => ?mixSetlvl, fun hm ho hshort => ?mixMix1, fun hm ho hshort => ?mixRender,
      fun hcc hprod hch hshort hfree => ?hchPush⟩
    case oscSetf => exact command_waits h0 hw (decide_eq_true (lt_nOsc hown)) (ownsOsc_of_owner hown) hshort
    case envProc | envProcb =>
      exact command_waits h0 hw (decide_eq_true (lt_nEnv hown)) (ownsEnv_of_owner hown) hshort
    case mixSetlvl =>
      rw [exec, execMixSetlvl, mixIndexChecked_pass hm hk]
      exact command_waits h0 hw (decide_eq_true (lt_nMix hm)) (ownsMix_of_owner hm ho) hshort
    case mixMix1 | mixRender =>
      rw [← nSrc_eq hm] at hshort
      exact command_waits h0 hw (decide_eq_true (lt_nMix hm)) (ownsMix_of_owner hm ho) hshort
    case hchPush =>
      obtain ⟨run, hrun⟩ := execHchPush_asks_payload hch hcc hfree
      rw [exec, hrun]
      exact command_waits h0 hw (decide_eq_true (lt_nCh hcc)) (isProducer_of_prod hcc hprod) hshort

end Sys2Proof.Machine
end
